-- ==== Sys2Proof/Word.lean ====
section
/-! DEFINITION. The widths of the machine: 64-bit words (addresses, lengths, bit counts, positions, seeds), 32-bit
words (the command word, STATUS, an error-rate pattern, a probe index) and bytes (spec R8, R10, R20, R60). -/

namespace Sys2Proof

/-- A 64-bit register, address, byte length, bit count or position (XLEN = 64, R8). -/
abbrev Word := BitVec 64

/-- A 32-bit register: CMD, STATUS, ERROR_RATE, IDX (R20). -/
abbrev Half := BitVec 32

/-- One byte of buffer memory (R60). -/
abbrev Byte := BitVec 8

/-- The number of byte addresses of buffer memory, 2^64 (R60). -/
abbrev addressSpace : Nat := 2 ^ 64

/-- `M_MAX`, the largest bit count the deriver returns (R8, R135). -/
abbrev maxBits : Nat := 2 ^ 64 - 8

/-- `HDR_BYTES`, the size of a filter's header (R64). -/
abbrev headerBytes : Nat := 20

/-- `SEED_TABLE_LEN`, the number of entries of the seed table and so the largest probe count (R8, R112). -/
abbrev seedTableLen : Nat := 100

end Sys2Proof
end

