-- ==== Sys2Proof/Syntax.lean ====
section
/-! DEFINITION. The engine's commands, one constructor per row of the opcode map (spec R92). A command carries no
operand: its operands are the fixed registers of R36 (R93). -/

namespace Sys2Proof

/-- The eleven commands of R92. -/
inductive Instr where
  /-- `NOP`, word 0x00000000 (R190). -/
  | nop
  /-- `OPTBITS`, word 0x00000001 (R140). -/
  | optbits
  /-- `OPTPROBES`, word 0x00000002 (R141). -/
  | optprobes
  /-- `DERIVE`, word 0x00000003 (R142). -/
  | derive
  /-- `PROBE`, word 0x00000004 (R116). -/
  | probe
  /-- `SETBIT`, word 0x00000005 (R174). -/
  | setbit
  /-- `TESTBIT`, word 0x00000006 (R176). -/
  | testbit
  /-- `INIT`, word 0x00000008 (R200). -/
  | init
  /-- `ADD`, word 0x00000009 (R206). -/
  | add
  /-- `TEST`, word 0x0000000A (R210). -/
  | test
  /-- `MERGE`, word 0x0000000B (R218). -/
  | merge
  deriving DecidableEq, Repr

end Sys2Proof
end

