-- ==== Sys2Proof/WellFormed.lean ====
section
/-! DEFINITION. The form checks on what the host may write to CMD: the two fields of the command word (spec R90) and the
two checks a decoder makes (R91, R92, R94). An `Instr` has no operand field, so nothing of it can be ill-formed (R93). -/

namespace Sys2Proof

/-- A command word by its two fields (R90). -/
structure CommandWord where
  /-- `RSV`, bits 31:4. -/
  rsv : BitVec 28
  /-- `OPC`, bits 3:0. -/
  opc : BitVec 4
  deriving DecidableEq, Repr

/-- The reserved bits are zero (R91). -/
def CommandWord.reservedZero (c : CommandWord) : Bool := c.rsv == 0#28

/-- The opcode is one of the eleven of R92: not 0x7 and not 0xC to 0xF. -/
def CommandWord.opcodeAssigned (c : CommandWord) : Bool := c.opc != 0x7#4 && decide (c.opc.toNat < 12)

/-- The word is one of the eleven legal ones (R92, R94). -/
def CommandWord.wellFormed (c : CommandWord) : Bool := c.reservedZero && c.opcodeAssigned

/-- Every command is well formed: it has no operand, immediate or modifier to check (R93). -/
def Instr.wellFormed : Instr → Bool
  | .nop => true
  | .optbits => true
  | .optprobes => true
  | .derive => true
  | .probe => true
  | .setbit => true
  | .testbit => true
  | .init => true
  | .add => true
  | .test => true
  | .merge => true

end Sys2Proof
end

