-- ==== Sys2Proof/Decode.lean ====
section
/-! DEFINITION. The decoder of the command word, total on every 32-bit word and rejecting by name (spec R91, R92, R94),
and the encoder written from the same table. -/

namespace Sys2Proof

/-- Why a word is not a command; the engine reports both as IllegalCommand (R94, R248). -/
inductive Illegal where
  /-- A bit of CMD[31:4] is set (R91). -/
  | reservedBits
  /-- OPC is 0x7 or 0xC to 0xF (R92, R94). -/
  | reservedOpcode
  deriving DecidableEq, Repr

/-- The fields of a word: RSV = bits 31:4, OPC = bits 3:0 (R90). -/
def fieldsOf (w : Half) : CommandWord := ⟨w.extractLsb' 4 28, w.extractLsb' 0 4⟩

/-- The opcode map of R92. -/
def decodeOpcode (opc : BitVec 4) : Except Illegal Instr :=
  match opc.toNat with
  | 0x0 => .ok .nop
  | 0x1 => .ok .optbits
  | 0x2 => .ok .optprobes
  | 0x3 => .ok .derive
  | 0x4 => .ok .probe
  | 0x5 => .ok .setbit
  | 0x6 => .ok .testbit
  | 0x8 => .ok .init
  | 0x9 => .ok .add
  | 0xA => .ok .test
  | 0xB => .ok .merge
  | _ => .error .reservedOpcode

/-- The decoder of R92: first the reserved bits, whatever OPC is (R91), then the opcode map. -/
def decode (w : Half) : Except Illegal Instr :=
  if (fieldsOf w).reservedZero then decodeOpcode (fieldsOf w).opc else .error .reservedBits

/-- The word of each command (R92, column "word"). -/
def encode : Instr → Half
  | .nop => 0x00000000#32
  | .optbits => 0x00000001#32
  | .optprobes => 0x00000002#32
  | .derive => 0x00000003#32
  | .probe => 0x00000004#32
  | .setbit => 0x00000005#32
  | .testbit => 0x00000006#32
  | .init => 0x00000008#32
  | .add => 0x00000009#32
  | .test => 0x0000000A#32
  | .merge => 0x0000000B#32

/-- The instruction the decoder reads from a table word of `nbits` bits: the bits above `nbits` are zero, and a word with
a bit above bit 31 is no command word (R90: every command is exactly 32 bits). Log entry 14. -/
def decodeTableWord (nbits w : Nat) : Option Instr :=
  if w % 2 ^ nbits < 2 ^ 32 then (decode (BitVec.ofNat 32 (w % 2 ^ nbits))).toOption else none

end Sys2Proof
end

