-- ==== Sys2Proof/Config.lean ====
section
/-! DEFINITION. What is fixed for one engine and is not state (spec R8, R9, R38, R39, R147): the OPEN parameters H128 and
SEED_TABLE, and the choice of the deriver's constants. The engine's own parameters are opaque constants, so every claim
about the engine holds for every instantiation; `Params` lets a claim or a test name one. The third OPEN parameter,
MemAdmit, is plain data of the launch memory and stands in State (R77, log entry 5). -/

namespace Sys2Proof

/-- `DERIVER_CONSTANTS` (R8, R147): the normative literal constants KM = 36/25 and KK = 69/100, or the named
alternative KM = 1/ln 2 and KK = ln 2. -/
inductive DeriverConstants where
  | literal
  | ln2
  deriving DecidableEq, Repr

/-- `SEED_TABLE` (R8, R38, R112, R119): exactly 100 pairwise distinct integers, each from -2^31 to 2^32 - 1. -/
structure SeedTable where
  entries : List Int
  length_eq : entries.length = seedTableLen
  inRange : ∀ c ∈ entries, -2 ^ 31 ≤ c ∧ c ≤ 2 ^ 32 - 1
  distinct : entries.Nodup

/-- The parameters of one engine (R8, R9); `h128` is the hash primitive (R111). Configuration: no command and no reset
changes it (R38, R39). -/
structure Params where
  constants : DeriverConstants
  seedTable : SeedTable
  h128 : List Byte → Word → BitVec 128

/-- A table that meets the constraints of R112 and R119; it only completes `Config.seedTable` below. DESIGN CHOICE,
log entry 8. -/
def SeedTable.someTable : SeedTable where
  entries := (List.range 100).map Int.ofNat
  length_eq := by decide
  inRange := by decide
  distinct := by decide

/-- H128 (R39, R111): OPEN, a total function of the byte string and the seed word. Log entry 7. -/
opaque Config.h128 : List Byte → Word → BitVec 128

/-- The choice of the seed table (R38): OPEN. Log entry 8. -/
opaque Config.seedTableChoice : Option SeedTable

/-- The bit count under `DERIVER_CONSTANTS = LN2` where no bracket of the model decides its ceiling (R147: "a model of
`LN2` takes the function as given"). Free value, log entry 9. The normative configuration never reads it. -/
opaque Config.ln2BitsOpen : Nat → Half → Nat

/-- The probe count under `DERIVER_CONSTANTS = LN2` where no bracket of the model decides its ceiling (R147). Free value,
log entry 9. The normative configuration never reads it. -/
opaque Config.ln2ProbesOpen : Nat → Nat → Nat

/-- SEED_TABLE of the engine (R38): any legal table, nothing more is known of it. -/
def Config.seedTable : SeedTable := Config.seedTableChoice.getD SeedTable.someTable

/-- The engine's parameters: the OPEN ones opaque, the deriver's constants the normative `LITERAL` (R8, R147). -/
def Config.engine : Params where
  constants := .literal
  seedTable := Config.seedTable
  h128 := Config.h128

end Sys2Proof
end

