-- ==== Sys2Proof/Machine/State.lean ====
section
/-! DEFINITION. The state of the engine as plain data (spec R20 to R35, R60, R44), the reasons a step can stop, and the
state after reset. -/

namespace Sys2Proof.Machine

/-- The 19 registers of the window, in slot order (R20). -/
inductive RegName where
  | cmd | status
  | buf0Base | buf0Len | buf1Base | buf1Len | elemBase | elemLen
  | seed | capacity | errorRate | idx
  | m | k | nbytes
  | bitlen | pos
  | hashLo | hashHi
  deriving DecidableEq, Repr

/-- The error codes of R240, code 0 (OK) apart. `wrongType` is reserved for the host's layer: the engine never raises it
(R247). -/
inductive ErrorCode where
  /-- Code 1 (R242). -/
  | invalidArgument
  /-- Code 2, never raised by the engine (R247). -/
  | wrongType
  /-- Code 3 (R243). -/
  | incompatibleParameters
  /-- Code 4 (R244). -/
  | probeTableExhausted
  /-- Code 5 (R245). -/
  | corruptBuffer
  /-- Code 6 (R246). -/
  | badDescriptor
  /-- Code 7 (R248). -/
  | illegalCommand
  deriving DecidableEq, Repr

/-- What the platform is asked to admit at the memory port (R77, D35): a read or a write of one byte. -/
inductive AccessKind where
  | read
  | write
  deriving DecidableEq, Repr

/-- A range of addresses in which the platform refuses one kind of access (R77). -/
structure DeniedRange where
  kind : AccessKind
  base : Nat
  len : Nat
  deriving DecidableEq, Repr

/-- What a command does that another agent or a counter could see: one byte access at the memory port (R72, R76), or one
evaluation of the hash primitive (R300). -/
inductive PortEvent where
  /-- A byte read: address and the byte returned. -/
  | read (a : Nat) (v : Byte)
  /-- A byte write: address and the byte written. -/
  | write (a : Nat) (v : Byte)
  /-- One evaluation of H128 with this seed word (R113). -/
  | hash (seedWord : Word)
  deriving DecidableEq, Repr

/-- One action of the host or the platform (R12, R37, R96, R280, R282). -/
inductive HostAction where
  /-- A host write of the 8-byte slot `slot` of the register window (byte offset 8 x slot); slot 0 is CMD. -/
  | writeSlot (slot : Nat) (v : Word)
  /-- A host read of a slot of the register window. -/
  | readSlot (slot : Nat)
  /-- A host write of one byte of buffer memory. -/
  | writeByte (a : Word) (v : Byte)
  /-- A host read of one byte of buffer memory. -/
  | readByte (a : Word)
  /-- The platform resets the engine between commands (R280). -/
  | reset
  /-- The host writes the word `v` to CMD and the platform resets the engine while the command runs, after `cut` entries of
  its trace, or while it is stuck at a refused access before that; the source leaves the place open, so it is an input
  (R282, U8, U10, log entry 15). -/
  | resetDuring (v : Word) (cut : Nat)
  deriving DecidableEq, Repr

/-- Buffer memory: address and byte pairs in the canonical form `Memory.wf` of Machine/Ops.lean. -/
abbrev Memory := List Host.Cell

/-- The machine. The first nineteen fields are the registers of R20, `mem` is buffer memory (R60), `denied`
its access map (MemAdmit, R77); the last three are the model's own (log entries 1, 2, 3). -/
structure State where
  /-- `CMD` (R23). -/
  cmd : Half
  /-- `STATUS` (R24). -/
  status : Half
  /-- `BUF0_BASE` (R25). -/
  buf0Base : Word
  /-- `BUF0_LEN` (R25). -/
  buf0Len : Word
  /-- `BUF1_BASE` (R25). -/
  buf1Base : Word
  /-- `BUF1_LEN` (R25). -/
  buf1Len : Word
  /-- `ELEM_BASE` (R25). -/
  elemBase : Word
  /-- `ELEM_LEN` (R25). -/
  elemLen : Word
  /-- `SEED` (R26). -/
  seed : Word
  /-- `CAPACITY` (R27). -/
  capacity : Word
  /-- `ERROR_RATE` (R28). -/
  errorRate : Half
  /-- `IDX` (R29). -/
  idx : Half
  /-- `M` (R31). -/
  m : Word
  /-- `K` (R32). -/
  k : Word
  /-- `NBYTES` (R33). -/
  nbytes : Word
  /-- `BITLEN` (R34). -/
  bitlen : Word
  /-- `POS` (R34). -/
  pos : Word
  /-- `HASH_LO` (R35). -/
  hashLo : Word
  /-- `HASH_HI` (R35). -/
  hashHi : Word
  /-- Buffer memory (R60). -/
  mem : Memory
  /-- MemAdmit of the launch memory: what the platform refuses; no step changes it (R77, log entry 5). -/
  denied : List DeniedRange
  /-- The host's actions still to come, oldest first (log entry 1). -/
  hostQueue : List HostAction
  /-- What the host's last read returned (log entry 2). -/
  hostRead : Word
  /-- The accesses and hash evaluations of the last command, oldest first (log entry 3). -/
  trace : List PortEvent
  deriving DecidableEq, Repr

/-- Why the machine has no next state. -/
inductive Fault where
  /-- Raised by a byte access the platform refuses: "the engine has no step" (R77, R265, U8). Safe: the model stops where
  the spec says the engine is stuck. Log entry 5. -/
  | portRefused (kind : AccessKind) (a : Nat)
  /-- Raised by a byte access at an address of 2^64 or above, which does not exist (R60). No command forms one (R62).
  Safe. Log entry 6. -/
  | outsideAddressSpace (kind : AccessKind) (a : Nat)
  deriving DecidableEq, Repr

/-- Why an instruction is refused. -/
inductive Refusal where
  /-- Raised by an arm of `exec` whose instruction has no meaning yet; safe. No arm of this model raises it. -/
  | notModelled (mnemonic : String)
  deriving DecidableEq, Repr

/-- The machine right after reset: every register 0 (R44, R280), nothing listed in memory and nothing refused
(log entries 4, 5), no host action pending (log entry 1). -/
def State.reset : State where
  cmd := 0#32
  status := 0#32
  buf0Base := 0#64
  buf0Len := 0#64
  buf1Base := 0#64
  buf1Len := 0#64
  elemBase := 0#64
  elemLen := 0#64
  seed := 0#64
  capacity := 0#64
  errorRate := 0#32
  idx := 0#32
  m := 0#64
  k := 0#64
  nbytes := 0#64
  bitlen := 0#64
  pos := 0#64
  hashLo := 0#64
  hashHi := 0#64
  mem := []
  denied := []
  hostQueue := []
  hostRead := 0#64
  trace := []

end Sys2Proof.Machine
end

