-- ==== Sys2Proof/Machine/Flags.lean ====
section
/-! DEFINITION. The two status indications, STATUS.CODE and STATUS.RESULT: the codes, the whole STATUS word of each
ending, and the accessors of its fields (spec R24, R40, R240, R249 to R251). -/

namespace Sys2Proof.Machine

/-- The 4-bit number of each error code (R240). -/
def ErrorCode.number : ErrorCode → BitVec 4
  | .invalidArgument => 1#4
  | .wrongType => 2#4
  | .incompatibleParameters => 3#4
  | .probeTableExhausted => 4#4
  | .corruptBuffer => 5#4
  | .badDescriptor => 6#4
  | .illegalCommand => 7#4

/-- STATUS after `raise c`: CODE = the number of `c`, RESULT and every other bit 0 (R249, R250). -/
def statusOfError (c : ErrorCode) : Half := c.number.setWidth 32

/-- STATUS after `done r`: CODE = 0, RESULT (bit 8) = `r`, every other bit 0 (R251). -/
def statusOfResult (r : Bool) : Half := (BitVec.ofBool r).setWidth 32 <<< 8

/-- `STATUS.CODE`, bits 3:0 (R24). -/
def State.code (s : State) : BitVec 4 := s.status.extractLsb' 0 4

/-- `STATUS.RESULT`, bit 8 (R24). -/
def State.result (s : State) : Bool := s.status.getLsbD 8

end Sys2Proof.Machine
end

