-- ==== Sys2Proof/Machine/Ops.lean ====
section
/-! DEFINITION. The named operations over memory and registers: buffer memory as a canonical list (spec R60, R74), the
engine's memory port with its trace (R72, R76, R77), byte strings (R11, R65, R117), and the two ways a command ends,
`raise` and `done` (R250, R251). -/

namespace Sys2Proof.Machine

/-- What a byte of buffer memory that nothing has written reads as. DESIGN CHOICE, log entry 4. -/
def unlistedByte : Byte := 0x00#8

/-- The byte at address `a` (R74). -/
def Memory.read : Memory → Nat → Byte
  | [], _ => unlistedByte
  | (k, v) :: rest, a => if k = a then v else Memory.read rest a

/-- Stores `v` at address `a` and keeps the canonical form: a byte equal to `unlistedByte` is not listed (R74). -/
def Memory.write : Memory → Nat → Byte → Memory
  | [], a, v => if v = unlistedByte then [] else [(a, v)]
  | (k, w) :: rest, a, v =>
    if a < k then (if v = unlistedByte then (k, w) :: rest else (a, v) :: (k, w) :: rest)
    else if a = k then (if v = unlistedByte then rest else (a, v) :: rest)
    else (k, w) :: Memory.write rest a v

/-- The canonical form from address `lo` on: addresses strictly rising, inside the address space, no unlisted byte. -/
def Memory.wfFrom : Nat → Memory → Bool
  | _, [] => true
  | lo, (k, v) :: rest => decide (lo ≤ k) && decide (k < addressSpace) && decide (v ≠ unlistedByte) && Memory.wfFrom (k + 1) rest

/-- The canonical form of buffer memory: equal contents are equal lists. -/
def Memory.wf (mem : Memory) : Bool := Memory.wfFrom 0 mem

/-- The memory after the writes of a trace, in order (R78). -/
def Memory.apply : Memory → List PortEvent → Memory
  | mem, [] => mem
  | mem, .read _ _ :: more => Memory.apply mem more
  | mem, .write a v :: more => Memory.apply (Memory.write mem a v) more
  | mem, .hash _ :: more => Memory.apply mem more

/-- Adds one event at the end of the trace (log entry 3). -/
def State.log (s : State) (e : PortEvent) : State := { s with trace := s.trace ++ [e] }

/-- Stores one byte of memory. -/
def State.store (s : State) (a : Nat) (v : Byte) : State := { s with mem := Memory.write s.mem a v }

/-- A command body: it ends in a state, or the memory port gives the engine no step (R77). -/
abbrev Run := Except Fault State

/-- The outcome of a command body. -/
def finish : Run → Host.Outcome State Fault Refusal
  | .ok s => .next s
  | .error f => .fault f

/-- `MemAdmit(a, kind)`: the platform admits this access of the engine's port (R77, D35). -/
def State.admits (s : State) (kind : AccessKind) (a : Nat) : Bool :=
  !s.denied.any fun r => r.kind == kind && decide (r.base ≤ a) && decide (a < r.base + r.len)

/-- The platform admits this entry of a trace; a hash evaluation is no access. -/
def State.admitsEvent (s : State) : PortEvent → Bool
  | .read a _ => s.admits .read a
  | .write a _ => s.admits .write a
  | .hash _ => true

/-- The platform's answer to one access: admitted, or the reason the engine has no step (R77, R265). -/
def portCheck (kind : AccessKind) (a : Nat) (s : State) : Except Fault Unit :=
  if addressSpace ≤ a then .error (.outsideAddressSpace kind a)
  else if s.admits kind a then .ok ()
  else .error (.portRefused kind a)

/-- `MemRead(a, 1)` (R11, R72). -/
def portRead (a : Nat) (s : State) : Except Fault (Byte × State) := do
  portCheck .read a s
  pure (Memory.read s.mem a, s.log (.read a (Memory.read s.mem a)))

/-- `MemWrite(a, 1, v)` (R11, R72). -/
def portWrite (a : Nat) (v : Byte) (s : State) : Run := do
  portCheck .write a s
  pure ((s.store a v).log (.write a v))

/-- `MemRead(a, n)`: `n` byte reads at `a`, `a+1`, ... in ascending order (R11, R65, R117). -/
def readBytes : Nat → Nat → State → Except Fault (List Byte × State)
  | 0, _, s => pure ([], s)
  | n + 1, a, s => do
    let (b, s1) ← portRead a s
    let (bs, s2) ← readBytes n (a + 1) s1
    pure (b :: bs, s2)

/-- Byte writes of a byte string at `a`, `a+1`, ... in ascending order (R200). -/
def writeBytes : List Byte → Nat → State → Run
  | [], _, s => pure s
  | b :: bs, a, s => do
    let s1 ← portWrite a b s
    writeBytes bs (a + 1) s1

/-- The number a byte string denotes, lowest address least significant (`le_N`, R67). -/
def leNat : List Byte → Nat
  | [] => 0
  | b :: bs => b.toNat + 256 * leNat bs

/-- The `n` bytes of a number, lowest address least significant (R67, R200). -/
def leBytes : Nat → Nat → List Byte
  | 0, _ => []
  | n + 1, v => BitVec.ofNat 8 (v % 256) :: leBytes n (v / 256)

/-- `raise c`, the whole of taking an error: STATUS takes the code, no other register and no byte of memory is written,
and control is with the host (R250, R256). There is no return operation: the next command may be issued at once (R257). -/
def raise (c : ErrorCode) (s : State) : State := { s with status := statusOfError c }

/-- `done(r)`: STATUS takes code OK and the result bit (R251). -/
def done (r : Bool) (s : State) : State := { s with status := statusOfResult r }

end Sys2Proof.Machine
end

