-- ==== Sys2Proof/Machine/Operands.lean ====
section
/-! DEFINITION. The operand forms: descriptors and their checks (spec R25, R62, R216), the filter header (R64, R65, R67),
the element (R117, R196), and a bit of a bit array (R68, R170, R171). All address arithmetic is over unbounded numbers (R11). -/

namespace Sys2Proof.Machine

/-- A descriptor: the byte range [base, base + len) (R62). -/
structure Descriptor where
  base : Nat
  len : Nat
  deriving DecidableEq, Repr

/-- The `BUF0` descriptor (R25). -/
def State.buf0 (s : State) : Descriptor := ⟨s.buf0Base.toNat, s.buf0Len.toNat⟩

/-- The `BUF1` descriptor (R25). -/
def State.buf1 (s : State) : Descriptor := ⟨s.buf1Base.toNat, s.buf1Len.toNat⟩

/-- The `ELEM` descriptor (R25). -/
def State.elem (s : State) : Descriptor := ⟨s.elemBase.toNat, s.elemLen.toNat⟩

/-- The range does not wrap past the top of the address space (R62). -/
def Descriptor.wellFormed (d : Descriptor) : Bool := decide (d.base + d.len ≤ addressSpace)

/-- Two ranges overlap (R216). -/
def Descriptor.overlaps (d e : Descriptor) : Bool :=
  decide (0 < d.len ∧ 0 < e.len ∧ d.base < e.base + e.len ∧ e.base < d.base + d.len)

/-- The descriptor check of MERGE on two well-formed ranges: they overlap without being identical (R216). -/
def Descriptor.partlyOverlaps (d e : Descriptor) : Bool := d.overlaps e && decide (d ≠ e)

/-- The three header fields as they stand in memory (R64). -/
structure Header where
  seed : Word
  errorRate : Half
  capacity : Word
  deriving DecidableEq, Repr

/-- The header a string of 20 bytes denotes: seed at 0 to 7, error rate at 8 to 11, capacity at 12 to 19, each little-endian
(R64, R65, R67). -/
def headerOf (bs : List Byte) : Header where
  seed := BitVec.ofNat 64 (leNat (bs.take 8))
  errorRate := BitVec.ofNat 32 (leNat ((bs.drop 8).take 4))
  capacity := BitVec.ofNat 64 (leNat ((bs.drop 12).take 8))

/-- The 20 bytes of a header, in the order INIT writes them (R64, R200). -/
def Header.bytes (h : Header) : List Byte :=
  leBytes 8 h.seed.toNat ++ leBytes 4 h.errorRate.toNat ++ leBytes 8 h.capacity.toNat

/-- `LoadHeader(B)`: 20 byte reads, ascending (R65). -/
def loadHeader (base : Nat) (s : State) : Except Fault (Header × State) := do
  let (bs, s1) ← readBytes headerBytes base s
  pure (headerOf bs, s1)

/-- `ReadElement()`: the bytes of the `ELEM` range, ascending; an empty range reads nothing (R117, R196). -/
def readElement (s : State) : Except Fault (List Byte × State) := readBytes s.elem.len s.elem.base s

/-- `Fold(pos, bitLength)` (R170). -/
def fold (pos : Word) (bitLength : Nat) : Nat := pos.toNat % bitLength

/-- The address of the byte that holds bit `q` of the bit array at address `arr` (R68, R171). -/
def bitAddress (arr q : Nat) : Nat := arr + q / 8

/-- The mask of bit `q` in its byte (R68, R171). -/
def bitMask (q : Nat) : Byte := 1#8 <<< (q % 8)

/-- Bit `q mod 8` of a byte (R68, R175). -/
def bitOf (b : Byte) (q : Nat) : Bool := (b >>> (q % 8)) &&& 1#8 == 1#8

end Sys2Proof.Machine
end

