-- ==== Sys2Proof/Machine/Codec.lean ====
section
/-! DEFINITION. The bit array codec: `SetBit` and `TestBit` (spec R170 to R172, R175) and the commands SETBIT and TESTBIT
(R173, R174, R176). -/

namespace Sys2Proof.Machine

/-- `SetBit(A, bitLength, pos)`: one byte read, then one byte write to the same address, always both (R172). -/
def setBit (arr bitLength : Nat) (pos : Word) (s : State) : Run := do
  let (old, s1) ← portRead (bitAddress arr (fold pos bitLength)) s
  portWrite (bitAddress arr (fold pos bitLength)) (old ||| bitMask (fold pos bitLength)) s1

/-- `TestBit(A, bitLength, pos)`: one byte read, no write (R175). -/
def testBit (arr bitLength : Nat) (pos : Word) (s : State) : Except Fault (Bool × State) := do
  let (b, s1) ← portRead (bitAddress arr (fold pos bitLength)) s
  pure (bitOf b (fold pos bitLength), s1)

/-- The three checks of SETBIT and TESTBIT, in their order, before any access (R173). -/
def bareArrayError (s : State) : Option ErrorCode :=
  if !s.buf0.wellFormed then some .badDescriptor
  else if s.bitlen.toNat = 0 then some .invalidArgument
  else if 8 * s.buf0.len < s.bitlen.toNat then some .badDescriptor
  else none

/-- SETBIT (R174). -/
def setbitCommand (s : State) : Run :=
  match bareArrayError s with
  | some c => pure (raise c s)
  | none => do
    let s1 ← setBit s.buf0.base s.bitlen.toNat s.pos s
    pure (done false s1)

/-- TESTBIT (R176). -/
def testbitCommand (s : State) : Run :=
  match bareArrayError s with
  | some c => pure (raise c s)
  | none => do
    let (r, s1) ← testBit s.buf0.base s.bitlen.toNat s.pos s
    pure (done r s1)

/-- The meaning of SETBIT (R174). -/
def execSetbit (s : State) : Host.Outcome State Fault Refusal := finish (setbitCommand s)

/-- The meaning of TESTBIT (R176). -/
def execTestbit (s : State) : Host.Outcome State Fault Refusal := finish (testbitCommand s)

end Sys2Proof.Machine
end

