-- ==== Sys2Proof/Machine/Deriver.lean ====
section
/-! DEFINITION. The parameter deriver: binary32 patterns (spec R131, R132), `OptimalBits` and `OptimalProbes` in exact
arithmetic under both constant configurations (R133 to R137, R147), `Derive` (R138), and the commands OPTBITS, OPTPROBES
and DERIVE (R140 to R142). -/

namespace Sys2Proof.Machine

/-! ## The error rate as a number -/

/-- A binary32 datum (R131). `finite neg sig exp` is (-1)^neg x sig x 2^exp with sig > 0. -/
inductive Float32Value where
  | zero (neg : Bool)
  | finite (neg : Bool) (sig : Nat) (exp : Int)
  | infinite (neg : Bool)
  | nan
  deriving DecidableEq, Repr

/-- `f32val(b)`: S = b[31], E = b[30:23], F = b[22:0] (R131). -/
def f32val (b : Half) : Float32Value :=
  let sign := b.getLsbD 31
  let expo := (b.extractLsb' 23 8).toNat
  let frac := (b.extractLsb' 0 23).toNat
  if expo = 0 then (if frac = 0 then .zero sign else .finite sign frac (-149))
  else if expo = 255 then (if frac = 0 then .infinite sign else .nan)
  else .finite sign (2 ^ 23 + frac) ((expo : Int) - 150)

/-- A legal error rate, 0 < f32val(b) < 1: the patterns 0x00000001 to 0x3F7FFFFF (R132). -/
def legalErrorRate (b : Half) : Bool := decide (0x00000001 ≤ b.toNat ∧ b.toNat ≤ 0x3F7FFFFF)

/-- The significand of a pattern: f32val(b) = significand x 2^-scale for a legal error rate (R131). -/
def significand (b : Half) : Nat :=
  match f32val b with
  | .finite _ sig _ => sig
  | _ => 0

/-- The scale of a pattern: f32val(b) = significand x 2^-scale for a legal error rate (R131). -/
def scale (b : Half) : Nat :=
  match f32val b with
  | .finite _ _ exp => (-exp).toNat
  | _ => 0

/-! ## Brackets of the base-2 logarithm

`log2(1/p) = scale - log2(significand)`. If the significand is a power of two the value is an integer; else it is
irrational and an implementation "computes log2 to growing precision until the enclosing interval holds no integer" (R134).
The brackets below come from `steps` squarings: `significand^(2^steps)` is kept between a rounded-down and a rounded-up
number of `width` bits times a power of two. -/

/-- ceil(a / b) for b > 0 (R10). -/
def ceilDiv (a b : Nat) : Nat := (a + b - 1) / b

/-- `steps` squarings of x x 2^e, each rounded down to `width` bits. -/
def squareDown (width : Nat) : Nat → Nat → Nat → Nat × Nat
  | 0, x, e => (x, e)
  | steps + 1, x, e =>
    squareDown width steps ((x * x) >>> ((x * x).log2 + 1 - width)) (2 * e + ((x * x).log2 + 1 - width))

/-- `steps` squarings of x x 2^e, each rounded up to `width` bits. -/
def squareUp (width : Nat) : Nat → Nat → Nat → Nat × Nat
  | 0, x, e => (x, e)
  | steps + 1, x, e =>
    squareUp width steps (ceilDiv (x * x) (2 ^ ((x * x).log2 + 1 - width))) (2 * e + ((x * x).log2 + 1 - width))

/-- The extra bits kept beyond the number of squarings. -/
def guardBits : Nat := 32

/-- A lower bound of 2^steps x log2(sig). -/
def log2Below (steps sig : Nat) : Nat :=
  let r := squareDown (steps + guardBits) steps sig 0
  r.2 + r.1.log2

/-- An upper bound of 2^steps x log2(sig). -/
def log2Above (steps sig : Nat) : Nat :=
  let r := squareUp (steps + guardBits) steps sig 0
  r.2 + r.1.log2 + 1

/-- `sig` is a power of two (the case a = 1 of R134). -/
def isPowerOfTwo (sig : Nat) : Bool := sig == 2 ^ sig.log2

/-- A lower bound of 2^steps x log2(1/p), p = sig x 2^-scale; exact if sig is a power of two (R134). -/
def rateLogBelow (steps sig scale : Nat) : Nat :=
  if isPowerOfTwo sig then (scale - sig.log2) * 2 ^ steps else scale * 2 ^ steps - log2Above steps sig

/-- An upper bound of 2^steps x log2(1/p), p = sig x 2^-scale; exact if sig is a power of two (R134). -/
def rateLogAbove (steps sig scale : Nat) : Nat :=
  if isPowerOfTwo sig then (scale - sig.log2) * 2 ^ steps else scale * 2 ^ steps - log2Below steps sig

/-- The precisions tried in turn (R134: "growing precision"). -/
def precisions : List Nat := [96, 192, 384]

/-! ## The literal constants, KM = 36/25 and KK = 69/100 -/

/-- `m` bits are enough: m >= (36/25) x n x log2(1/p), written without a logarithm as
2^(36 n scale) <= sig^(36 n) x 2^(25 m). -/
def enoughBits (n sig scale m : Nat) : Bool := decide (2 ^ (36 * n * scale) ≤ sig ^ (36 * n) * 2 ^ (25 * m))

/-- The least number from `m` on that passes `test`, looking at `fuel` numbers. -/
def leastFrom (test : Nat → Bool) : Nat → Nat → Nat
  | 0, m => m
  | fuel + 1, m => if test m then m else leastFrom test fuel (m + 1)

/-- ceil((36/25) x n x log2(1/p)): the first precision whose bracket holds one ceiling decides it; if none does, exact
integer comparison does (R133, R134). DEDUCED, log entry 16. -/
def optimalBitsAt (n sig scale : Nat) : List Nat → Nat
  | [] => leastFrom (enoughBits n sig scale) (36 * n * scale) 0
  | steps :: more =>
    if ceilDiv (36 * n * rateLogBelow steps sig scale) (25 * 2 ^ steps) =
        ceilDiv (36 * n * rateLogAbove steps sig scale) (25 * 2 ^ steps) then
      ceilDiv (36 * n * rateLogAbove steps sig scale) (25 * 2 ^ steps)
    else optimalBitsAt n sig scale more

/-- `OptimalBits(n, b)` under `LITERAL` (R133). -/
def optimalBitsLiteral (n : Nat) (b : Half) : Nat := optimalBitsAt n (significand b) (scale b) precisions

/-- `OptimalProbes(m, n)` under `LITERAL`: (69 m + 100 n - 1) div (100 n) (R136). -/
def optimalProbesLiteral (m n : Nat) : Nat := (69 * m + 100 * n - 1) / (100 * n)

/-! ## The alternative constants, KM = 1/ln 2 and KK = ln 2 (R147) -/

/-- The sum over i = 1 to `terms` of floor(2^width / (i 2^i)), the rounded-down series of 2^width x ln 2. -/
def lnTwoSum (width : Nat) : Nat → Nat
  | 0 => 0
  | i + 1 => lnTwoSum width i + 2 ^ width / ((i + 1) * 2 ^ (i + 1))

/-- A lower bound of 2^width x ln 2. -/
def lnTwoBelow (width : Nat) : Nat := lnTwoSum width width

/-- An upper bound of 2^width x ln 2: each of the `width` terms lost less than 1, the tail is less than 1. -/
def lnTwoAbove (width : Nat) : Nat := lnTwoBelow width + width + 1

/-- ceil(n x log2(1/p) / ln 2) where a bracket decides it (R147), else the value left open (log entry 9). -/
def optimalBitsLn2At (n : Nat) (b : Half) : List Nat → Nat
  | [] => Config.ln2BitsOpen n b
  | steps :: more =>
    if ceilDiv (n * rateLogBelow steps (significand b) (scale b)) (lnTwoAbove steps) =
        ceilDiv (n * rateLogAbove steps (significand b) (scale b)) (lnTwoBelow steps) then
      ceilDiv (n * rateLogAbove steps (significand b) (scale b)) (lnTwoBelow steps)
    else optimalBitsLn2At n b more

/-- ceil(ln 2 x m / n) where a bracket decides it (R147), else the value left open (log entry 9). -/
def optimalProbesLn2At (m n : Nat) : List Nat → Nat
  | [] => Config.ln2ProbesOpen m n
  | width :: more =>
    if ceilDiv (lnTwoBelow width * m) (2 ^ width * n) = ceilDiv (lnTwoAbove width * m) (2 ^ width * n) then
      ceilDiv (lnTwoAbove width * m) (2 ^ width * n)
    else optimalProbesLn2At m n more

/-! ## The two functions and their composition -/

/-- `OptimalBits(n, b)` for n >= 1 and a legal error rate (R133, R147). -/
def optimalBits (constants : DeriverConstants) (n : Nat) (b : Half) : Nat :=
  match constants with
  | .literal => optimalBitsLiteral n b
  | .ln2 => optimalBitsLn2At n b precisions

/-- `OptimalProbes(m, n)` for m >= 1 and n >= 1 (R136, R147). -/
def optimalProbes (constants : DeriverConstants) (m n : Nat) : Nat :=
  match constants with
  | .literal => optimalProbesLiteral m n
  | .ln2 => optimalProbesLn2At m n precisions

/-- The bit count where the arguments are in the deriver's domain (R138, R139): n >= 1, a legal error rate, and no more
than M_MAX bits (R135); none is `Invalid`. -/
def deriveBits (constants : DeriverConstants) (n : Nat) (b : Half) : Option Nat :=
  if n = 0 then none
  else if !legalErrorRate b then none
  else if maxBits < optimalBits constants n b then none
  else some (optimalBits constants n b)

/-- `Derive(n, b)`: the bit count and the probe count, none is `Invalid` (R138). -/
def derive (constants : DeriverConstants) (n : Nat) (b : Half) : Option (Nat × Nat) :=
  match deriveBits constants n b with
  | none => none
  | some m => some (m, optimalProbes constants m n)

/-- The byte length of the bit array of a filter of `m` bits (R143). -/
def arrayBytes (m : Nat) : Nat := (m + 7) / 8

/-! ## The commands -/

/-- OPTBITS (R140). -/
def optbitsCommand (P : Params) (s : State) : State :=
  match deriveBits P.constants s.capacity.toNat s.errorRate with
  | none => raise .invalidArgument s
  | some m => done false { s with m := BitVec.ofNat 64 m }

/-- OPTPROBES (R141). -/
def optprobesCommand (P : Params) (s : State) : State :=
  if s.capacity.toNat = 0 ∨ s.m.toNat = 0 then raise .invalidArgument s
  else done false { s with k := BitVec.ofNat 64 (optimalProbes P.constants s.m.toNat s.capacity.toNat) }

/-- DERIVE (R142). -/
def deriveCommand (P : Params) (s : State) : State :=
  match derive P.constants s.capacity.toNat s.errorRate with
  | none => raise .invalidArgument s
  | some (m, k) =>
    if seedTableLen < k then raise .probeTableExhausted s
    else done false { s with
      m := BitVec.ofNat 64 m, k := BitVec.ofNat 64 k, nbytes := BitVec.ofNat 64 (headerBytes + arrayBytes m) }

/-- The meaning of OPTBITS (R140). -/
def execOptbits (s : State) : Host.Outcome State Fault Refusal := .next (optbitsCommand Config.engine s)

/-- The meaning of OPTPROBES (R141). -/
def execOptprobes (s : State) : Host.Outcome State Fault Refusal := .next (optprobesCommand Config.engine s)

/-- The meaning of DERIVE (R142). -/
def execDerive (s : State) : Host.Outcome State Fault Refusal := .next (deriveCommand Config.engine s)

end Sys2Proof.Machine
end

