-- ==== Sys2Proof/Machine/HashFamily.lean ====
section
/-! DEFINITION. The hash family, one member per seed-table entry (spec R110 to R115), and the command PROBE (R116). The
probe loops of Filter.lean walk the list of table entries itself, so no entry beyond the table is ever named (R115). -/

namespace Sys2Proof.Machine

/-- `SeedWord(i, seed) = (SEED_TABLE[i] + seed) mod 2^64`, `entry` being SEED_TABLE[i] (R113). -/
def seedWord (entry : Int) (seed : Word) : Word := BitVec.ofInt 64 (entry + seed.toNat)

/-- `ProbeHash(e, i, seed)`, one evaluation of H128 (R113, R114); the evaluation is traced (R300). -/
def probeHash (P : Params) (e : List Byte) (entry : Int) (seed : Word) (s : State) : BitVec 128 × State :=
  (P.h128 e (seedWord entry seed), s.log (.hash (seedWord entry seed)))

/-- The low 64 bits of a hash value, `out[0]`, the unsigned probe position (R114). -/
def lowHalf (out : BitVec 128) : Word := out.extractLsb' 0 64

/-- The high 64 bits of a hash value, `out[1]` (R35, R111). -/
def highHalf (out : BitVec 128) : Word := out.extractLsb' 64 64

/-- `ProbePos(e, i, seed)` (R114). -/
def probePos (P : Params) (e : List Byte) (entry : Int) (seed : Word) : Word := lowHalf (P.h128 e (seedWord entry seed))

/-- `SEED_TABLE[i]` for `i < 100`; never asked for any other index (R112, R115). -/
def seedEntry (P : Params) (i : Nat) : Int := P.seedTable.entries.getD i 0

/-- PROBE (R116). -/
def probeCommand (P : Params) (s : State) : Run :=
  if !s.elem.wellFormed then pure (raise .badDescriptor s)
  else if seedTableLen ≤ s.idx.toNat then pure (raise .probeTableExhausted s)
  else do
    let (e, s1) ← readElement s
    let (out, s2) := probeHash P e (seedEntry P s1.idx.toNat) s1.seed s1
    pure (done false { s2 with hashLo := lowHalf out, hashHi := highHalf out })

/-- The meaning of PROBE (R116). -/
def execProbe (s : State) : Host.Outcome State Fault Refusal := finish (probeCommand Config.engine s)

end Sys2Proof.Machine
end

