-- ==== Sys2Proof/Machine/Filter.lean ====
section
/-! DEFINITION. The filter engine: `ValidateFilter` (spec R193, R195), the probe loops (R205), and the commands NOP (R190),
INIT (R200), ADD (R206), TEST (R210) and MERGE (R216 to R218, R220). -/

namespace Sys2Proof.Machine

/-- What `ValidateFilter` returns for a valid filter (R193). -/
structure Filter where
  header : Header
  /-- `m = OptimalBits(n, b)`. -/
  bits : Nat
  /-- `k = OptimalProbes(m, n)`. -/
  probes : Nat
  /-- `L`, the byte length of the bit array. -/
  arrayLen : Nat
  deriving DecidableEq, Repr

/-- The checks of `ValidateFilter` on a loaded header and a total length of at least 20, in their order (R193, R195). -/
def judgeFilter (constants : DeriverConstants) (h : Header) (total : Nat) : Except ErrorCode Filter :=
  match derive constants h.capacity.toNat h.errorRate with
  | none => .error .corruptBuffer
  | some (m, k) =>
    if total - headerBytes ≠ arrayBytes m then .error .corruptBuffer
    else if seedTableLen < k then .error .probeTableExhausted
    else .ok ⟨h, m, k, total - headerBytes⟩

/-- `ValidateFilter(B, T)`: no room for a header is CorruptBuffer without a read, else the header is loaded and judged
(R193). -/
def validateFilter (P : Params) (d : Descriptor) (s : State) : Except Fault (Except ErrorCode Filter × State) :=
  if d.len < headerBytes then pure (.error .corruptBuffer, s)
  else do
    let (h, s1) ← loadHeader d.base s
    pure (judgeFilter P.constants h d.len, s1)

/-- The modulus every probe position of ADD and TEST is folded by, 8 x L (R69, R204). -/
def Filter.bitLength (f : Filter) : Nat := 8 * f.arrayLen

/-- The seed-table entries of the probes 0, 1, ..., k - 1, in ascending order (R205). -/
def probeEntries (P : Params) (f : Filter) : List Int := P.seedTable.entries.take f.probes

/-- The probe loop of ADD (R205, R206). -/
def addProbes (P : Params) (e : List Byte) (seed : Word) (arr bitLength : Nat) : List Int → State → Run
  | [], s => pure s
  | entry :: more, s => do
    let (out, s1) := probeHash P e entry seed s
    let s2 ← setBit arr bitLength (lowHalf out) s1
    addProbes P e seed arr bitLength more s2

/-- The probe loop of TEST: it ends at the first clear bit (R205, R210). -/
def testProbes (P : Params) (e : List Byte) (seed : Word) (arr bitLength : Nat) :
    List Int → State → Except Fault (Bool × State)
  | [], s => pure (true, s)
  | entry :: more, s => do
    let (out, s1) := probeHash P e entry seed s
    let (b, s2) ← testBit arr bitLength (lowHalf out) s1
    if b then testProbes P e seed arr bitLength more s2 else pure (false, s2)

/-- The byte loop of MERGE: source byte read, destination byte read, their OR written, in ascending order (R218, R220). -/
def mergeBytes : Nat → Nat → Nat → State → Run
  | 0, _, _, s => pure s
  | n + 1, src, dst, s => do
    let (x, s1) ← portRead src s
    let (d, s2) ← portRead dst s1
    let s3 ← portWrite dst (d ||| x) s2
    mergeBytes n (src + 1) (dst + 1) s3

/-- NOP (R190). -/
def nopCommand (s : State) : State := done false s

/-- The checks of INIT in their order, giving the byte length of the bit array (R200). -/
def initCheck (P : Params) (s : State) : Except ErrorCode Nat :=
  if !s.buf0.wellFormed then .error .badDescriptor
  else match derive P.constants s.capacity.toNat s.errorRate with
    | none => .error .invalidArgument
    | some (m, k) =>
      if seedTableLen < k then .error .probeTableExhausted
      else if s.buf0.len ≠ headerBytes + arrayBytes m then .error .corruptBuffer
      else .ok (arrayBytes m)

/-- The header INIT writes: the register values bit for bit (R65, R200). -/
def State.newHeader (s : State) : Header := ⟨s.seed, s.errorRate, s.capacity⟩

/-- INIT (R200). -/
def initCommand (P : Params) (s : State) : Run :=
  match initCheck P s with
  | .error c => pure (raise c s)
  | .ok arrayLen => do
    let s1 ← writeBytes s.newHeader.bytes s.buf0.base s
    let s2 ← writeBytes (List.replicate arrayLen 0x00#8) (s.buf0.base + headerBytes) s1
    pure (done false s2)

/-- ADD (R206). -/
def addCommand (P : Params) (s : State) : Run :=
  if !s.buf0.wellFormed then pure (raise .badDescriptor s)
  else if !s.elem.wellFormed then pure (raise .badDescriptor s)
  else do
    let (v, s1) ← validateFilter P s.buf0 s
    match v with
    | .error c => pure (raise c s1)
    | .ok f =>
      let (e, s2) ← readElement s1
      let s3 ← addProbes P e f.header.seed (s.buf0.base + headerBytes) f.bitLength (probeEntries P f) s2
      pure (done false s3)

/-- TEST (R210). -/
def testCommand (P : Params) (s : State) : Run :=
  if !s.buf0.wellFormed then pure (raise .badDescriptor s)
  else if !s.elem.wellFormed then pure (raise .badDescriptor s)
  else do
    let (v, s1) ← validateFilter P s.buf0 s
    match v with
    | .error c => pure (raise c s1)
    | .ok f =>
      let (e, s2) ← readElement s1
      let (r, s3) ← testProbes P e f.header.seed (s.buf0.base + headerBytes) f.bitLength (probeEntries P f) s2
      pure (done r s3)

/-- Two valid filters are compatible: equal bit-array byte lengths, seeds, capacities and error-rate patterns (R217). -/
def Filter.compatible (f g : Filter) : Bool :=
  f.arrayLen == g.arrayLen && f.header.seed == g.header.seed && f.header.capacity == g.header.capacity &&
    f.header.errorRate == g.header.errorRate

/-- MERGE (R218). -/
def mergeCommand (P : Params) (s : State) : Run :=
  if !s.buf0.wellFormed || !s.buf1.wellFormed then pure (raise .badDescriptor s)
  else if s.buf0.partlyOverlaps s.buf1 then pure (raise .badDescriptor s)
  else do
    let (v0, s1) ← validateFilter P s.buf0 s
    match v0 with
    | .error c => pure (raise c s1)
    | .ok f0 =>
      let (v1, s2) ← validateFilter P s.buf1 s1
      match v1 with
      | .error c => pure (raise c s2)
      | .ok f1 =>
        if !f0.compatible f1 then pure (raise .incompatibleParameters s2)
        else
          let s3 ← mergeBytes f0.arrayLen (s.buf1.base + headerBytes) (s.buf0.base + headerBytes) s2
          pure (done false s3)

/-- The meaning of NOP (R190). -/
def execNop (s : State) : Host.Outcome State Fault Refusal := .next (nopCommand s)

/-- The meaning of INIT (R200). -/
def execInit (s : State) : Host.Outcome State Fault Refusal := finish (initCommand Config.engine s)

/-- The meaning of ADD (R206). -/
def execAdd (s : State) : Host.Outcome State Fault Refusal := finish (addCommand Config.engine s)

/-- The meaning of TEST (R210). -/
def execTest (s : State) : Host.Outcome State Fault Refusal := finish (testCommand Config.engine s)

/-- The meaning of MERGE (R218). -/
def execMerge (s : State) : Host.Outcome State Fault Refusal := finish (mergeCommand Config.engine s)

end Sys2Proof.Machine
end

