-- ==== Sys2Proof/Machine/Dispatch.lean ====
section
/-! DEFINITION. One arm per command of spec R92, each a call of its meaning. -/

namespace Sys2Proof.Machine

def exec (i : Instr) (s : State) : Host.Outcome State Fault Refusal :=
  match i with
  | .nop => Sys2Proof.Machine.execNop s
  | .optbits => Sys2Proof.Machine.execOptbits s
  | .optprobes => Sys2Proof.Machine.execOptprobes s
  | .derive => Sys2Proof.Machine.execDerive s
  | .probe => Sys2Proof.Machine.execProbe s
  | .setbit => Sys2Proof.Machine.execSetbit s
  | .testbit => Sys2Proof.Machine.execTestbit s
  | .init => Sys2Proof.Machine.execInit s
  | .add => Sys2Proof.Machine.execAdd s
  | .test => Sys2Proof.Machine.execTest s
  | .merge => Sys2Proof.Machine.execMerge s

end Sys2Proof.Machine
end

