-- ==== Sys2Proof/Machine/Window.lean ====
section
/-! DEFINITION. The register window (spec R20, R37), reset (R44, R280), the issue of a command by a write of CMD (R23, R90,
R248), and one action of the host (R12, R96). -/

namespace Sys2Proof.Machine

/-- The register of a slot; slots 19 and above are reserved (R20). Log entry 13. -/
def RegName.ofSlot : Nat → Option RegName
  | 0 => some .cmd
  | 1 => some .status
  | 2 => some .buf0Base
  | 3 => some .buf0Len
  | 4 => some .buf1Base
  | 5 => some .buf1Len
  | 6 => some .elemBase
  | 7 => some .elemLen
  | 8 => some .seed
  | 9 => some .capacity
  | 10 => some .errorRate
  | 11 => some .idx
  | 12 => some .m
  | 13 => some .k
  | 14 => some .nbytes
  | 15 => some .bitlen
  | 16 => some .pos
  | 17 => some .hashLo
  | 18 => some .hashHi
  | _ => none

/-- The width of a register in bits (R20). -/
def RegName.width : RegName → Nat
  | .cmd | .status | .errorRate | .idx => 32
  | _ => 64

/-- The registers the host may write, CMD apart (R20: "RO" registers ignore host writes; a write of CMD also starts a
command, see `issue`). -/
def RegName.hostWritable : RegName → Bool
  | .status | .k | .nbytes | .hashLo | .hashHi => false
  | _ => true

/-- The content of a register as its 8-byte slot reads: a narrow register in the low bits, the upper bits zero (R20). -/
def State.get (s : State) : RegName → Word
  | .cmd => s.cmd.setWidth 64
  | .status => s.status.setWidth 64
  | .buf0Base => s.buf0Base
  | .buf0Len => s.buf0Len
  | .buf1Base => s.buf1Base
  | .buf1Len => s.buf1Len
  | .elemBase => s.elemBase
  | .elemLen => s.elemLen
  | .seed => s.seed
  | .capacity => s.capacity
  | .errorRate => s.errorRate.setWidth 64
  | .idx => s.idx.setWidth 64
  | .m => s.m
  | .k => s.k
  | .nbytes => s.nbytes
  | .bitlen => s.bitlen
  | .pos => s.pos
  | .hashLo => s.hashLo
  | .hashHi => s.hashHi

/-- A register set to exactly the bits written, the bits above its width dropped (R37). -/
def State.set (s : State) (r : RegName) (v : Word) : State :=
  match r with
  | .cmd => { s with cmd := v.setWidth 32 }
  | .status => { s with status := v.setWidth 32 }
  | .buf0Base => { s with buf0Base := v }
  | .buf0Len => { s with buf0Len := v }
  | .buf1Base => { s with buf1Base := v }
  | .buf1Len => { s with buf1Len := v }
  | .elemBase => { s with elemBase := v }
  | .elemLen => { s with elemLen := v }
  | .seed => { s with seed := v }
  | .capacity => { s with capacity := v }
  | .errorRate => { s with errorRate := v.setWidth 32 }
  | .idx => { s with idx := v.setWidth 32 }
  | .m => { s with m := v }
  | .k => { s with k := v }
  | .nbytes => { s with nbytes := v }
  | .bitlen => { s with bitlen := v }
  | .pos => { s with pos := v }
  | .hashLo => { s with hashLo := v }
  | .hashHi => { s with hashHi := v }

/-- What a host read of a slot returns; reserved slots read as zero (R20). -/
def readSlot (s : State) (slot : Nat) : Word :=
  match RegName.ofSlot slot with
  | some r => s.get r
  | none => 0#64

/-- A host write of a slot other than CMD: read-only registers and reserved slots ignore it (R20, R37). -/
def writeSlot (s : State) (slot : Nat) (v : Word) : State :=
  match RegName.ofSlot slot with
  | some r => if r.hostWritable then s.set r v else s
  | none => s

/-- The state in which a command starts: the word stored in CMD (R23), the trace of the last command forgotten (log
entry 3). -/
def startCommand (s : State) (w : Half) : State := { s with cmd := w, trace := [] }

/-- A host write of CMD: the word is stored, decoded and run to its end; an illegal word raises IllegalCommand and does
nothing else (R23, R90, R94, R248, R252). A command is one step, log entry 15. -/
def issue (s : State) (w : Half) : Host.Outcome State Fault Refusal :=
  match decode w with
  | .error _ => .next (raise .illegalCommand (startCommand s w))
  | .ok i => exec i (startCommand s w)

/-- Reset: every register 0, memory untouched (R44, R280); the model's own fields are kept (log entry 10). -/
def resetEngine (s : State) : State :=
  { State.reset with mem := s.mem, denied := s.denied, hostQueue := s.hostQueue, hostRead := s.hostRead, trace := s.trace }

/-- The same state on a platform that refuses nothing. -/
def State.unrestricted (s : State) : State := { s with denied := [] }

/-- What of a command's trace the engine performs before a reset after `cut` entries: no more than the platform admits,
since at a refused access the engine is stuck until the reset (R77, R282, U8, U10). -/
def State.performed (s : State) (events : List PortEvent) (cut : Nat) : List PortEvent :=
  (events.takeWhile s.admitsEvent).take cut

/-- The platform resets the engine while the command that the word `w` starts runs, or while it is stuck at a refused
access: what was performed before stands in memory, and every register is 0 (R282, U8, U10, log entry 15). Up to a refused
access a command makes the accesses it makes where nothing is refused. -/
def resetDuring (s : State) (w : Half) (cut : Nat) : Host.Outcome State Fault Refusal :=
  match issue s.unrestricted w with
  | .next t => .next (resetEngine { s with
      mem := Memory.apply s.mem (s.performed t.trace cut), trace := s.performed t.trace cut })
  | .fault f => .fault f
  | .refused r => .refused r

/-- One action of the host or the platform. Host accesses to memory are not accesses of the engine's port (R60, R77, log
entry 11). -/
def hostAct (s : State) : HostAction → Host.Outcome State Fault Refusal
  | .writeSlot slot v => if slot = 0 then issue s (v.setWidth 32) else .next (writeSlot s slot v)
  | .readSlot slot => .next { s with hostRead := readSlot s slot }
  | .writeByte a v => .next (s.store a.toNat v)
  | .readByte a => .next { s with hostRead := (Memory.read s.mem a.toNat).setWidth 64 }
  | .reset => .next (resetEngine s)
  | .resetDuring v cut => resetDuring s (v.setWidth 32) cut

/-- One step: the host's oldest pending action is taken; with none pending the engine is idle and holds its registers and
memory (R264, R281). Log entry 1. -/
def takeAction (s : State) : Host.Outcome State Fault Refusal :=
  match s.hostQueue with
  | [] => .next s
  | a :: rest => hostAct { s with hostQueue := rest } a

/-- The host writes the command word `w` next (R96: a mnemonic line is `WR CMD, <word>`). -/
def pushCommand (s : State) (w : Half) : State :=
  { s with hostQueue := .writeSlot 0 (w.setWidth 64) :: s.hostQueue }

end Sys2Proof.Machine
end

