-- ==== Sys2Proof/Machine/Step.lean ====
section
/-! DEFINITION. The step of the machine, and where the next command is placed so that the next step runs it. -/

namespace Sys2Proof.Machine

/-- One step: one action of the host (Machine/Window.lean); a write of CMD runs one whole command (spec R252). -/
def step (s : State) : Host.Outcome State Fault Refusal := takeAction s

/-- `s` with a host write of this command word to CMD as the next action: the engine fetches no instructions, the host
supplies each command (R22). Log entries 1 and 14. -/
def State.withFetchWord (s : State) (nbits w : Nat) : State := pushCommand s (BitVec.ofNat 32 (w % 2 ^ nbits))

end Sys2Proof.Machine
end

