-- ==== Sys2Proof/Machine/HostCommands.lean ====
section
/-! DEFINITION. The document's four host commands as lists of host actions (spec R96 to R98), each to be put in the host's
queue. Parsing, allocation and reading back a result are the host's (R5, R99). -/

namespace Sys2Proof.Machine

/-- A mnemonic line: the host writes the command's word to CMD (R96). -/
def issueAction (i : Instr) : HostAction := .writeSlot 0 ((encode i).setWidth 64)

/-- The default capacity of `init` (R98). -/
def defaultCapacity : Word := 1000000#64

/-- The default error rate of `init`, the binary32 number nearest to 0.01 (R98). -/
def defaultErrorRate : Half := 0x3C23D70A#32

/-- The first half of `init`, up to the read of NBYTES; slot numbers are those of R20 (R97). Log entry 12. -/
def hostInitDerive (capacity : Option Word) (errorRate : Option Half) (seed : Word) : List HostAction :=
  [.writeSlot 9 (capacity.getD defaultCapacity), .writeSlot 10 ((errorRate.getD defaultErrorRate).setWidth 64),
    .writeSlot 8 seed, issueAction .derive, .readSlot 14]

/-- The second half of `init`, after the host has allocated `nbytes` bytes at `base` (R97). Log entry 12. -/
def hostInitCreate (base nbytes : Word) : List HostAction :=
  [.writeSlot 2 base, .writeSlot 3 nbytes, issueAction .init]

/-- `add(filter_ref, element_bytes)` (R97). -/
def hostAdd (base len elemBase elemLen : Word) : List HostAction :=
  [.writeSlot 2 base, .writeSlot 3 len, .writeSlot 6 elemBase, .writeSlot 7 elemLen, issueAction .add]

/-- `exists(filter_ref, element_bytes)`; the answer is STATUS.RESULT, read from slot 1 (R97). -/
def hostExists (base len elemBase elemLen : Word) : List HostAction :=
  [.writeSlot 2 base, .writeSlot 3 len, .writeSlot 6 elemBase, .writeSlot 7 elemLen, issueAction .test, .readSlot 1]

/-- `merge(dest_filter_ref, src_filter_ref)` (R97). -/
def hostMerge (destBase destLen srcBase srcLen : Word) : List HostAction :=
  [.writeSlot 2 destBase, .writeSlot 3 destLen, .writeSlot 4 srcBase, .writeSlot 5 srcLen, issueAction .merge]

end Sys2Proof.Machine
end

