-- ==== Sys2Proof/Safety.lean ====
section
/-! DEFINITION. The terms in which claims about the engine are stated: what a byte range holds, which accesses the platform
admits, what filter a descriptor names, and the invariant of the machine. None of it runs in a step. -/

namespace Sys2Proof.Machine

/-- The byte of buffer memory at address `a`. -/
def State.byteAt (s : State) (a : Nat) : Byte := Memory.read s.mem a

/-- The `n` bytes at `a`, `a + 1`, ... -/
def State.bytesAt (s : State) : Nat → Nat → List Byte
  | 0, _ => []
  | n + 1, a => s.byteAt a :: s.bytesAt n (a + 1)

/-- The events of reading the `n` bytes at `a`, `a + 1`, ... in ascending order. -/
def State.readEvents (s : State) : Nat → Nat → List PortEvent
  | 0, _ => []
  | n + 1, a => .read a (s.byteAt a) :: s.readEvents n (a + 1)

/-- The events of writing a byte string at `a`, `a + 1`, ... in ascending order. -/
def writeEvents : List Byte → Nat → List PortEvent
  | [], _ => []
  | b :: bs, a => .write a b :: writeEvents bs (a + 1)

/-- Address `a` is one of the `n` addresses from `base` on. -/
def inRange (base n a : Nat) : Bool := decide (base ≤ a) && decide (a < base + n)

/-- The platform admits this kind of access to every one of the `n` bytes from `base` on (spec R77, R287). -/
def State.Admitted (s : State) (kind : AccessKind) (base n : Nat) : Prop :=
  ∀ a, base ≤ a → a < base + n → s.admits kind a = true

/-- Bit `q` of the bit array at address `arr` (spec R68). -/
def State.bitAt (s : State) (arr q : Nat) : Bool := (s.byteAt (arr + q / 8)).getLsbD (q % 8)

/-- The header that stands at `base` (spec R64). -/
def State.headerAt (s : State) (base : Nat) : Header := headerOf (s.bytesAt headerBytes base)

/-- What `ValidateFilter` answers for a descriptor (spec R193), as a function of memory. -/
def State.filterAt (s : State) (d : Descriptor) : Except ErrorCode Filter :=
  if d.len < headerBytes then .error .corruptBuffer
  else judgeFilter Config.engine.constants (s.headerAt d.base) d.len

/-- The element named by the `ELEM` descriptor (spec R196). -/
def State.elementBytes (s : State) : List Byte := s.bytesAt s.elem.len s.elem.base

/-- The bits the probes of element `e` fold to on filter `f`, in probe order (spec R114, R170, R205). -/
def probeBits (e : List Byte) (f : Filter) : List Nat :=
  (probeEntries Config.engine f).map fun entry => fold (probePos Config.engine e entry f.header.seed) f.bitLength

/-- Every register but STATUS, and the model's own fields but the trace, are as before. -/
def State.SameRegs (s t : State) : Prop :=
  (∀ r, r ≠ .status → t.get r = s.get r) ∧ t.denied = s.denied ∧ t.hostQueue = s.hostQueue ∧ t.hostRead = s.hostRead

/-- A state differs from `s` in STATUS and the trace only: an ending by `raise` (spec R250). -/
def State.errorEnd (s : State) (c : ErrorCode) (events : List PortEvent) : State :=
  { s with status := statusOfError c, trace := s.trace ++ events }

/-- A trace entry is an access of this kind at this address. -/
def PortEvent.isAccess (e : PortEvent) (kind : AccessKind) (a : Nat) : Prop :=
  match kind with
  | .read => ∃ v, e = .read a v
  | .write => ∃ v, e = .write a v

/-- The number of byte reads in a trace. -/
def readCount (events : List PortEvent) : Nat := (events.filter fun e => match e with | .read _ _ => true | _ => false).length

/-- The number of byte writes in a trace. -/
def writeCount (events : List PortEvent) : Nat := (events.filter fun e => match e with | .write _ _ => true | _ => false).length

/-- The number of evaluations of the hash primitive in a trace. -/
def hashCount (events : List PortEvent) : Nat := (events.filter fun e => match e with | .hash _ => true | _ => false).length

/-- Performs the accesses of a trace on a memory one after the other; none if a read did not return what memory then held
(spec R74, R78). -/
def replay : Memory → List PortEvent → Option Memory
  | mem, [] => some mem
  | mem, .read a v :: more => if Memory.read mem a = v then replay mem more else none
  | mem, .write a v :: more => replay (Memory.write mem a v) more
  | mem, .hash _ :: more => replay mem more

/-- The bits of the `n` bytes from `arr` on only went from 0 to 1 (spec R70). -/
def State.BitsGrow (s t : State) (arr n : Nat) : Prop := ∀ q, q < 8 * n → s.bitAt arr q = true → t.bitAt arr q = true

/-! ## The tables of R36 -/

/-- The registers a command may write; STATUS is written by every command (spec R36, column marks "w"). -/
def writtenBy : Instr → List RegName
  | .nop => [.status]
  | .optbits => [.status, .m]
  | .optprobes => [.status, .k]
  | .derive => [.status, .m, .k, .nbytes]
  | .probe => [.status, .hashLo, .hashHi]
  | .setbit => [.status]
  | .testbit => [.status]
  | .init => [.status]
  | .add => [.status]
  | .test => [.status]
  | .merge => [.status]

/-- The registers a command reads as operands (spec R36, column marks "r"). -/
def readBy : Instr → List RegName
  | .nop => []
  | .optbits => [.capacity, .errorRate]
  | .optprobes => [.capacity, .m]
  | .derive => [.capacity, .errorRate]
  | .probe => [.elemBase, .elemLen, .seed, .idx]
  | .setbit => [.buf0Base, .buf0Len, .bitlen, .pos]
  | .testbit => [.buf0Base, .buf0Len, .bitlen, .pos]
  | .init => [.buf0Base, .buf0Len, .seed, .capacity, .errorRate]
  | .add => [.buf0Base, .buf0Len, .elemBase, .elemLen]
  | .test => [.buf0Base, .buf0Len, .elemBase, .elemLen]
  | .merge => [.buf0Base, .buf0Len, .buf1Base, .buf1Len]

/-- Applies a change to the next state of an outcome. -/
def mapNext (f : State → State) : Host.Outcome State Fault Refusal → Host.Outcome State Fault Refusal
  | .next s => .next (f s)
  | .fault r => .fault r
  | .refused r => .refused r

/-! ## What a range of memory holds, in the words of the rules -/

/-- The range [base, base + total) holds a valid filter of `m` bits and `k` probes: the conditions of R193 one by one. -/
def State.HoldsFilter (s : State) (base total m k : Nat) : Prop :=
  20 ≤ total ∧
    (s.headerAt base).capacity.toNat ≠ 0 ∧
    0x00000001 ≤ (s.headerAt base).errorRate.toNat ∧ (s.headerAt base).errorRate.toNat ≤ 0x3F7FFFFF ∧
    m = optimalBits .literal (s.headerAt base).capacity.toNat (s.headerAt base).errorRate ∧
    m ≤ 2 ^ 64 - 8 ∧
    total - 20 = (m + 7) / 8 ∧
    k = optimalProbes .literal m (s.headerAt base).capacity.toNat ∧
    k ≤ 100

/-- The seed words of the first `k` probes under the header at `base`: SEED_TABLE[i] + seed modulo 2^64 (R113). -/
def State.seedWords (s : State) (base k : Nat) : List Word :=
  (Config.engine.seedTable.entries.take k).map fun c => BitVec.ofInt 64 (c + ((s.headerAt base).seed.toNat : Int))

/-- The bit a seed word selects for element `e` in an array of `len` bytes: the low 64 bits of the hash value, folded by
8 x len (R114, R204). -/
def selectedBit (e : List Byte) (len : Nat) (w : Word) : Nat := (Config.engine.h128 e w).toNat % 2 ^ 64 % (8 * len)

/-- The bits the `k` probes of the element select in the filter at [base, base + total), in probe order (R205). -/
def State.selectedBits (s : State) (base total k : Nat) : List Nat :=
  (s.seedWords base k).map (selectedBit (s.bytesAt s.elemLen.toNat s.elemBase.toNat) (total - 20))

/-- How many probes TEST makes when the probed bits are these: it stops after the first clear one (R210). -/
def probesMade : List Bool → Nat
  | [] => 0
  | true :: more => probesMade more + 1
  | false :: _ => 1

/-- The two ranges overlap without being identical (R216), on four register values. -/
def PartlyOverlap (base0 len0 base1 len1 : Nat) : Prop :=
  0 < len0 ∧ 0 < len1 ∧ base0 < base1 + len1 ∧ base1 < base0 + len0 ∧ ¬(base0 = base1 ∧ len0 = len1)

/-- A word of STATUS a command can leave: a result with code OK, or one of the codes the engine produces (spec R24, R240,
R247). -/
def legalStatus (w : Half) : Bool := w ∈ [0x000#32, 0x100#32, 0x001#32, 0x003#32, 0x004#32, 0x005#32, 0x006#32, 0x007#32]

/-- The invariant of the machine: memory in canonical form; STATUS legal and in keeping with the last command word (an
IllegalCommand code exactly when that word is illegal, a true RESULT only after TESTBIT or TEST); K and NBYTES within
their ranges (spec R24, R32, R33, R40, R74, R248). -/
structure State.Inv (s : State) : Prop where
  memory : Memory.wf s.mem = true
  status : legalStatus s.status = true
  illegal : s.code = 7#4 ↔ ∀ i, decode s.cmd ≠ .ok i
  result : s.result = true → decode s.cmd = .ok .testbit ∨ decode s.cmd = .ok .test
  probes : s.k.toNat ≤ 12728253410859590615
  size : s.nbytes = 0#64 ∨ (21 ≤ s.nbytes.toNat ∧ s.nbytes.toNat ≤ 20 + (2 ^ 61 - 1))

/-- A next host action that leaves the filter at `base` of total length `len` to ADD and MERGE: a write of memory or of
CMD that could otherwise change its bytes is directed elsewhere, and no command is cut short by a reset (spec R230, R282,
R288). -/
def State.Benign (s : State) (base len : Nat) : Prop :=
  match s.hostQueue with
  | .writeByte a _ :: _ => inRange base len a.toNat = false
  | .writeSlot slot v :: _ =>
    slot = 0 →
      match decode (v.setWidth 32) with
      | .ok .add | .ok .merge => s.buf0 = ⟨base, len⟩ ∨ s.buf0.overlaps ⟨base, len⟩ = false
      | .ok .init | .ok .setbit => s.buf0.overlaps ⟨base, len⟩ = false
      | _ => True
  | .resetDuring _ _ :: _ => False
  | _ => True

/-- Steps of the machine during which the filter at `base` is written by ADD and as MERGE's destination only (spec R230). -/
inductive FilterRun (base len : Nat) : State → State → Prop where
  | refl (s : State) : FilterRun base len s s
  | tail (s u v : State) : FilterRun base len s u → u.Benign base len → step u = .next v → FilterRun base len s v

end Sys2Proof.Machine
end

