-- ==== Sys2Proof/Certificates/Slice0/Obligations.lean ====
section
/-! DEFINITION. The statements about the engine, each with the rules of the spec it formalises or rests on. Where a
statement speaks of `trace`, of the host's queue or of `hostRead`, it speaks of the model's own fields (log entries 1, 2,
3), which record what the rules say about accesses, their order and their number; where it speaks of `denied`, of the
platform's MemAdmit (log entry 5). -/

open Sys2Proof Sys2Proof.Machine

/-! ## Command words -/

/-- The eleven words of the opcode map, written out, decode to their commands (R92). -/
def Obligations.WordsOfTheOpcodeMapDecode : Prop :=
  decode 0x00000000#32 = .ok .nop ∧ decode 0x00000001#32 = .ok .optbits ∧ decode 0x00000002#32 = .ok .optprobes ∧
    decode 0x00000003#32 = .ok .derive ∧ decode 0x00000004#32 = .ok .probe ∧ decode 0x00000005#32 = .ok .setbit ∧
    decode 0x00000006#32 = .ok .testbit ∧ decode 0x00000008#32 = .ok .init ∧ decode 0x00000009#32 = .ok .add ∧
    decode 0x0000000A#32 = .ok .test ∧ decode 0x0000000B#32 = .ok .merge

/-- Decode and encode agree in both directions on all 2^32 words (R92). -/
def Obligations.DecodeAndEncodeAgree : Prop := ∀ (w : Half) (i : Instr), decode w = .ok i ↔ w = encode i

/-- A word is rejected exactly when a bit of CMD[31:4] is set, and then as such, or OPC is 0x7 or 0xC to 0xF (R91, R94). -/
def Obligations.RejectedWordsAreTheReservedOnes : Prop :=
  ∀ w : Half,
    (decode w = .error .reservedBits ↔ w.toNat / 16 ≠ 0) ∧
      (decode w = .error .reservedOpcode ↔ w.toNat = 0x7 ∨ (0xC ≤ w.toNat ∧ w.toNat ≤ 0xF))

/-! ## Issue, window, reset -/

/-- When the host's next action writes to CMD a word that decodes to a command, the step stores the word, starts the trace
anew and is that command at the state with the action taken (R23, R90, R252; log entries 1 and 3). -/
def Obligations.StepRunsTheDecodedCommand : Prop :=
  ∀ (s : State) (rest : List HostAction) (v : Word) (i : Instr),
    s.hostQueue = .writeSlot 0 v :: rest → decode (v.setWidth 32) = .ok i →
      step s = exec i { s with hostQueue := rest, cmd := v.setWidth 32, trace := [] }

/-- A write of any other word to CMD raises IllegalCommand: the word is stored, STATUS becomes 0x007, nothing else happens
(R248). That the write is the host's next action in the queue and empties the trace is the model's choice (log entries 1
and 3). -/
def Obligations.IllegalWordRaisesIllegalCommand : Prop :=
  ∀ (s : State) (rest : List HostAction) (v : Word),
    s.hostQueue = .writeSlot 0 v :: rest →
      ((v.setWidth 32).extractLsb' 4 28 ≠ 0#28 ∨ (v.setWidth 32).extractLsb' 0 4 ∈ [0x7#4, 0xC#4, 0xD#4, 0xE#4, 0xF#4]) →
        step s = .next { s with hostQueue := rest, cmd := v.setWidth 32, trace := [], status := 0x007#32 }

/-- The registers of R20 in slot order, each as its 8-byte slot reads. -/
def Sys2Proof.Machine.registerWindow : List (State → Word) :=
  [fun s => s.cmd.setWidth 64, fun s => s.status.setWidth 64, State.buf0Base, State.buf0Len, State.buf1Base, State.buf1Len,
    State.elemBase, State.elemLen, State.seed, State.capacity, fun s => s.errorRate.setWidth 64,
    fun s => s.idx.setWidth 64, State.m, State.k, State.nbytes, State.bitlen, State.pos, State.hashLo, State.hashHi]

/-- A host read of a slot returns its register, narrow registers zero-extended, and of a reserved slot zero; a host read of
a byte of memory returns that byte; neither changes anything (R20, R24, R60, R74). Where the value goes and that the host
reads bytes is the model's choice (log entries 2 and 11). -/
def Obligations.HostReadReturnsTheSlot : Prop :=
  (∀ (s : State) (rest : List HostAction) (slot : Nat),
    s.hostQueue = .readSlot slot :: rest →
      step s = .next { s with
        hostQueue := rest, hostRead := match registerWindow[slot]? with | some f => f s | none => 0#64 }) ∧
    ∀ (s : State) (rest : List HostAction) (a : Word),
      s.hostQueue = .readByte a :: rest →
        step s = .next { s with hostQueue := rest, hostRead := (s.byteAt a.toNat).setWidth 64 }

/-- A host write of a slot other than CMD: a writable register takes exactly the bits written, less those above its width;
read-only registers (STATUS, K, NBYTES, HASH_LO, HASH_HI) and reserved slots ignore it; every other register, and all
memory, is as before (R20, R37). A host write of a byte of memory changes that byte and nothing else (R60, R74; log entry
11). -/
def Obligations.HostWriteChangesOnlyItsRegister : Prop :=
  (∀ (s : State) (rest : List HostAction) (slot : Nat) (v : Word),
    slot ≠ 0 → s.hostQueue = .writeSlot slot v :: rest →
      ∃ t, step s = .next t ∧ t.hostQueue = rest ∧ t.mem = s.mem ∧ t.denied = s.denied ∧ t.hostRead = s.hostRead ∧
        t.trace = s.trace ∧
        ∀ other f, registerWindow[other]? = some f →
          f t = if other = slot ∧ slot ∉ [1, 13, 14, 17, 18] then
              (if slot = 10 ∨ slot = 11 then (v.setWidth 32).setWidth 64 else v)
            else f s) ∧
    ∀ (s : State) (rest : List HostAction) (a : Word) (v : Byte),
      Memory.wf s.mem = true → s.hostQueue = .writeByte a v :: rest →
        ∃ t, step s = .next t ∧ t = { s with hostQueue := rest, mem := t.mem } ∧
          ∀ b, t.byteAt b = if b = a.toNat then v else s.byteAt b

/-- Reset clears every register and leaves memory alone; right after reset all registers read 0, and the engine does
nothing while the host writes nothing (R44, R280, R281). -/
def Obligations.ResetClearsRegistersAndKeepsMemory : Prop :=
  (∀ (s : State) (rest : List HostAction), s.hostQueue = .reset :: rest →
      ∃ t, step s = .next t ∧ t.hostQueue = rest ∧ t.mem = s.mem ∧ t.denied = s.denied ∧
        ∀ f ∈ registerWindow, f t = 0#64) ∧
    (∀ f ∈ registerWindow, f State.reset = 0#64) ∧
    ∀ s : State, s.hostQueue = [] → step s = .next s

/-- A reset while a command runs, anywhere in it, always leads on: the registers are 0, and memory is as a prefix of the
command's accesses leaves it, the first `cut` entries of its trace. Where the platform refuses an access, the prefix ends
before it at the latest, and every access before it was admitted. For ADD, SETBIT and MERGE bits have only gone from 0 to
1. A reset after an illegal word leaves memory as it was (R77, R282; log entries 3, 5 and 15). -/
def Obligations.ResetDuringACommandLeavesAPrefix : Prop :=
  ∀ (s : State) (rest : List HostAction) (v : Word) (cut : Nat), Memory.wf s.mem = true →
    s.hostQueue = .resetDuring v cut :: rest →
    ∃ t, step s = .next t ∧ (∀ f ∈ registerWindow, f t = 0#64) ∧ t.hostQueue = rest ∧ t.denied = s.denied ∧
      t.hostRead = s.hostRead ∧ replay s.mem t.trace = some t.mem ∧
      (∀ e, decode (v.setWidth 32) = .error e → t.mem = s.mem ∧ t.trace = []) ∧
      ∀ (i : Instr) (start : State), decode (v.setWidth 32) = .ok i →
        start = { s with hostQueue := rest, cmd := v.setWidth 32, trace := [] } →
        (∀ u, exec i start = .next u → t.trace = u.trace.take cut) ∧
        (∀ kind a, exec i start = .fault (.portRefused kind a) →
          ∃ u n e, exec i { start with denied := [] } = .next u ∧ u.trace[n]? = some e ∧ e.isAccess kind a ∧
            (∀ e' ∈ u.trace.take n, s.admitsEvent e' = true) ∧ t.trace = (u.trace.take n).take cut) ∧
        (i ∈ [Instr.add, .setbit, .merge] →
          ∀ a j, (s.byteAt a).getLsbD j = true → (t.byteAt a).getLsbD j = true)

/-- The outcome of each command as the first one after reset (R283). -/
def Obligations.FirstCommandAfterReset : Prop :=
  (∀ i, i ∈ [Instr.optbits, .optprobes, .derive, .setbit, .testbit, .init] →
      exec i State.reset = .next { State.reset with status := 0x001#32 }) ∧
    (∀ i, i ∈ [Instr.add, .test, .merge] → exec i State.reset = .next { State.reset with status := 0x005#32 }) ∧
    exec .nop State.reset = .next State.reset ∧
    ∃ c, Config.engine.seedTable.entries[0]? = some c ∧
      exec .probe State.reset = .next { State.reset with
        hashLo := (Config.engine.h128 [] (BitVec.ofInt 64 c)).extractLsb' 0 64
        hashHi := (Config.engine.h128 [] (BitVec.ofInt 64 c)).extractLsb' 64 64
        trace := [.hash (BitVec.ofInt 64 c)] }

/-! ## How commands end -/

/-- Every ending leaves a legal STATUS: code 0 with a result, or a code the engine produces, never 2 or 8 to 15; RESULT is
1 only after a TEST or TESTBIT that ended OK (R24, R40, R247). Each command raises only the codes R240 lists for it. -/
def Obligations.EveryEndingLeavesALegalStatus : Prop :=
  ∀ (i : Instr) (s t : State), exec i s = .next t →
    (t.status ∈ [0x000#32, 0x001#32, 0x003#32, 0x004#32, 0x005#32, 0x006#32] ∨
        (t.status = 0x100#32 ∧ (i = .test ∨ i = .testbit))) ∧
      t.code ∈ (0#4 :: match i with
        | .nop => []
        | .optbits => [1#4]
        | .optprobes => [1#4]
        | .derive => [1#4, 4#4]
        | .probe => [4#4, 6#4]
        | .setbit => [1#4, 6#4]
        | .testbit => [1#4, 6#4]
        | .init => [1#4, 4#4, 5#4, 6#4]
        | .add => [4#4, 5#4, 6#4]
        | .test => [4#4, 5#4, 6#4]
        | .merge => [3#4, 4#4, 5#4, 6#4])

/-- After an error the state is the one before the command, STATUS and the trace of the reads made apart; STATUS is the
code, so RESULT is 0, and no byte was written (R250; the trace is the model's own, log entry 3). -/
def Obligations.ErrorEndingWritesStatusOnly : Prop :=
  ∀ (i : Instr) (s t : State), exec i s = .next t → t.code ≠ 0#4 →
    t.status = t.code.setWidth 32 ∧ t.result = false ∧ ∃ events, t = { s with status := t.status, trace := s.trace ++ events } ∧
      writeCount events = 0 ∧ hashCount events = 0

/-- The only way a step stops is an access the platform refuses, at an address of the address space; no command forms an
address of 2^64 or above (R62, R77, R205, U8). -/
def Obligations.OnlyARefusedAccessStops : Prop :=
  ∀ s : State, (∃ t, step s = .next t) ∨
    ∃ kind a, step s = .fault (.portRefused kind a) ∧ a < 2 ^ 64 ∧ s.admits kind a = false

/-- A refused access leaves the engine with no step: SETBIT whose byte may not be read, or may be read but not written
(R77, R265, U8; the fault's name is the model's, log entry 5). -/
def Obligations.RefusedAccessLeavesNoStep : Prop :=
  ∀ s : State, s.buf0Base.toNat + s.buf0Len.toNat ≤ 2 ^ 64 → 0 < s.bitlen.toNat → s.bitlen.toNat ≤ 8 * s.buf0Len.toNat →
    (s.admits .read (s.buf0Base.toNat + s.pos.toNat % s.bitlen.toNat / 8) = false →
      exec .setbit s = .fault (.portRefused .read (s.buf0Base.toNat + s.pos.toNat % s.bitlen.toNat / 8))) ∧
    (s.admits .read (s.buf0Base.toNat + s.pos.toNat % s.bitlen.toNat / 8) = true →
      s.admits .write (s.buf0Base.toNat + s.pos.toNat % s.bitlen.toNat / 8) = false →
      exec .setbit s = .fault (.portRefused .write (s.buf0Base.toNat + s.pos.toNat % s.bitlen.toNat / 8)))

/-! ## Frames -/

/-- A command writes only the registers R36 marks for it (STATUS among them); every other register, the access map and
the host's pending actions and last read are unchanged. -/
def Obligations.CommandsWriteOnlyTheirRegisters : Prop :=
  ∀ (i : Instr) (s t : State), exec i s = .next t →
    (∀ r, r ∉ writtenBy i → t.get r = s.get r) ∧ t.denied = s.denied ∧ t.hostQueue = s.hostQueue ∧
      t.hostRead = s.hostRead

/-- The commands that store nothing leave every byte of memory as it was (R76). -/
def Obligations.NonStoringCommandsKeepMemory : Prop :=
  ∀ (i : Instr) (s t : State), i ∈ [Instr.nop, .optbits, .optprobes, .derive, .probe, .testbit, .test] →
    exec i s = .next t → t.mem = s.mem ∧ ∀ a, t.byteAt a = s.byteAt a

/-- The storing commands change no byte outside what they store to: SETBIT the one byte of its folded bit, INIT the buffer,
ADD the bytes of the element's selected bits, MERGE the destination's bit array (R66, R76, R220). -/
def Obligations.StoringCommandsFrame : Prop :=
  ∀ s t : State, Memory.wf s.mem = true →
    (exec .setbit s = .next t → ∀ a, a ≠ bitAddress s.buf0.base (fold s.pos s.bitlen.toNat) → t.byteAt a = s.byteAt a) ∧
    (exec .init s = .next t → ∀ a, ¬(s.buf0.base ≤ a ∧ a < s.buf0.base + s.buf0.len) → t.byteAt a = s.byteAt a) ∧
    (exec .add s = .next t → ∀ f, s.filterAt s.buf0 = .ok f →
      ∀ a, (∀ q ∈ probeBits s.elementBytes f, a ≠ bitAddress (s.buf0.base + headerBytes) q) → t.byteAt a = s.byteAt a) ∧
    (exec .merge s = .next t →
      ∀ a, ¬(s.buf0.base + headerBytes ≤ a ∧ a < s.buf0.base + s.buf0.len) → t.byteAt a = s.byteAt a)

/-- A register a command does not read by R36 has no influence on it. If the command does not write it either, the outcome
is the same with the register's value carried through; if it writes it, the outcome is the very same after an ending OK,
and after an error the old value is carried through; STATUS, which every ending writes, never matters. In particular ADD,
TEST and MERGE ignore SEED, ERROR_RATE, CAPACITY, M and K (R21, R30, R36, R40, R192). -/
def Obligations.UnreadRegistersHaveNoInfluence : Prop :=
  ∀ (i : Instr) (s : State) (r : RegName) (v : Word), r ∉ readBy i →
    exec i (s.set r v) =
      mapNext (fun t => if r ∈ writtenBy i ∧ (r = .status ∨ t.code = 0#4) then t else t.set r v) (exec i s)

/-! ## The effect of each command -/

/-- NOP sets STATUS to 0x000 and leaves every other register and all memory unchanged (R190). -/
def Obligations.NopClearsStatusOnly : Prop := ∀ s : State, exec .nop s = .next { s with status := 0x000#32 }

/-- OPTBITS (R140). -/
def Obligations.OptbitsEffect : Prop :=
  ∀ s : State, exec .optbits s = .next
    (if s.capacity.toNat = 0 ∨ s.errorRate.toNat < 0x00000001 ∨ 0x3F7FFFFF < s.errorRate.toNat ∨
        2 ^ 64 - 8 < optimalBits .literal s.capacity.toNat s.errorRate then
      { s with status := 0x001#32 }
    else { s with m := BitVec.ofNat 64 (optimalBits .literal s.capacity.toNat s.errorRate), status := 0x000#32 })

/-- OPTPROBES (R141). -/
def Obligations.OptprobesEffect : Prop :=
  ∀ s : State, exec .optprobes s = .next
    (if s.capacity.toNat = 0 ∨ s.m.toNat = 0 then { s with status := 0x001#32 }
    else { s with
      k := BitVec.ofNat 64 ((69 * s.m.toNat + 100 * s.capacity.toNat - 1) / (100 * s.capacity.toNat))
      status := 0x000#32 })

/-- DERIVE (R142). -/
def Obligations.DeriveEffect : Prop :=
  ∀ (s : State) (m k : Nat), m = optimalBits .literal s.capacity.toNat s.errorRate →
    k = (69 * m + 100 * s.capacity.toNat - 1) / (100 * s.capacity.toNat) →
    exec .derive s = .next
      (if s.capacity.toNat = 0 ∨ s.errorRate.toNat < 0x00000001 ∨ 0x3F7FFFFF < s.errorRate.toNat ∨ 2 ^ 64 - 8 < m then
        { s with status := 0x001#32 }
      else if 100 < k then { s with status := 0x004#32 }
      else { s with
        m := BitVec.ofNat 64 m, k := BitVec.ofNat 64 k, nbytes := BitVec.ofNat 64 (20 + (m + 7) / 8)
        status := 0x000#32 })

/-- PROBE: BadDescriptor if the element range wraps, then ProbeTableExhausted if IDX >= 100, else both halves of
H128(element, (SEED_TABLE[IDX] + SEED) mod 2^64), the element read once in ascending order before it (R116, R113, R117; the
trace that shows it is the model's own, log entry 3). -/
def Obligations.ProbeEffect : Prop :=
  ∀ s : State,
    (2 ^ 64 < s.elemBase.toNat + s.elemLen.toNat → exec .probe s = .next { s with status := 0x006#32 }) ∧
    (s.elemBase.toNat + s.elemLen.toNat ≤ 2 ^ 64 → 100 ≤ s.idx.toNat →
      exec .probe s = .next { s with status := 0x004#32 }) ∧
    (s.elemBase.toNat + s.elemLen.toNat ≤ 2 ^ 64 → s.idx.toNat < 100 →
      s.Admitted .read s.elemBase.toNat s.elemLen.toNat →
      ∃ (c : Int) (w : Word) (out : BitVec 128), Config.engine.seedTable.entries[s.idx.toNat]? = some c ∧
        (w.toNat : Int) = (c + s.seed.toNat) % 2 ^ 64 ∧
        out = Config.engine.h128 (s.bytesAt s.elemLen.toNat s.elemBase.toNat) w ∧
        exec .probe s = .next { s with
          hashLo := out.extractLsb' 0 64, hashHi := out.extractLsb' 64 64, status := 0x000#32
          trace := s.trace ++ (s.readEvents s.elemLen.toNat s.elemBase.toNat ++ [.hash w]) })

/-- The three checks of SETBIT and TESTBIT in their order: BUF0 wraps BadDescriptor, BITLEN = 0 InvalidArgument,
BITLEN > 8 x BUF0_LEN BadDescriptor, each before any access (R173). -/
def Obligations.BitCommandChecks : Prop :=
  ∀ (i : Instr) (s : State), i ∈ [Instr.setbit, .testbit] →
    (2 ^ 64 < s.buf0Base.toNat + s.buf0Len.toNat → exec i s = .next { s with status := 0x006#32 }) ∧
    (s.buf0Base.toNat + s.buf0Len.toNat ≤ 2 ^ 64 → s.bitlen.toNat = 0 → exec i s = .next { s with status := 0x001#32 }) ∧
    (s.buf0Base.toNat + s.buf0Len.toNat ≤ 2 ^ 64 → s.bitlen.toNat ≠ 0 → 8 * s.buf0Len.toNat < s.bitlen.toNat →
      exec i s = .next { s with status := 0x006#32 })

/-- SETBIT on good operands: one read and one write of the byte of bit POS mod BITLEN, which gets the bit's mask ORed in;
nothing else changes but STATUS (R172, R174). -/
def Obligations.SetbitEffect : Prop :=
  ∀ (s : State) (q a : Nat), Memory.wf s.mem = true → s.buf0Base.toNat + s.buf0Len.toNat ≤ 2 ^ 64 → 0 < s.bitlen.toNat →
    s.bitlen.toNat ≤ 8 * s.buf0Len.toNat → q = s.pos.toNat % s.bitlen.toNat → a = s.buf0Base.toNat + q / 8 →
    s.admits .read a = true → s.admits .write a = true →
    ∃ t, exec .setbit s = .next t ∧ t.status = 0x000#32 ∧ s.SameRegs t ∧
      (∀ b, t.byteAt b = if b = a then s.byteAt b ||| (1#8 <<< (q % 8)) else s.byteAt b) ∧
      t.trace = s.trace ++ [.read a (s.byteAt a), .write a (s.byteAt a ||| (1#8 <<< (q % 8)))]

/-- TESTBIT on good operands: one read, RESULT is bit (POS mod BITLEN) mod 8 of the byte, nothing else changes (R175, R176). -/
def Obligations.TestbitEffect : Prop :=
  ∀ (s : State) (q a : Nat), s.buf0Base.toNat + s.buf0Len.toNat ≤ 2 ^ 64 → 0 < s.bitlen.toNat →
    s.bitlen.toNat ≤ 8 * s.buf0Len.toNat → q = s.pos.toNat % s.bitlen.toNat → a = s.buf0Base.toNat + q / 8 →
    s.admits .read a = true →
    exec .testbit s = .next { s with
      status := if (s.byteAt a).toNat / 2 ^ (q % 8) % 2 = 1 then 0x100#32 else 0x000#32
      trace := s.trace ++ [.read a (s.byteAt a)] }

/-- INIT's checks in their order, each before the first write (R200). -/
def Obligations.InitChecks : Prop :=
  ∀ (s : State) (m k : Nat), m = optimalBits .literal s.capacity.toNat s.errorRate →
    k = (69 * m + 100 * s.capacity.toNat - 1) / (100 * s.capacity.toNat) →
    (2 ^ 64 < s.buf0Base.toNat + s.buf0Len.toNat → exec .init s = .next { s with status := 0x006#32 }) ∧
    (s.buf0Base.toNat + s.buf0Len.toNat ≤ 2 ^ 64 →
      ((s.capacity.toNat = 0 ∨ s.errorRate.toNat < 0x00000001 ∨ 0x3F7FFFFF < s.errorRate.toNat ∨ 2 ^ 64 - 8 < m) →
        exec .init s = .next { s with status := 0x001#32 }) ∧
      (¬(s.capacity.toNat = 0 ∨ s.errorRate.toNat < 0x00000001 ∨ 0x3F7FFFFF < s.errorRate.toNat ∨ 2 ^ 64 - 8 < m) →
        (100 < k → exec .init s = .next { s with status := 0x004#32 }) ∧
        (k ≤ 100 → s.buf0Len.toNat ≠ 20 + (m + 7) / 8 → exec .init s = .next { s with status := 0x005#32 })))

/-- INIT on good operands: the 20 header bytes are the registers SEED, ERROR_RATE, CAPACITY, little-endian, at offsets 0, 8
and 12, every byte from offset 20 on is 0, each byte written once in ascending order, nothing read; nothing else changes
but STATUS (R64, R67, R200). -/
def Obligations.InitEffect : Prop :=
  ∀ (s : State) (m k : Nat), Memory.wf s.mem = true → s.buf0Base.toNat + s.buf0Len.toNat ≤ 2 ^ 64 →
    m = optimalBits .literal s.capacity.toNat s.errorRate →
    k = (69 * m + 100 * s.capacity.toNat - 1) / (100 * s.capacity.toNat) →
    s.capacity.toNat ≠ 0 → 0x00000001 ≤ s.errorRate.toNat → s.errorRate.toNat ≤ 0x3F7FFFFF → m ≤ 2 ^ 64 - 8 → k ≤ 100 →
    s.buf0Len.toNat = 20 + (m + 7) / 8 → s.Admitted .write s.buf0Base.toNat s.buf0Len.toNat →
    ∃ t, exec .init s = .next t ∧ t.status = 0x000#32 ∧ s.SameRegs t ∧
      (∀ j, j < 8 → t.byteAt (s.buf0Base.toNat + j) = s.seed.extractLsb' (8 * j) 8) ∧
      (∀ j, j < 4 → t.byteAt (s.buf0Base.toNat + 8 + j) = s.errorRate.extractLsb' (8 * j) 8) ∧
      (∀ j, j < 8 → t.byteAt (s.buf0Base.toNat + 12 + j) = s.capacity.extractLsb' (8 * j) 8) ∧
      (∀ j, j < (m + 7) / 8 → t.byteAt (s.buf0Base.toNat + 20 + j) = 0x00#8) ∧
      (∀ a, a < s.buf0Base.toNat ∨ s.buf0Base.toNat + s.buf0Len.toNat ≤ a → t.byteAt a = s.byteAt a) ∧
      t.trace = s.trace ++ writeEvents (t.bytesAt s.buf0Len.toNat s.buf0Base.toNat) s.buf0Base.toNat

/-- The header in memory is three little-endian fields: the seed in bytes 0 to 7, the error rate in bytes 8 to 11, the
capacity in bytes 12 to 19 (R64, R65, R67). -/
def Obligations.HeaderFieldsAreLittleEndian : Prop :=
  ∀ (s : State) (base : Nat),
    (s.headerAt base).seed.toNat = ∑ i ∈ Finset.range 8, (s.byteAt (base + i)).toNat * 2 ^ (8 * i) ∧
      (s.headerAt base).errorRate.toNat = ∑ i ∈ Finset.range 4, (s.byteAt (base + 8 + i)).toNat * 2 ^ (8 * i) ∧
      (s.headerAt base).capacity.toNat = ∑ i ∈ Finset.range 8, (s.byteAt (base + 12 + i)).toNat * 2 ^ (8 * i)

/-- ValidateFilter's verdicts in their order: no room for a header, header outside the deriver's domain or wrong size are
CorruptBuffer, more than 100 probes is ProbeTableExhausted, else the filter is valid (R193, R195). -/
def Obligations.ValidateFilterVerdicts : Prop :=
  ∀ (s : State) (base total n m k : Nat) (b : Half), n = (s.headerAt base).capacity.toNat →
    b = (s.headerAt base).errorRate → m = optimalBits .literal n b → k = (69 * m + 100 * n - 1) / (100 * n) →
    (total < 20 → s.filterAt ⟨base, total⟩ = .error .corruptBuffer) ∧
    (20 ≤ total → (n = 0 ∨ b.toNat < 0x00000001 ∨ 0x3F7FFFFF < b.toNat ∨ 2 ^ 64 - 8 < m ∨ total - 20 ≠ (m + 7) / 8) →
      s.filterAt ⟨base, total⟩ = .error .corruptBuffer) ∧
    (20 ≤ total → ¬(n = 0 ∨ b.toNat < 0x00000001 ∨ 0x3F7FFFFF < b.toNat ∨ 2 ^ 64 - 8 < m ∨ total - 20 ≠ (m + 7) / 8) →
      (100 < k → s.filterAt ⟨base, total⟩ = .error .probeTableExhausted) ∧
      (k ≤ 100 → s.filterAt ⟨base, total⟩ = .ok ⟨s.headerAt base, m, k, total - 20⟩ ∧ s.HoldsFilter base total m k))

/-- What ADD and TEST report when they cannot run: BadDescriptor if BUF0 or the element wraps, with no access; else
ValidateFilter's verdict, with no access if there is no room for a header and 20 reads otherwise (R206, R210, R254). -/
def Obligations.AddAndTestChecks : Prop :=
  ∀ (i : Instr) (s : State), i ∈ [Instr.add, .test] →
    ((2 ^ 64 < s.buf0Base.toNat + s.buf0Len.toNat ∨ 2 ^ 64 < s.elemBase.toNat + s.elemLen.toNat) →
      exec i s = .next { s with status := 0x006#32 }) ∧
    (s.buf0Base.toNat + s.buf0Len.toNat ≤ 2 ^ 64 → s.elemBase.toNat + s.elemLen.toNat ≤ 2 ^ 64 →
      (s.buf0Len.toNat < 20 → exec i s = .next { s with status := 0x005#32 }) ∧
      (20 ≤ s.buf0Len.toNat → s.Admitted .read s.buf0Base.toNat 20 → ∀ c, s.filterAt s.buf0 = .error c →
        exec i s = .next { s with
          status := if c = .probeTableExhausted then 0x004#32 else 0x005#32
          trace := s.trace ++ s.readEvents 20 s.buf0Base.toNat }))

/-- ADD on a valid filter: exactly the bits its k probes select become 1, every other bit of the array and every byte
outside it is as before, and nothing else changes but STATUS (R204, R205, R206). -/
def Obligations.AddEffect : Prop :=
  ∀ (s : State) (B T m k : Nat), B = s.buf0Base.toNat → T = s.buf0Len.toNat → Memory.wf s.mem = true → B + T ≤ 2 ^ 64 →
    s.elemBase.toNat + s.elemLen.toNat ≤ 2 ^ 64 → s.HoldsFilter B T m k →
    s.Admitted .read B T → s.Admitted .write (B + 20) (T - 20) → s.Admitted .read s.elemBase.toNat s.elemLen.toNat →
    ∃ t, exec .add s = .next t ∧ t.status = 0x000#32 ∧ s.SameRegs t ∧
      (∀ q, q < 8 * (T - 20) → t.bitAt (B + 20) q = (s.bitAt (B + 20) q || decide (q ∈ s.selectedBits B T k))) ∧
      ∀ a, a < B + 20 ∨ B + T ≤ a → t.byteAt a = s.byteAt a

/-- TEST on a valid filter: RESULT is 1 exactly when all k selected bits are 1; header, element and then one byte per probe
are read, up to the first clear bit; nothing else changes (R205, R210). -/
def Obligations.TestEffect : Prop :=
  ∀ (s : State) (B T m k : Nat), B = s.buf0Base.toNat → T = s.buf0Len.toNat → B + T ≤ 2 ^ 64 →
    s.elemBase.toNat + s.elemLen.toNat ≤ 2 ^ 64 → s.HoldsFilter B T m k →
    s.Admitted .read B T → s.Admitted .read s.elemBase.toNat s.elemLen.toNat →
    exec .test s = .next { s with
      status := if ∀ q ∈ s.selectedBits B T k, s.bitAt (B + 20) q = true then 0x100#32 else 0x000#32
      trace := s.trace ++ (s.readEvents 20 B ++ s.readEvents s.elemLen.toNat s.elemBase.toNat ++
        ((s.seedWords B k).take (probesMade ((s.selectedBits B T k).map (s.bitAt (B + 20))))).flatMap fun w =>
          [.hash w,
            .read (B + 20 + selectedBit (s.bytesAt s.elemLen.toNat s.elemBase.toNat) (T - 20) w / 8)
              (s.byteAt (B + 20 + selectedBit (s.bytesAt s.elemLen.toNat s.elemBase.toNat) (T - 20) w / 8))]) }

/-- What MERGE reports when it cannot run, in the order of its checks: BadDescriptor for a wrapping range or a partial
overlap, the destination's verdict, the source's, then IncompatibleParameters when lengths, seeds, capacities or error
rates differ (R216, R217, R218, R254). -/
def Obligations.MergeChecks : Prop :=
  ∀ s : State,
    ((2 ^ 64 < s.buf0Base.toNat + s.buf0Len.toNat ∨ 2 ^ 64 < s.buf1Base.toNat + s.buf1Len.toNat ∨
        PartlyOverlap s.buf0Base.toNat s.buf0Len.toNat s.buf1Base.toNat s.buf1Len.toNat) →
      exec .merge s = .next { s with status := 0x006#32 }) ∧
    (s.buf0Base.toNat + s.buf0Len.toNat ≤ 2 ^ 64 → s.buf1Base.toNat + s.buf1Len.toNat ≤ 2 ^ 64 →
      ¬PartlyOverlap s.buf0Base.toNat s.buf0Len.toNat s.buf1Base.toNat s.buf1Len.toNat →
      (20 ≤ s.buf0Len.toNat → s.Admitted .read s.buf0Base.toNat 20) →
      (20 ≤ s.buf1Len.toNat → s.Admitted .read s.buf1Base.toNat 20) →
      (∀ c, s.filterAt s.buf0 = .error c →
        exec .merge s = .next (s.errorEnd c (if s.buf0Len.toNat < 20 then [] else s.readEvents 20 s.buf0Base.toNat))) ∧
      (∀ f c, s.filterAt s.buf0 = .ok f → s.filterAt s.buf1 = .error c →
        exec .merge s = .next (s.errorEnd c (s.readEvents 20 s.buf0Base.toNat ++
          if s.buf1Len.toNat < 20 then [] else s.readEvents 20 s.buf1Base.toNat))) ∧
      (∀ f g, s.filterAt s.buf0 = .ok f → s.filterAt s.buf1 = .ok g →
        (s.buf0Len ≠ s.buf1Len ∨ s.headerAt s.buf0Base.toNat ≠ s.headerAt s.buf1Base.toNat) →
        exec .merge s = .next { s with
          status := 0x003#32
          trace := s.trace ++ (s.readEvents 20 s.buf0Base.toNat ++ s.readEvents 20 s.buf1Base.toNat) }))

/-- MERGE on compatible filters: every byte of the destination's bit array becomes its OR with the source's byte at the
same offset; header, source and every other byte are as before, and nothing else changes but STATUS (R218, R220). -/
def Obligations.MergeEffect : Prop :=
  ∀ (s : State) (B0 B1 T m k m' k' : Nat), B0 = s.buf0Base.toNat → B1 = s.buf1Base.toNat → T = s.buf0Len.toNat →
    s.buf1Len = s.buf0Len → Memory.wf s.mem = true → B0 + T ≤ 2 ^ 64 → B1 + T ≤ 2 ^ 64 →
    (B0 = B1 ∨ B0 + T ≤ B1 ∨ B1 + T ≤ B0) → s.HoldsFilter B0 T m k → s.HoldsFilter B1 T m' k' →
    s.headerAt B0 = s.headerAt B1 →
    s.Admitted .read B0 T → s.Admitted .read B1 T → s.Admitted .write (B0 + 20) (T - 20) →
    ∃ t, exec .merge s = .next t ∧ t.status = 0x000#32 ∧ s.SameRegs t ∧
      ∀ a, t.byteAt a = if B0 + 20 ≤ a ∧ a < B0 + T then s.byteAt a ||| s.byteAt (B1 + (a - B0)) else s.byteAt a

/-! ## The parameter deriver -/

/-- The real value of a binary32 datum; none for an infinity or a NaN (R131). -/
noncomputable def Sys2Proof.Machine.Float32Value.real : Float32Value → Option ℝ
  | .zero _ => some 0
  | .finite neg sig exp => some ((if neg then -1 else 1) * sig * (2 : ℝ) ^ exp)
  | .infinite _ => none
  | .nan => none

/-- A binary32 pattern denotes (-1)^S x F x 2^-149 if E = 0, (-1)^S x (2^23 + F) x 2^(E - 150) if 1 <= E <= 254, and no
real number if E = 255 (R131). -/
def Obligations.PatternDenotesItsBinary32Value : Prop :=
  ∀ (b : Half) (S E F : Nat), b.toNat = S * 2 ^ 31 + E * 2 ^ 23 + F → S < 2 → E < 256 → F < 2 ^ 23 →
    (E = 0 → (f32val b).real = some ((-1) ^ S * F * (2 : ℝ) ^ (-149 : Int))) ∧
      (1 ≤ E → E ≤ 254 → (f32val b).real = some ((-1) ^ S * (2 ^ 23 + F) * (2 : ℝ) ^ ((E : Int) - 150))) ∧
      (E = 255 → (f32val b).real = none ∧ ((f32val b = .nan) ↔ F ≠ 0))

/-- A pattern is a legal error rate exactly when it denotes a real number strictly between 0 and 1, which is exactly when
it is 0x00000001 to 0x3F7FFFFF (R132). -/
def Obligations.LegalErrorRatesAreBetweenZeroAndOne : Prop :=
  ∀ b : Half, (legalErrorRate b = true ↔ ∃ p, (f32val b).real = some p ∧ 0 < p ∧ p < 1) ∧
    (legalErrorRate b = true ↔ 0x00000001 ≤ b.toNat ∧ b.toNat ≤ 0x3F7FFFFF)

/-- OptimalBits is the exact ceiling of 36/25 x n x log2(1/p) over the real numbers, and is positive (R133). -/
def Obligations.OptimalBitsIsTheExactCeiling : Prop :=
  ∀ (n : Nat) (b : Half) (p : ℝ), 1 ≤ n → legalErrorRate b = true → (f32val b).real = some p →
    optimalBits .literal n b = ⌈(36 / 25 : ℝ) * n * Real.logb 2 (1 / p)⌉₊ ∧ 1 ≤ optimalBits .literal n b

/-- OptimalProbes is the exact ceiling of 69/100 x m / n, which is (69 m + 100 n - 1) div (100 n) (R136), is at least 1, and for 64-bit operands at most
12,728,253,410,859,590,615 (R32, R137). -/
def Obligations.OptimalProbesIsTheExactCeiling : Prop :=
  ∀ m n : Nat, 1 ≤ m → 1 ≤ n →
    optimalProbes .literal m n = ⌈(69 / 100 : ℚ) * m / n⌉₊ ∧
      optimalProbes .literal m n = (69 * m + 100 * n - 1) / (100 * n) ∧ 1 ≤ optimalProbes .literal m n ∧
      (m < 2 ^ 64 → optimalProbes .literal m n ≤ 12728253410859590615)

/-- OptimalBits is non-decreasing in n and, on legal patterns, non-increasing in the pattern; OptimalProbes is
non-decreasing in m and non-increasing in n; the composed probe count is not monotone in n: at rate
0x3F000000 it is 2 for n = 1 and n = 3, 1 for n = 25, 2 again for n = 26 (R144). -/
def Obligations.DeriverIsMonotone : Prop :=
  (∀ (n n' : Nat) (b : Half), 1 ≤ n → n ≤ n' → legalErrorRate b = true →
      optimalBits .literal n b ≤ optimalBits .literal n' b) ∧
    (∀ (n : Nat) (b b' : Half), 1 ≤ n → legalErrorRate b = true → legalErrorRate b' = true → b.toNat ≤ b'.toNat →
      optimalBits .literal n b' ≤ optimalBits .literal n b) ∧
    (∀ m m' n : Nat, 1 ≤ m → 1 ≤ n → m ≤ m' → optimalProbes .literal m n ≤ optimalProbes .literal m' n) ∧
    (∀ m n n' : Nat, 1 ≤ m → 1 ≤ n → n ≤ n' → optimalProbes .literal m n' ≤ optimalProbes .literal m n) ∧
    optimalProbes .literal (optimalBits .literal 1 0x3F000000#32) 1 = 2 ∧
    optimalProbes .literal (optimalBits .literal 3 0x3F000000#32) 3 = 2 ∧
    optimalProbes .literal (optimalBits .literal 25 0x3F000000#32) 25 = 1 ∧
    optimalProbes .literal (optimalBits .literal 26 0x3F000000#32) 26 = 2

/-- With m at most M_MAX the sizes fit their registers: 1 <= m, ceil(m/8) <= 2^61 - 1, the bit length 8 x ceil(m/8) is
from m to m + 7 and at most 2^64 - 8, and NBYTES fits 64 bits (R69, R135, R143). -/
def Obligations.DerivedSizesFitTheRegisters : Prop :=
  ∀ (n : Nat) (b : Half) (m L : Nat), 1 ≤ n → legalErrorRate b = true → m = optimalBits .literal n b → m ≤ 2 ^ 64 - 8 →
    L = (m + 7) / 8 →
    1 ≤ m ∧ 1 ≤ L ∧ L ≤ 2 ^ 61 - 1 ∧ m ≤ 8 * L ∧ 8 * L ≤ m + 7 ∧ 8 * L ≤ 2 ^ 64 - 8 ∧ 20 + L < 2 ^ 64

/-- The composed deriver gives 1 to 149 probes, 149 at n = 1 and the least subnormal rate; the count exceeds the table
exactly when 69 m > 10000 n (R137, R149). -/
def Obligations.ComposedProbeCountRange : Prop :=
  (∀ (n : Nat) (b : Half), 1 ≤ n → legalErrorRate b = true →
      1 ≤ optimalProbes .literal (optimalBits .literal n b) n ∧
        optimalProbes .literal (optimalBits .literal n b) n ≤ 149) ∧
    optimalBits .literal 1 0x00000001#32 = 215 ∧ optimalProbes .literal 215 1 = 149 ∧
    ∀ m n : Nat, 1 ≤ n → (100 < optimalProbes .literal m n ↔ 10000 * n < 69 * m)

/-- The brackets of the model hold one ceiling of n x log2(1/p) / ln 2 at this precision. -/
def Sys2Proof.Machine.bitsDecided (steps n : Nat) (b : Half) : Prop :=
  ceilDiv (n * rateLogBelow steps (significand b) (scale b)) (lnTwoAbove steps) =
    ceilDiv (n * rateLogAbove steps (significand b) (scale b)) (lnTwoBelow steps)

/-- The brackets of the model hold one ceiling of ln 2 x m / n at this precision. -/
def Sys2Proof.Machine.probesDecided (width m n : Nat) : Prop :=
  ceilDiv (lnTwoBelow width * m) (2 ^ width * n) = ceilDiv (lnTwoAbove width * m) (2 ^ width * n)

/-- Under the alternative constants the model's two functions are the exact ceilings of n x log2(1/p) / ln 2 and of
ln 2 x m / n whenever a bracket decides them at one of the precisions 96, 192 and 384; only where none does are they the
values the configuration leaves open. The values R147 lists are decided and are as it lists them (R147, log entry 9). -/
def Obligations.Ln2ConfigurationIsSound : Prop :=
  (∀ (n : Nat) (b : Half) (p : ℝ), 1 ≤ n → legalErrorRate b = true → (f32val b).real = some p →
      (∀ steps ∈ [96, 192, 384], bitsDecided steps n b →
        optimalBits .ln2 n b = ⌈n * Real.logb 2 (1 / p) / Real.log 2⌉₊) ∧
      ((∀ steps ∈ [96, 192, 384], ¬bitsDecided steps n b) → optimalBits .ln2 n b = Config.ln2BitsOpen n b)) ∧
    (∀ m n : Nat, 1 ≤ m → 1 ≤ n →
      (∀ width ∈ [96, 192, 384], probesDecided width m n → optimalProbes .ln2 m n = ⌈Real.log 2 * m / n⌉₊) ∧
      ((∀ width ∈ [96, 192, 384], ¬probesDecided width m n) → optimalProbes .ln2 m n = Config.ln2ProbesOpen m n)) ∧
    (∀ n b m k, (n, b, m, k) ∈ [(1000, 0x3C23D70A#32, 9586, 7), (1000000, 0x3C23D70A#32, 9585059, 7),
        (25, 0x3F000000#32, 37, 2), (1000, 0x0D800000#32, 144270, 101)] →
      bitsDecided 96 n b ∧ probesDecided 96 m n ∧ optimalBits .ln2 n b = m ∧ optimalProbes .ln2 m n = k)

/-! ## The hash family -/

/-- The seed word is the table entry plus the seed modulo 2^64, whether the seed is read as unsigned or as signed; the
table has exactly 100 entries, and under one seed distinct indices give distinct seed words, in every legal table (R26,
R112, R113, R119). -/
def Obligations.SeedWordsAreSumsAndDistinct : Prop :=
  (∀ (c : Int) (seed : Word), ((seedWord c seed).toNat : Int) = (c + seed.toNat) % 2 ^ 64 ∧
      ((seedWord c seed).toNat : Int) = (c + seed.toInt) % 2 ^ 64) ∧
    ∀ (table : SeedTable) (seed : Word), table.entries.length = 100 ∧
      ∀ (i j : Nat) (c d : Int), table.entries[i]? = some c → table.entries[j]? = some d → i ≠ j →
        seedWord c seed ≠ seedWord d seed

/-! ## Laws of the codec and of the filters -/

/-- After SETBIT, TESTBIT of a position that folds to the same bit gives 1, and of any other gives what it gave (R178). -/
def Obligations.TestbitAfterSetbit : Prop :=
  ∀ (s t : State) (pos' : Word), Memory.wf s.mem = true → exec .setbit s = .next t → t.code = 0#4 →
    s.admits .read (bitAddress s.buf0.base (fold pos' s.bitlen.toNat)) = true →
    ∃ u v, exec .testbit { t with pos := pos' } = .next u ∧ exec .testbit { s with pos := pos' } = .next v ∧
      u.code = 0#4 ∧ v.code = 0#4 ∧
      (fold pos' s.bitlen.toNat = fold s.pos s.bitlen.toNat → u.result = true) ∧
      (fold pos' s.bitlen.toNat ≠ fold s.pos s.bitlen.toNat → u.result = v.result)

/-- SETBIT twice leaves memory as SETBIT once, and two SETBITs of one array leave the same memory in either order (R178). -/
def Obligations.SetbitIsIdempotentAndCommutes : Prop :=
  (∀ s t : State, Memory.wf s.mem = true → exec .setbit s = .next t → ∃ u, exec .setbit t = .next u ∧ u.mem = t.mem) ∧
    ∀ (s t1 t2 : State) (pos' : Word), Memory.wf s.mem = true → exec .setbit s = .next t1 →
      exec .setbit { s with pos := pos' } = .next t2 →
      ∃ u1 u2, exec .setbit { t1 with pos := pos' } = .next u1 ∧ exec .setbit { t2 with pos := s.pos } = .next u2 ∧
        u1.mem = u2.mem

/-- INIT that ends OK makes a valid filter with the registers' seed, error rate and capacity and an all-zero bit array
(R143, R193, R200). -/
def Obligations.InitMakesAValidEmptyFilter : Prop :=
  ∀ s t : State, Memory.wf s.mem = true → exec .init s = .next t → t.code = 0#4 →
    t.headerAt s.buf0Base.toNat = ⟨s.seed, s.errorRate, s.capacity⟩ ∧
      (∃ m k, t.HoldsFilter s.buf0Base.toNat s.buf0Len.toNat m k) ∧
      ∀ q, q < 8 * (s.buf0Len.toNat - 20) → t.bitAt (s.buf0Base.toNat + 20) q = false

/-- On a filter whose bits are all 0, TEST of any element ends OK with RESULT 0 after exactly one probe (R210). -/
def Obligations.EmptyFilterTestsFalseAfterOneProbe : Prop :=
  ∀ (s : State) (B T m k : Nat), B = s.buf0Base.toNat → T = s.buf0Len.toNat → B + T ≤ 2 ^ 64 →
    s.elemBase.toNat + s.elemLen.toNat ≤ 2 ^ 64 → s.HoldsFilter B T m k →
    s.Admitted .read B T → s.Admitted .read s.elemBase.toNat s.elemLen.toNat →
    (∀ q, q < 8 * (T - 20) → s.bitAt (B + 20) q = false) →
    ∃ t events, exec .test s = .next t ∧ t.status = 0x000#32 ∧ t.trace = s.trace ++ events ∧
      hashCount events = 1 ∧ readCount events = 20 + s.elemLen.toNat + 1

/-- Adding an element twice leaves memory as adding it once, if the element does not lie in the buffer (R206). -/
def Obligations.AddIsIdempotent : Prop :=
  ∀ s t : State, Memory.wf s.mem = true → exec .add s = .next t → t.code = 0#4 → s.elem.overlaps s.buf0 = false →
    ∃ u, exec .add t = .next u ∧ u.code = 0#4 ∧ u.mem = t.mem

/-- No false negatives: once ADD of an element ends OK, then for as long as the filter's bytes are written by ADD and as
MERGE's destination only, TEST of the same element bytes on it ends OK with RESULT 1, whatever else the host and the engine
do in between, and for every hash primitive and seed table (R230). -/
def Obligations.NoFalseNegatives : Prop :=
  ∀ s t u : State, Memory.wf s.mem = true → exec .add s = .next t → t.code = 0#4 →
    FilterRun s.buf0.base s.buf0.len t u → u.buf0 = s.buf0 → u.elementBytes = s.elementBytes →
    u.elem.wellFormed = true → u.Admitted .read u.elem.base u.elem.len →
    ∃ v, exec .test u = .next v ∧ v.status = 0x100#32

/-- MERGE is commutative on the resulting bit array, and merging a filter into itself leaves memory as it was (R221). -/
def Obligations.MergeIsCommutativeAndIdempotent : Prop :=
  (∀ s t u : State, Memory.wf s.mem = true → exec .merge s = .next t → t.code = 0#4 →
      exec .merge { s with buf0Base := s.buf1Base, buf0Len := s.buf1Len, buf1Base := s.buf0Base, buf1Len := s.buf0Len } =
        .next u → u.code = 0#4 →
      ∀ j, 20 ≤ j → j < s.buf0Len.toNat → t.byteAt (s.buf0Base.toNat + j) = u.byteAt (s.buf1Base.toNat + j)) ∧
    ∀ s t : State, Memory.wf s.mem = true → exec .merge s = .next t → t.code = 0#4 → s.buf0 = s.buf1 → t.mem = s.mem

/-- After MERGE, TEST on the destination gives 1 for every element for which TEST gave 1 on either input before, if the
element does not lie in the destination (R221). -/
def Obligations.MergeKeepsTheMembersOfBoth : Prop :=
  ∀ s t u : State, Memory.wf s.mem = true → exec .merge s = .next t → t.code = 0#4 → s.elem.overlaps s.buf0 = false →
    (exec .test s = .next u ∨ exec .test { s with buf0Base := s.buf1Base, buf0Len := s.buf1Len } = .next u) →
    u.result = true → ∃ v, exec .test t = .next v ∧ v.status = 0x100#32

/-- A filter is its bytes, not its address: two valid filters with the same bytes at any two addresses, probed with the
same element bytes, give the same STATUS under TEST (R289). -/
def Obligations.EqualBytesAreEqualFilters : Prop :=
  ∀ s s' t t' : State, s.buf0.len = s'.buf0.len →
    s.bytesAt s.buf0.len s.buf0.base = s'.bytesAt s'.buf0.len s'.buf0.base → s.elementBytes = s'.elementBytes →
    s.buf0.wellFormed = true → s'.buf0.wellFormed = true → s.elem.wellFormed = true → s'.elem.wellFormed = true →
    exec .test s = .next t → exec .test s' = .next t' → t.status = t'.status

/-! ## The memory trace -/

/-- The accesses of an OK ending, counted (R300). -/
def Obligations.OperationCountsOfOkEndings : Prop :=
  ∀ (i : Instr) (s t : State), exec i s = .next t → t.code = 0#4 →
    ∃ events, t.trace = s.trace ++ events ∧
      match i with
      | .nop => readCount events = 0 ∧ writeCount events = 0 ∧ hashCount events = 0
      | .optbits => readCount events = 0 ∧ writeCount events = 0 ∧ hashCount events = 0
      | .optprobes => readCount events = 0 ∧ writeCount events = 0 ∧ hashCount events = 0
      | .derive => readCount events = 0 ∧ writeCount events = 0 ∧ hashCount events = 0
      | .probe => readCount events = s.elemLen.toNat ∧ writeCount events = 0 ∧ hashCount events = 1
      | .setbit => readCount events = 1 ∧ writeCount events = 1 ∧ hashCount events = 0
      | .testbit => readCount events = 1 ∧ writeCount events = 0 ∧ hashCount events = 0
      | .init => readCount events = 0 ∧ writeCount events = s.buf0Len.toNat ∧ hashCount events = 0
      | .add => ∃ m k, s.HoldsFilter s.buf0Base.toNat s.buf0Len.toNat m k ∧
          readCount events = 20 + s.elemLen.toNat + k ∧ writeCount events = k ∧ hashCount events = k
      | .test => ∃ m k j, s.HoldsFilter s.buf0Base.toNat s.buf0Len.toNat m k ∧ 1 ≤ j ∧ j ≤ k ∧
          (t.result = true → j = k) ∧
          readCount events = 20 + s.elemLen.toNat + j ∧ writeCount events = 0 ∧ hashCount events = j
      | .merge => readCount events = 40 + 2 * (s.buf0Len.toNat - 20) ∧ writeCount events = s.buf0Len.toNat - 20 ∧
          hashCount events = 0

/-- Every access of a command lies in a range its descriptors name, as R76 tables it; the writes of ADD and MERGE lie behind
the destination's header (R66, R76). -/
def Obligations.AccessesStayInTheFootprint : Prop :=
  ∀ (i : Instr) (s t : State) (events : List PortEvent), exec i s = .next t → t.trace = s.trace ++ events →
    ∀ e ∈ events, match e with
      | .read a _ =>
        (i ∈ [Instr.probe, .add, .test] ∧ inRange s.elem.base s.elem.len a = true) ∨
          (i ∈ [Instr.setbit, .testbit, .add, .test, .merge] ∧ inRange s.buf0.base s.buf0.len a = true) ∨
          (i = .merge ∧ inRange s.buf1.base s.buf1.len a = true)
      | .write a _ =>
        (i ∈ [Instr.setbit, .init] ∧ inRange s.buf0.base s.buf0.len a = true) ∨
          (i ∈ [Instr.add, .merge] ∧ inRange (s.buf0.base + 20) (s.buf0.len - 20) a = true)
      | .hash _ => i ∈ [Instr.probe, .add, .test]

/-- A command's accesses are sequentially consistent: performed one after the other on the memory before, every read
returns what memory then holds, and the memory they leave is the memory after (R74, R78). -/
def Obligations.AccessesReplayToTheNewMemory : Prop :=
  ∀ (i : Instr) (s t : State), exec i s = .next t →
    ∃ events, t.trace = s.trace ++ events ∧ replay s.mem events = some t.mem

/-- Whatever prefix of its accesses ADD, SETBIT or MERGE has performed, bits have only gone from 0 to 1 (R70, R81, R282). -/
def Obligations.EveryPrefixOnlySetsBits : Prop :=
  ∀ (i : Instr) (s t : State) (before after : List PortEvent) (mem : Memory), i ∈ [Instr.add, .setbit, .merge] →
    Memory.wf s.mem = true → exec i s = .next t → t.trace = s.trace ++ (before ++ after) → replay s.mem before = some mem →
    ∀ a j, (Memory.read s.mem a).getLsbD j = true → (Memory.read mem a).getLsbD j = true

/-! ## The invariant -/

/-- The machine right after reset meets the invariant. -/
def Obligations.ResetMeetsTheInvariant : Prop := State.reset.Inv

/-- Every step keeps the invariant: canonical memory, a STATUS in keeping with the last command word, K and NBYTES in
their ranges (R24, R32, R33, R40, R74, R248). -/
def Obligations.EveryStepKeepsTheInvariant : Prop := ∀ s t : State, s.Inv → step s = .next t → t.Inv

/-! ## The host commands -/

/-- The expansions of `add`, `exists` and `merge` set the operand registers and then run ADD, TEST and MERGE. The one of
`init` runs DERIVE on the given or default capacity and error rate and the given seed, and, once the host has allocated the
buffer, INIT on it (R97, R98). That `init` comes in two parts is the model's choice (log entry 12). -/
def Obligations.HostCommandsRunTheirCommand : Prop :=
  ∀ (s : State) (rest : List HostAction) (a b c d : Word) (capacity : Option Word) (errorRate : Option Half),
    (s.hostQueue = hostAdd a b c d ++ rest → Sys2Proof.core.run 5 s = exec .add { s with
      buf0Base := a, buf0Len := b, elemBase := c, elemLen := d, cmd := 0x00000009#32, trace := [], hostQueue := rest }) ∧
    (s.hostQueue = hostExists a b c d ++ rest → Sys2Proof.core.run 5 s = exec .test { s with
      buf0Base := a, buf0Len := b, elemBase := c, elemLen := d, cmd := 0x0000000A#32, trace := []
      hostQueue := .readSlot 1 :: rest }) ∧
    (s.hostQueue = hostMerge a b c d ++ rest → Sys2Proof.core.run 5 s = exec .merge { s with
      buf0Base := a, buf0Len := b, buf1Base := c, buf1Len := d, cmd := 0x0000000B#32, trace := [], hostQueue := rest }) ∧
    (s.hostQueue = hostInitDerive capacity errorRate a ++ rest → Sys2Proof.core.run 4 s = exec .derive { s with
      capacity := capacity.getD 1000000#64, errorRate := errorRate.getD 0x3C23D70A#32, seed := a, cmd := 0x00000003#32
      trace := [], hostQueue := .readSlot 14 :: rest }) ∧
    (s.hostQueue = hostInitCreate a b ++ rest → Sys2Proof.core.run 3 s = exec .init { s with
      buf0Base := a, buf0Len := b, cmd := 0x00000008#32, trace := [], hostQueue := rest })
end

