-- ==== Sys2Proof/Laws/Memory.lean ====
section
/-! SUPPORT. The laws of buffer memory (spec R74): a read after a write, and the canonical form, which every memory operation
keeps and which makes equal contents equal lists. -/

namespace Sys2Proof.Machine

/-- Below the first listed address nothing is listed. -/
theorem read_below (m : Memory) (lo a : Nat) (h : Memory.wfFrom lo m = true) (ha : a < lo) :
    Memory.read m a = unlistedByte := by
  induction m generalizing lo with
  | nil => rfl
  | cons c rest ih =>
    simp only [Memory.wfFrom, Bool.and_eq_true, decide_eq_true_eq] at h
    simp only [Memory.read]
    rw [if_neg (by omega)]
    exact ih _ h.2 (by omega)

theorem wfFrom_weaken (m : Memory) (lo lo' : Nat) (hl : lo' ≤ lo) (h : Memory.wfFrom lo m = true) :
    Memory.wfFrom lo' m = true := by
  cases m with
  | nil => rfl
  | cons c rest =>
    simp only [Memory.wfFrom, Bool.and_eq_true, decide_eq_true_eq] at h ⊢
    exact ⟨⟨⟨by omega, h.1.1.2⟩, h.1.2⟩, h.2⟩

/-- A read of the byte just written returns it; every other byte is as before (R74). -/
theorem read_write (mem : Memory) (lo : Nat) (h : Memory.wfFrom lo mem = true) (a b : Nat) (v : Byte) :
    Memory.read (Memory.write mem a v) b = if a = b then v else Memory.read mem b := by
  induction mem generalizing lo with
  | nil =>
    simp only [Memory.write]
    split <;> simp_all [Memory.read]
  | cons c rest ih =>
    obtain ⟨k, w⟩ := c
    have h' := h
    simp only [Memory.wfFrom, Bool.and_eq_true, decide_eq_true_eq] at h
    simp only [Memory.write]
    by_cases hlt : a < k
    · simp only [hlt, if_true]
      by_cases hv : v = unlistedByte
      · simp only [hv, if_true]
        by_cases hab : a = b
        · subst hab
          simp only [if_true, Memory.read]
          rw [if_neg (by omega)]
          exact read_below _ _ _ h.2 (by omega)
        · simp [hab]
      · simp [hv, Memory.read]
    · simp only [hlt, if_false]
      by_cases hak : a = k
      · subst hak
        by_cases hv : v = unlistedByte
        · simp only [hv, if_true]
          by_cases hab : a = b
          · subst hab
            simp only [if_true]
            exact read_below _ _ _ h.2 (by omega)
          · simp [hab, Memory.read]
        · by_cases hab : a = b <;> simp [hv, hab, Memory.read]
      · simp only [hak, if_false, Memory.read]
        rw [ih _ h.2]
        by_cases hkb : k = b
        · subst hkb
          simp [hak]
        · simp [hkb]

theorem read_write_same (mem : Memory) (h : Memory.wf mem = true) (a : Nat) (v : Byte) :
    Memory.read (Memory.write mem a v) a = v := by simp [read_write mem 0 h]

theorem read_write_other (mem : Memory) (h : Memory.wf mem = true) (a b : Nat) (v : Byte) (hab : a ≠ b) :
    Memory.read (Memory.write mem a v) b = Memory.read mem b := by simp [read_write mem 0 h, hab]

/-- A write inside the address space keeps the canonical form. -/
theorem write_wfFrom (mem : Memory) (lo : Nat) (h : Memory.wfFrom lo mem = true) (a : Nat) (v : Byte) (hlo : lo ≤ a)
    (ha : a < addressSpace) : Memory.wfFrom lo (Memory.write mem a v) = true := by
  induction mem generalizing lo with
  | nil =>
    simp only [Memory.write]
    split
    · rfl
    · simp only [Memory.wfFrom, Bool.and_eq_true, decide_eq_true_eq]
      exact ⟨⟨⟨hlo, ha⟩, by assumption⟩, trivial⟩
  | cons c rest ih =>
    obtain ⟨k, w⟩ := c
    have h0 := h
    simp only [Memory.wfFrom, Bool.and_eq_true, decide_eq_true_eq] at h
    simp only [Memory.write]
    split
    · split
      · exact h0
      · simp only [Memory.wfFrom, Bool.and_eq_true, decide_eq_true_eq]
        exact ⟨⟨⟨hlo, ha⟩, by assumption⟩, ⟨⟨by omega, h.1.1.2⟩, h.1.2⟩, h.2⟩
    · split
      · split
        · exact wfFrom_weaken _ _ _ (by omega) h.2
        · simp only [Memory.wfFrom, Bool.and_eq_true, decide_eq_true_eq]
          refine ⟨⟨⟨hlo, ha⟩, by assumption⟩, ?_⟩
          subst_vars
          exact h.2
      · simp only [Memory.wfFrom, Bool.and_eq_true, decide_eq_true_eq]
        exact ⟨h.1, ih _ h.2 (by omega)⟩

theorem write_wf (mem : Memory) (h : Memory.wf mem = true) (a : Nat) (v : Byte) (ha : a < addressSpace) :
    Memory.wf (Memory.write mem a v) = true := write_wfFrom mem 0 h a v (Nat.zero_le _) ha

/-- Canonical memories with equal contents are equal data. -/
theorem wf_ext (m m' : Memory) (h : Memory.wf m = true) (h' : Memory.wf m' = true)
    (heq : ∀ a, Memory.read m a = Memory.read m' a) : m = m' := by
  have key : ∀ (m m' : Memory) (lo lo' : Nat), Memory.wfFrom lo m = true → Memory.wfFrom lo' m' = true →
      (∀ a, Memory.read m a = Memory.read m' a) → m = m' := by
    intro m
    induction m with
    | nil =>
      intro m' lo lo' _ h' heq
      cases m' with
      | nil => rfl
      | cons c rest =>
        simp only [Memory.wfFrom, Bool.and_eq_true, decide_eq_true_eq] at h'
        have := heq c.1
        simp only [Memory.read, if_true] at this
        exact absurd this.symm h'.1.2
    | cons c rest ih =>
      intro m' lo lo' h h' heq
      simp only [Memory.wfFrom, Bool.and_eq_true, decide_eq_true_eq] at h
      cases m' with
      | nil =>
        have := heq c.1
        simp only [Memory.read, if_true] at this
        exact absurd this h.1.2
      | cons c' rest' =>
        simp only [Memory.wfFrom, Bool.and_eq_true, decide_eq_true_eq] at h'
        have hk : c.1 = c'.1 := by
          rcases Nat.lt_trichotomy c.1 c'.1 with hlt | he | hgt
          · have := heq c.1
            simp only [Memory.read, if_true] at this
            rw [if_neg (by omega), read_below _ _ _ h'.2 (by omega)] at this
            exact absurd this h.1.2
          · exact he
          · have := heq c'.1
            simp only [Memory.read, if_true] at this
            rw [if_neg (by omega), read_below _ _ _ h.2 (by omega)] at this
            exact absurd this.symm h'.1.2
        have hv : c.2 = c'.2 := by
          have := heq c.1
          simpa only [Memory.read, if_true, if_pos hk.symm] using this
        have hr : rest = rest' := by
          refine ih _ _ _ h.2 h'.2 fun a => ?_
          by_cases ha : c.1 = a
          · rw [read_below _ _ _ h.2 (by omega), read_below _ _ _ h'.2 (by omega)]
          · have := heq a
            simpa only [Memory.read, if_neg ha, if_neg (hk ▸ ha)] using this
        rw [hr, Prod.ext hk hv]
  exact key m m' 0 0 h h' heq

end Sys2Proof.Machine
end

