-- ==== Sys2Proof/Laws/State.lean ====
section
/-! SUPPORT. One lemma per field of State for each update by a named operation of Machine/Ops.lean and Machine/Window.lean,
and for the register view `State.get`. -/

namespace Sys2Proof.Machine

/-! ## `log` -/

@[simp] theorem log_cmd (s : State) (e : PortEvent) : (s.log e).cmd = s.cmd := rfl
@[simp] theorem log_status (s : State) (e : PortEvent) : (s.log e).status = s.status := rfl
@[simp] theorem log_buf0Base (s : State) (e : PortEvent) : (s.log e).buf0Base = s.buf0Base := rfl
@[simp] theorem log_buf0Len (s : State) (e : PortEvent) : (s.log e).buf0Len = s.buf0Len := rfl
@[simp] theorem log_buf1Base (s : State) (e : PortEvent) : (s.log e).buf1Base = s.buf1Base := rfl
@[simp] theorem log_buf1Len (s : State) (e : PortEvent) : (s.log e).buf1Len = s.buf1Len := rfl
@[simp] theorem log_elemBase (s : State) (e : PortEvent) : (s.log e).elemBase = s.elemBase := rfl
@[simp] theorem log_elemLen (s : State) (e : PortEvent) : (s.log e).elemLen = s.elemLen := rfl
@[simp] theorem log_seed (s : State) (e : PortEvent) : (s.log e).seed = s.seed := rfl
@[simp] theorem log_capacity (s : State) (e : PortEvent) : (s.log e).capacity = s.capacity := rfl
@[simp] theorem log_errorRate (s : State) (e : PortEvent) : (s.log e).errorRate = s.errorRate := rfl
@[simp] theorem log_idx (s : State) (e : PortEvent) : (s.log e).idx = s.idx := rfl
@[simp] theorem log_m (s : State) (e : PortEvent) : (s.log e).m = s.m := rfl
@[simp] theorem log_k (s : State) (e : PortEvent) : (s.log e).k = s.k := rfl
@[simp] theorem log_nbytes (s : State) (e : PortEvent) : (s.log e).nbytes = s.nbytes := rfl
@[simp] theorem log_bitlen (s : State) (e : PortEvent) : (s.log e).bitlen = s.bitlen := rfl
@[simp] theorem log_pos (s : State) (e : PortEvent) : (s.log e).pos = s.pos := rfl
@[simp] theorem log_hashLo (s : State) (e : PortEvent) : (s.log e).hashLo = s.hashLo := rfl
@[simp] theorem log_hashHi (s : State) (e : PortEvent) : (s.log e).hashHi = s.hashHi := rfl
@[simp] theorem log_mem (s : State) (e : PortEvent) : (s.log e).mem = s.mem := rfl
@[simp] theorem log_denied (s : State) (e : PortEvent) : (s.log e).denied = s.denied := rfl
@[simp] theorem log_hostQueue (s : State) (e : PortEvent) : (s.log e).hostQueue = s.hostQueue := rfl
@[simp] theorem log_hostRead (s : State) (e : PortEvent) : (s.log e).hostRead = s.hostRead := rfl
@[simp] theorem log_trace (s : State) (e : PortEvent) : (s.log e).trace = s.trace ++ [e] := rfl

/-! ## `store` -/

@[simp] theorem store_cmd (s : State) (a : Nat) (v : Byte) : (s.store a v).cmd = s.cmd := rfl
@[simp] theorem store_status (s : State) (a : Nat) (v : Byte) : (s.store a v).status = s.status := rfl
@[simp] theorem store_buf0Base (s : State) (a : Nat) (v : Byte) : (s.store a v).buf0Base = s.buf0Base := rfl
@[simp] theorem store_buf0Len (s : State) (a : Nat) (v : Byte) : (s.store a v).buf0Len = s.buf0Len := rfl
@[simp] theorem store_buf1Base (s : State) (a : Nat) (v : Byte) : (s.store a v).buf1Base = s.buf1Base := rfl
@[simp] theorem store_buf1Len (s : State) (a : Nat) (v : Byte) : (s.store a v).buf1Len = s.buf1Len := rfl
@[simp] theorem store_elemBase (s : State) (a : Nat) (v : Byte) : (s.store a v).elemBase = s.elemBase := rfl
@[simp] theorem store_elemLen (s : State) (a : Nat) (v : Byte) : (s.store a v).elemLen = s.elemLen := rfl
@[simp] theorem store_seed (s : State) (a : Nat) (v : Byte) : (s.store a v).seed = s.seed := rfl
@[simp] theorem store_capacity (s : State) (a : Nat) (v : Byte) : (s.store a v).capacity = s.capacity := rfl
@[simp] theorem store_errorRate (s : State) (a : Nat) (v : Byte) : (s.store a v).errorRate = s.errorRate := rfl
@[simp] theorem store_idx (s : State) (a : Nat) (v : Byte) : (s.store a v).idx = s.idx := rfl
@[simp] theorem store_m (s : State) (a : Nat) (v : Byte) : (s.store a v).m = s.m := rfl
@[simp] theorem store_k (s : State) (a : Nat) (v : Byte) : (s.store a v).k = s.k := rfl
@[simp] theorem store_nbytes (s : State) (a : Nat) (v : Byte) : (s.store a v).nbytes = s.nbytes := rfl
@[simp] theorem store_bitlen (s : State) (a : Nat) (v : Byte) : (s.store a v).bitlen = s.bitlen := rfl
@[simp] theorem store_pos (s : State) (a : Nat) (v : Byte) : (s.store a v).pos = s.pos := rfl
@[simp] theorem store_hashLo (s : State) (a : Nat) (v : Byte) : (s.store a v).hashLo = s.hashLo := rfl
@[simp] theorem store_hashHi (s : State) (a : Nat) (v : Byte) : (s.store a v).hashHi = s.hashHi := rfl
@[simp] theorem store_mem (s : State) (a : Nat) (v : Byte) : (s.store a v).mem = Memory.write s.mem a v := rfl
@[simp] theorem store_denied (s : State) (a : Nat) (v : Byte) : (s.store a v).denied = s.denied := rfl
@[simp] theorem store_hostQueue (s : State) (a : Nat) (v : Byte) : (s.store a v).hostQueue = s.hostQueue := rfl
@[simp] theorem store_hostRead (s : State) (a : Nat) (v : Byte) : (s.store a v).hostRead = s.hostRead := rfl
@[simp] theorem store_trace (s : State) (a : Nat) (v : Byte) : (s.store a v).trace = s.trace := rfl

/-! ## `raise` -/

@[simp] theorem raise_cmd (s : State) (c : ErrorCode) : (raise c s).cmd = s.cmd := rfl
@[simp] theorem raise_status (s : State) (c : ErrorCode) : (raise c s).status = statusOfError c := rfl
@[simp] theorem raise_buf0Base (s : State) (c : ErrorCode) : (raise c s).buf0Base = s.buf0Base := rfl
@[simp] theorem raise_buf0Len (s : State) (c : ErrorCode) : (raise c s).buf0Len = s.buf0Len := rfl
@[simp] theorem raise_buf1Base (s : State) (c : ErrorCode) : (raise c s).buf1Base = s.buf1Base := rfl
@[simp] theorem raise_buf1Len (s : State) (c : ErrorCode) : (raise c s).buf1Len = s.buf1Len := rfl
@[simp] theorem raise_elemBase (s : State) (c : ErrorCode) : (raise c s).elemBase = s.elemBase := rfl
@[simp] theorem raise_elemLen (s : State) (c : ErrorCode) : (raise c s).elemLen = s.elemLen := rfl
@[simp] theorem raise_seed (s : State) (c : ErrorCode) : (raise c s).seed = s.seed := rfl
@[simp] theorem raise_capacity (s : State) (c : ErrorCode) : (raise c s).capacity = s.capacity := rfl
@[simp] theorem raise_errorRate (s : State) (c : ErrorCode) : (raise c s).errorRate = s.errorRate := rfl
@[simp] theorem raise_idx (s : State) (c : ErrorCode) : (raise c s).idx = s.idx := rfl
@[simp] theorem raise_m (s : State) (c : ErrorCode) : (raise c s).m = s.m := rfl
@[simp] theorem raise_k (s : State) (c : ErrorCode) : (raise c s).k = s.k := rfl
@[simp] theorem raise_nbytes (s : State) (c : ErrorCode) : (raise c s).nbytes = s.nbytes := rfl
@[simp] theorem raise_bitlen (s : State) (c : ErrorCode) : (raise c s).bitlen = s.bitlen := rfl
@[simp] theorem raise_pos (s : State) (c : ErrorCode) : (raise c s).pos = s.pos := rfl
@[simp] theorem raise_hashLo (s : State) (c : ErrorCode) : (raise c s).hashLo = s.hashLo := rfl
@[simp] theorem raise_hashHi (s : State) (c : ErrorCode) : (raise c s).hashHi = s.hashHi := rfl
@[simp] theorem raise_mem (s : State) (c : ErrorCode) : (raise c s).mem = s.mem := rfl
@[simp] theorem raise_denied (s : State) (c : ErrorCode) : (raise c s).denied = s.denied := rfl
@[simp] theorem raise_hostQueue (s : State) (c : ErrorCode) : (raise c s).hostQueue = s.hostQueue := rfl
@[simp] theorem raise_hostRead (s : State) (c : ErrorCode) : (raise c s).hostRead = s.hostRead := rfl
@[simp] theorem raise_trace (s : State) (c : ErrorCode) : (raise c s).trace = s.trace := rfl

/-! ## `done` -/

@[simp] theorem done_cmd (s : State) (r : Bool) : (done r s).cmd = s.cmd := rfl
@[simp] theorem done_status (s : State) (r : Bool) : (done r s).status = statusOfResult r := rfl
@[simp] theorem done_buf0Base (s : State) (r : Bool) : (done r s).buf0Base = s.buf0Base := rfl
@[simp] theorem done_buf0Len (s : State) (r : Bool) : (done r s).buf0Len = s.buf0Len := rfl
@[simp] theorem done_buf1Base (s : State) (r : Bool) : (done r s).buf1Base = s.buf1Base := rfl
@[simp] theorem done_buf1Len (s : State) (r : Bool) : (done r s).buf1Len = s.buf1Len := rfl
@[simp] theorem done_elemBase (s : State) (r : Bool) : (done r s).elemBase = s.elemBase := rfl
@[simp] theorem done_elemLen (s : State) (r : Bool) : (done r s).elemLen = s.elemLen := rfl
@[simp] theorem done_seed (s : State) (r : Bool) : (done r s).seed = s.seed := rfl
@[simp] theorem done_capacity (s : State) (r : Bool) : (done r s).capacity = s.capacity := rfl
@[simp] theorem done_errorRate (s : State) (r : Bool) : (done r s).errorRate = s.errorRate := rfl
@[simp] theorem done_idx (s : State) (r : Bool) : (done r s).idx = s.idx := rfl
@[simp] theorem done_m (s : State) (r : Bool) : (done r s).m = s.m := rfl
@[simp] theorem done_k (s : State) (r : Bool) : (done r s).k = s.k := rfl
@[simp] theorem done_nbytes (s : State) (r : Bool) : (done r s).nbytes = s.nbytes := rfl
@[simp] theorem done_bitlen (s : State) (r : Bool) : (done r s).bitlen = s.bitlen := rfl
@[simp] theorem done_pos (s : State) (r : Bool) : (done r s).pos = s.pos := rfl
@[simp] theorem done_hashLo (s : State) (r : Bool) : (done r s).hashLo = s.hashLo := rfl
@[simp] theorem done_hashHi (s : State) (r : Bool) : (done r s).hashHi = s.hashHi := rfl
@[simp] theorem done_mem (s : State) (r : Bool) : (done r s).mem = s.mem := rfl
@[simp] theorem done_denied (s : State) (r : Bool) : (done r s).denied = s.denied := rfl
@[simp] theorem done_hostQueue (s : State) (r : Bool) : (done r s).hostQueue = s.hostQueue := rfl
@[simp] theorem done_hostRead (s : State) (r : Bool) : (done r s).hostRead = s.hostRead := rfl
@[simp] theorem done_trace (s : State) (r : Bool) : (done r s).trace = s.trace := rfl

/-! ## `startCommand` -/

@[simp] theorem startCommand_cmd (s : State) (w : Half) : (startCommand s w).cmd = w := rfl
@[simp] theorem startCommand_status (s : State) (w : Half) : (startCommand s w).status = s.status := rfl
@[simp] theorem startCommand_buf0Base (s : State) (w : Half) : (startCommand s w).buf0Base = s.buf0Base := rfl
@[simp] theorem startCommand_buf0Len (s : State) (w : Half) : (startCommand s w).buf0Len = s.buf0Len := rfl
@[simp] theorem startCommand_buf1Base (s : State) (w : Half) : (startCommand s w).buf1Base = s.buf1Base := rfl
@[simp] theorem startCommand_buf1Len (s : State) (w : Half) : (startCommand s w).buf1Len = s.buf1Len := rfl
@[simp] theorem startCommand_elemBase (s : State) (w : Half) : (startCommand s w).elemBase = s.elemBase := rfl
@[simp] theorem startCommand_elemLen (s : State) (w : Half) : (startCommand s w).elemLen = s.elemLen := rfl
@[simp] theorem startCommand_seed (s : State) (w : Half) : (startCommand s w).seed = s.seed := rfl
@[simp] theorem startCommand_capacity (s : State) (w : Half) : (startCommand s w).capacity = s.capacity := rfl
@[simp] theorem startCommand_errorRate (s : State) (w : Half) : (startCommand s w).errorRate = s.errorRate := rfl
@[simp] theorem startCommand_idx (s : State) (w : Half) : (startCommand s w).idx = s.idx := rfl
@[simp] theorem startCommand_m (s : State) (w : Half) : (startCommand s w).m = s.m := rfl
@[simp] theorem startCommand_k (s : State) (w : Half) : (startCommand s w).k = s.k := rfl
@[simp] theorem startCommand_nbytes (s : State) (w : Half) : (startCommand s w).nbytes = s.nbytes := rfl
@[simp] theorem startCommand_bitlen (s : State) (w : Half) : (startCommand s w).bitlen = s.bitlen := rfl
@[simp] theorem startCommand_pos (s : State) (w : Half) : (startCommand s w).pos = s.pos := rfl
@[simp] theorem startCommand_hashLo (s : State) (w : Half) : (startCommand s w).hashLo = s.hashLo := rfl
@[simp] theorem startCommand_hashHi (s : State) (w : Half) : (startCommand s w).hashHi = s.hashHi := rfl
@[simp] theorem startCommand_mem (s : State) (w : Half) : (startCommand s w).mem = s.mem := rfl
@[simp] theorem startCommand_denied (s : State) (w : Half) : (startCommand s w).denied = s.denied := rfl
@[simp] theorem startCommand_hostQueue (s : State) (w : Half) : (startCommand s w).hostQueue = s.hostQueue := rfl
@[simp] theorem startCommand_hostRead (s : State) (w : Half) : (startCommand s w).hostRead = s.hostRead := rfl
@[simp] theorem startCommand_trace (s : State) (w : Half) : (startCommand s w).trace = [] := rfl

/-! ## `resetEngine` -/

@[simp] theorem resetEngine_cmd (s : State) : (resetEngine s).cmd = 0#32 := rfl
@[simp] theorem resetEngine_status (s : State) : (resetEngine s).status = 0#32 := rfl
@[simp] theorem resetEngine_buf0Base (s : State) : (resetEngine s).buf0Base = 0#64 := rfl
@[simp] theorem resetEngine_buf0Len (s : State) : (resetEngine s).buf0Len = 0#64 := rfl
@[simp] theorem resetEngine_buf1Base (s : State) : (resetEngine s).buf1Base = 0#64 := rfl
@[simp] theorem resetEngine_buf1Len (s : State) : (resetEngine s).buf1Len = 0#64 := rfl
@[simp] theorem resetEngine_elemBase (s : State) : (resetEngine s).elemBase = 0#64 := rfl
@[simp] theorem resetEngine_elemLen (s : State) : (resetEngine s).elemLen = 0#64 := rfl
@[simp] theorem resetEngine_seed (s : State) : (resetEngine s).seed = 0#64 := rfl
@[simp] theorem resetEngine_capacity (s : State) : (resetEngine s).capacity = 0#64 := rfl
@[simp] theorem resetEngine_errorRate (s : State) : (resetEngine s).errorRate = 0#32 := rfl
@[simp] theorem resetEngine_idx (s : State) : (resetEngine s).idx = 0#32 := rfl
@[simp] theorem resetEngine_m (s : State) : (resetEngine s).m = 0#64 := rfl
@[simp] theorem resetEngine_k (s : State) : (resetEngine s).k = 0#64 := rfl
@[simp] theorem resetEngine_nbytes (s : State) : (resetEngine s).nbytes = 0#64 := rfl
@[simp] theorem resetEngine_bitlen (s : State) : (resetEngine s).bitlen = 0#64 := rfl
@[simp] theorem resetEngine_pos (s : State) : (resetEngine s).pos = 0#64 := rfl
@[simp] theorem resetEngine_hashLo (s : State) : (resetEngine s).hashLo = 0#64 := rfl
@[simp] theorem resetEngine_hashHi (s : State) : (resetEngine s).hashHi = 0#64 := rfl
@[simp] theorem resetEngine_mem (s : State) : (resetEngine s).mem = s.mem := rfl
@[simp] theorem resetEngine_denied (s : State) : (resetEngine s).denied = s.denied := rfl
@[simp] theorem resetEngine_hostQueue (s : State) : (resetEngine s).hostQueue = s.hostQueue := rfl
@[simp] theorem resetEngine_hostRead (s : State) : (resetEngine s).hostRead = s.hostRead := rfl
@[simp] theorem resetEngine_trace (s : State) : (resetEngine s).trace = s.trace := rfl

/-! ## `unrestricted` -/

@[simp] theorem unrestricted_cmd (s : State) : s.unrestricted.cmd = s.cmd := rfl
@[simp] theorem unrestricted_status (s : State) : s.unrestricted.status = s.status := rfl
@[simp] theorem unrestricted_buf0Base (s : State) : s.unrestricted.buf0Base = s.buf0Base := rfl
@[simp] theorem unrestricted_buf0Len (s : State) : s.unrestricted.buf0Len = s.buf0Len := rfl
@[simp] theorem unrestricted_buf1Base (s : State) : s.unrestricted.buf1Base = s.buf1Base := rfl
@[simp] theorem unrestricted_buf1Len (s : State) : s.unrestricted.buf1Len = s.buf1Len := rfl
@[simp] theorem unrestricted_elemBase (s : State) : s.unrestricted.elemBase = s.elemBase := rfl
@[simp] theorem unrestricted_elemLen (s : State) : s.unrestricted.elemLen = s.elemLen := rfl
@[simp] theorem unrestricted_seed (s : State) : s.unrestricted.seed = s.seed := rfl
@[simp] theorem unrestricted_capacity (s : State) : s.unrestricted.capacity = s.capacity := rfl
@[simp] theorem unrestricted_errorRate (s : State) : s.unrestricted.errorRate = s.errorRate := rfl
@[simp] theorem unrestricted_idx (s : State) : s.unrestricted.idx = s.idx := rfl
@[simp] theorem unrestricted_m (s : State) : s.unrestricted.m = s.m := rfl
@[simp] theorem unrestricted_k (s : State) : s.unrestricted.k = s.k := rfl
@[simp] theorem unrestricted_nbytes (s : State) : s.unrestricted.nbytes = s.nbytes := rfl
@[simp] theorem unrestricted_bitlen (s : State) : s.unrestricted.bitlen = s.bitlen := rfl
@[simp] theorem unrestricted_pos (s : State) : s.unrestricted.pos = s.pos := rfl
@[simp] theorem unrestricted_hashLo (s : State) : s.unrestricted.hashLo = s.hashLo := rfl
@[simp] theorem unrestricted_hashHi (s : State) : s.unrestricted.hashHi = s.hashHi := rfl
@[simp] theorem unrestricted_mem (s : State) : s.unrestricted.mem = s.mem := rfl
@[simp] theorem unrestricted_hostQueue (s : State) : s.unrestricted.hostQueue = s.hostQueue := rfl
@[simp] theorem unrestricted_hostRead (s : State) : s.unrestricted.hostRead = s.hostRead := rfl
@[simp] theorem unrestricted_trace (s : State) : s.unrestricted.trace = s.trace := rfl
@[simp] theorem unrestricted_denied (s : State) : s.unrestricted.denied = [] := rfl

/-! ## The register view -/

@[simp] theorem log_get (s : State) (e : PortEvent) (r : RegName) : (s.log e).get r = s.get r := by cases r <;> rfl

@[simp] theorem store_get (s : State) (a : Nat) (v : Byte) (r : RegName) : (s.store a v).get r = s.get r := by
  cases r <;> rfl

theorem raise_get (s : State) (c : ErrorCode) (r : RegName) (h : r ≠ .status) : (raise c s).get r = s.get r := by
  cases r <;> first | rfl | exact absurd rfl h

theorem done_get (s : State) (b : Bool) (r : RegName) (h : r ≠ .status) : (done b s).get r = s.get r := by
  cases r <;> first | rfl | exact absurd rfl h

/-- A register reads back exactly the bits written, the bits above its width dropped (spec R37). -/
theorem get_set_same (s : State) (r : RegName) (v : Word) : (s.set r v).get r = (v.setWidth r.width).setWidth 64 := by
  cases r <;> simp [State.get, State.set, RegName.width]

/-- Setting a register leaves every other register alone (spec R21: no aliases). -/
theorem get_set_other (s : State) (r r' : RegName) (v : Word) (h : r' ≠ r) : (s.set r v).get r' = s.get r' := by
  cases r <;> cases r' <;> first | rfl | exact absurd rfl h

@[simp] theorem set_mem (s : State) (r : RegName) (v : Word) : (s.set r v).mem = s.mem := by cases r <;> rfl
@[simp] theorem set_denied (s : State) (r : RegName) (v : Word) : (s.set r v).denied = s.denied := by cases r <;> rfl
@[simp] theorem set_hostQueue (s : State) (r : RegName) (v : Word) : (s.set r v).hostQueue = s.hostQueue := by
  cases r <;> rfl
@[simp] theorem set_hostRead (s : State) (r : RegName) (v : Word) : (s.set r v).hostRead = s.hostRead := by
  cases r <;> rfl
@[simp] theorem set_trace (s : State) (r : RegName) (v : Word) : (s.set r v).trace = s.trace := by cases r <;> rfl

end Sys2Proof.Machine
end

