-- ==== Sys2Proof/Laws/Port.lean ====
section
/-! SUPPORT. What the memory port's operations answer: one inversion lemma (if it answers next, then ...) and one completion
lemma (if the accesses are admitted, it answers ...) per operation of Machine/Ops.lean. -/

namespace Sys2Proof.Machine

/-! ## Sequencing -/

@[simp] theorem except_bind_ok {α β : Type} (a : α) (f : α → Except Fault β) : (Except.ok a >>= f) = f a := rfl
@[simp] theorem except_bind_error {α β : Type} (e : Fault) (f : α → Except Fault β) :
    ((Except.error e : Except Fault α) >>= f) = Except.error e := rfl
@[simp] theorem except_pure {α : Type} (a : α) : (pure a : Except Fault α) = Except.ok a := rfl

/-- A sequence that answers did so through an answer of its first part. -/
theorem except_bind_eq_ok {α β : Type} {x : Except Fault α} {f : α → Except Fault β} {b : β}
    (h : (x >>= f) = Except.ok b) : ∃ a, x = Except.ok a ∧ f a = Except.ok b := by
  cases x with
  | error e => cases h
  | ok a => exact ⟨a, rfl, h⟩

theorem finish_eq_next {r : Run} {t : State} (h : finish r = .next t) : r = .ok t := by
  cases r with
  | error e => cases h
  | ok s => cases h; rfl

@[simp] theorem finish_ok (s : State) : finish (.ok s) = .next s := rfl

/-! ## Reading memory through an update -/

@[simp] theorem log_byteAt (s : State) (e : PortEvent) (a : Nat) : (s.log e).byteAt a = s.byteAt a := rfl
@[simp] theorem raise_byteAt (s : State) (c : ErrorCode) (a : Nat) : (raise c s).byteAt a = s.byteAt a := rfl
@[simp] theorem done_byteAt (s : State) (b : Bool) (a : Nat) : (done b s).byteAt a = s.byteAt a := rfl

theorem store_byteAt (s : State) (h : Memory.wf s.mem = true) (a b : Nat) (v : Byte) :
    (s.store a v).byteAt b = if a = b then v else s.byteAt b := read_write s.mem 0 h a b v

theorem bytesAt_congr {s t : State} (n a : Nat) (h : ∀ b, a ≤ b → b < a + n → t.byteAt b = s.byteAt b) :
    t.bytesAt n a = s.bytesAt n a := by
  induction n generalizing a with
  | zero => rfl
  | succ n ih =>
    simp only [State.bytesAt]
    rw [h a (by omega) (by omega), ih (a + 1) fun b h1 h2 => h b (by omega) (by omega)]

@[simp] theorem bytesAt_length (s : State) (n a : Nat) : (s.bytesAt n a).length = n := by
  induction n generalizing a with
  | zero => rfl
  | succ n ih => simp [State.bytesAt, ih]

/-! ## One access -/

theorem portCheck_eq_ok {kind : AccessKind} {a : Nat} {s : State} :
    portCheck kind a s = .ok () ↔ a < addressSpace ∧ s.admits kind a = true := by
  unfold portCheck
  split
  · simp; omega
  · split <;> simp_all

theorem portRead_next {a : Nat} {s t : State} {v : Byte} (h : portRead a s = .ok (v, t)) :
    v = s.byteAt a ∧ t = s.log (.read a (s.byteAt a)) ∧ a < addressSpace ∧ s.admits .read a = true := by
  obtain ⟨_, hc, h⟩ := except_bind_eq_ok h
  have := portCheck_eq_ok.mp hc
  cases h
  exact ⟨rfl, rfl, this⟩

theorem portRead_admitted {a : Nat} {s : State} (ha : a < addressSpace) (h : s.admits .read a = true) :
    portRead a s = .ok (s.byteAt a, s.log (.read a (s.byteAt a))) := by
  unfold portRead
  rw [portCheck_eq_ok.mpr ⟨ha, h⟩]
  rfl

theorem portWrite_next {a : Nat} {s t : State} {v : Byte} (h : portWrite a v s = .ok t) :
    t = (s.store a v).log (.write a v) ∧ a < addressSpace ∧ s.admits .write a = true := by
  obtain ⟨_, hc, h⟩ := except_bind_eq_ok h
  have := portCheck_eq_ok.mp hc
  cases h
  exact ⟨rfl, this⟩

theorem portWrite_admitted {a : Nat} {s : State} {v : Byte} (ha : a < addressSpace) (h : s.admits .write a = true) :
    portWrite a v s = .ok ((s.store a v).log (.write a v)) := by
  unfold portWrite
  rw [portCheck_eq_ok.mpr ⟨ha, h⟩]
  rfl

/-! ## Byte strings -/

/-- Extends the trace, and nothing else. -/
def State.traced (s : State) (events : List PortEvent) : State := { s with trace := s.trace ++ events }

@[simp] theorem traced_nil (s : State) : s.traced [] = s := by simp [State.traced]
@[simp] theorem traced_traced (s : State) (x y : List PortEvent) : (s.traced x).traced y = s.traced (x ++ y) := by
  simp [State.traced]
theorem log_eq_traced (s : State) (e : PortEvent) : s.log e = s.traced [e] := rfl
@[simp] theorem traced_byteAt (s : State) (x : List PortEvent) (a : Nat) : (s.traced x).byteAt a = s.byteAt a := rfl
@[simp] theorem traced_admits (s : State) (x : List PortEvent) (kind : AccessKind) (a : Nat) :
    (s.traced x).admits kind a = s.admits kind a := rfl
@[simp] theorem traced_mem (s : State) (x : List PortEvent) : (s.traced x).mem = s.mem := rfl
@[simp] theorem traced_trace (s : State) (x : List PortEvent) : (s.traced x).trace = s.trace ++ x := rfl

theorem traced_bytesAt (s : State) (x : List PortEvent) (n a : Nat) : (s.traced x).bytesAt n a = s.bytesAt n a :=
  bytesAt_congr n a fun _ _ _ => rfl

theorem traced_readEvents (s : State) (x : List PortEvent) (n a : Nat) :
    (s.traced x).readEvents n a = s.readEvents n a := by
  induction n generalizing a with
  | zero => rfl
  | succ n ih => simp [State.readEvents, ih]

/-- Reading a byte string answers the bytes that stand there, changes no memory and traces each read in ascending order. -/
theorem readBytes_next {n a : Nat} {s t : State} {bs : List Byte} (h : readBytes n a s = .ok (bs, t)) :
    bs = s.bytesAt n a ∧ t = s.traced (s.readEvents n a) ∧ s.Admitted .read a n ∧ (0 < n → a + n ≤ addressSpace) := by
  induction n generalizing a s t bs with
  | zero =>
    cases h
    exact ⟨rfl, (traced_nil s).symm, fun b _ _ => by omega, fun h => absurd h (by omega)⟩
  | succ n ih =>
    simp only [readBytes] at h
    obtain ⟨⟨b, s1⟩, h1, h⟩ := except_bind_eq_ok h
    obtain ⟨⟨bs', s2⟩, h2, h⟩ := except_bind_eq_ok h
    cases h
    obtain ⟨rfl, rfl, ha, hadm⟩ := portRead_next h1
    obtain ⟨rfl, rfl, hadm', hn⟩ := ih h2
    rw [log_eq_traced] at *
    refine ⟨?_, ?_, ?_, ?_⟩
    · simp [State.bytesAt, traced_bytesAt]
    · simp [State.readEvents, traced_readEvents]
    · intro c h1 h2
      rcases Nat.eq_or_lt_of_le h1 with rfl | h1
      · exact hadm
      · exact hadm' c h1 (by omega)
    · intro _
      rcases Nat.eq_zero_or_pos n with rfl | hp
      · omega
      · have := hn hp; omega

theorem readBytes_admitted {n a : Nat} {s : State} (h : s.Admitted .read a n) (ha : 0 < n → a + n ≤ addressSpace) :
    readBytes n a s = .ok (s.bytesAt n a, s.traced (s.readEvents n a)) := by
  induction n generalizing a s with
  | zero => simp [readBytes, State.bytesAt, State.readEvents]
  | succ n ih =>
    have hspace := ha (by omega)
    simp only [readBytes]
    rw [portRead_admitted (by omega) (h a (by omega) (by omega)), log_eq_traced]
    simp only [except_bind_ok]
    rw [ih (s := s.traced _) (fun b h1 h2 => h b (by omega) (by omega)) (fun _ => by omega)]
    simp [State.bytesAt, State.readEvents, traced_bytesAt, traced_readEvents]

/-- The memory after byte writes of a string at `a`, `a + 1`, ... -/
def storeBytes (s : State) : List Byte → Nat → State
  | [], _ => s
  | b :: bs, a => storeBytes (s.store a b) bs (a + 1)

theorem traced_storeBytes (s : State) (x : List PortEvent) (bs : List Byte) (a : Nat) :
    storeBytes (s.traced x) bs a = (storeBytes s bs a).traced x := by
  induction bs generalizing s a with
  | nil => rfl
  | cons b bs ih => exact ih (s.store a b) (a + 1)

theorem storeBytes_admits (s : State) (bs : List Byte) (a : Nat) (kind : AccessKind) (c : Nat) :
    (storeBytes s bs a).admits kind c = s.admits kind c := by
  induction bs generalizing s a with
  | nil => rfl
  | cons b bs ih => exact ih (s.store a b) (a + 1)

/-- A written byte string stands where it was written, every other byte is as before, and the canonical form is kept. -/
theorem storeBytes_spec (s : State) (bs : List Byte) (a : Nat) (h : Memory.wf s.mem = true)
    (ha : bs ≠ [] → a + bs.length ≤ addressSpace) :
    Memory.wf (storeBytes s bs a).mem = true ∧
      ∀ c, (storeBytes s bs a).byteAt c = if h : a ≤ c ∧ c - a < bs.length then bs[c - a]'h.2 else s.byteAt c := by
  induction bs generalizing s a with
  | nil => exact ⟨h, fun c => by simp [storeBytes]⟩
  | cons b bs ih =>
    have hspace := ha (by simp)
    simp only [List.length_cons] at hspace
    have hw : Memory.wf (s.store a b).mem = true := write_wf _ h _ _ (by omega)
    obtain ⟨h1, h2⟩ := ih (s.store a b) (a + 1) hw (fun _ => by omega)
    refine ⟨h1, fun c => ?_⟩
    simp only [storeBytes]
    rw [h2 c]
    by_cases hc : a + 1 ≤ c ∧ c - (a + 1) < bs.length
    · have hc' : a ≤ c ∧ c - a < (b :: bs).length := ⟨by omega, by simp only [List.length_cons]; omega⟩
      rw [dif_pos hc, dif_pos hc']
      have hi : c - a = (c - (a + 1)) + 1 := by omega
      simp [hi]
    · rw [dif_neg hc, store_byteAt s h]
      by_cases hca : a = c
      · subst hca
        simp
      · rw [if_neg hca, dif_neg]
        simp only [List.length_cons]
        omega

theorem writeBytes_next {bs : List Byte} {a : Nat} {s t : State} (h : writeBytes bs a s = .ok t) :
    t = (storeBytes s bs a).traced (writeEvents bs a) ∧ s.Admitted .write a bs.length ∧
      (bs ≠ [] → a + bs.length ≤ addressSpace) := by
  induction bs generalizing a s t with
  | nil =>
    cases h
    exact ⟨by simp [storeBytes, writeEvents], fun b _ _ => by simp at *; omega, fun h => absurd rfl h⟩
  | cons b bs ih =>
    simp only [writeBytes] at h
    obtain ⟨s1, h1, h⟩ := except_bind_eq_ok h
    obtain ⟨rfl, ha, hadm⟩ := portWrite_next h1
    obtain ⟨rfl, hadm', hn⟩ := ih h
    refine ⟨?_, ?_, ?_⟩
    · rw [log_eq_traced, traced_storeBytes]
      simp [storeBytes, writeEvents]
    · intro c h1 h2
      simp only [List.length_cons] at h2
      rcases Nat.eq_or_lt_of_le h1 with rfl | h1
      · exact hadm
      · exact hadm' c h1 (by omega)
    · intro _
      simp only [List.length_cons]
      rcases Nat.eq_zero_or_pos bs.length with h0 | hp
      · omega
      · have := hn (List.length_pos_iff.mp hp); omega

theorem writeBytes_admitted {bs : List Byte} {a : Nat} {s : State} (h : s.Admitted .write a bs.length)
    (ha : bs ≠ [] → a + bs.length ≤ addressSpace) :
    writeBytes bs a s = .ok ((storeBytes s bs a).traced (writeEvents bs a)) := by
  induction bs generalizing a s with
  | nil => simp [writeBytes, storeBytes, writeEvents]
  | cons b bs ih =>
    have hspace := ha (by simp)
    simp only [List.length_cons] at hspace h
    simp only [writeBytes]
    rw [portWrite_admitted (by omega) (h a (by omega) (by omega)), log_eq_traced]
    simp only [except_bind_ok]
    rw [ih (s := (s.store a b).traced _) (fun c h1 h2 => h c (by omega) (by omega)) (fun _ => by omega),
      traced_storeBytes]
    simp [storeBytes, writeEvents]

end Sys2Proof.Machine
end

