-- ==== Sys2Proof/Laws/Codec.lean ====
section
/-! SUPPORT. The codec's operations: what SetBit and TestBit answer, and their effect on the bits of a bit array (spec R171,
R172, R175, R178). -/

namespace Sys2Proof.Machine

/-- The mask of bit `q` has bit `q mod 8` and no other. -/
theorem bitMask_getLsbD (q j : Nat) : (bitMask q).getLsbD j = decide (j = q % 8) := by
  have h : ∀ r j : Fin 8, (1#8 <<< (r : Nat)).getLsbD j = decide ((j : Nat) = r) := by decide
  have hq : q % 8 < 8 := Nat.mod_lt _ (by omega)
  by_cases hj : j < 8
  · exact h ⟨q % 8, hq⟩ ⟨j, hj⟩
  · rw [BitVec.getLsbD_of_ge _ _ (by omega)]
    exact (decide_eq_false (by omega)).symm

/-- TestBit's expression is bit `q mod 8` of the byte (R175). -/
theorem bitOf_eq (b : Byte) (q : Nat) : bitOf b q = b.getLsbD (q % 8) := by
  have hq : q % 8 < 8 := Nat.mod_lt _ (by omega)
  unfold bitOf
  generalize q % 8 = r at hq
  rw [Bool.eq_iff_iff, beq_iff_eq]
  constructor
  · intro h
    have := congrArg (fun x => x.getLsbD 0) h
    simpa using this
  · intro h
    ext i hi
    by_cases h0 : i = 0
    · subst h0; simpa [BitVec.getElem_eq_testBit_toNat, ← BitVec.testBit_toNat] using h
    · simp [h0]

/-- Setting the bit of a byte leaves its other bits alone. -/
theorem or_bitMask_getLsbD (b : Byte) (q j : Nat) :
    (b ||| bitMask q).getLsbD j = (b.getLsbD j || decide (j = q % 8)) := by
  rw [BitVec.getLsbD_or, bitMask_getLsbD]

/-- Bit `q` of the array and bit `r` lie in one byte at one place only if they are one bit. -/
theorem bit_place_inj {q r : Nat} (h : q / 8 = r / 8) (h' : q % 8 = r % 8) : q = r := by omega

/-- The state after SetBit of the folded bit `q`, less the trace (R172). -/
def storeBit (s : State) (arr q : Nat) : State := s.store (bitAddress arr q) (s.byteAt (bitAddress arr q) ||| bitMask q)

/-- The two accesses of SetBit of the folded bit `q` (R172). -/
def setBitEvents (s : State) (arr q : Nat) : List PortEvent :=
  [.read (bitAddress arr q) (s.byteAt (bitAddress arr q)),
    .write (bitAddress arr q) (s.byteAt (bitAddress arr q) ||| bitMask q)]

theorem setBit_next {arr bitLength : Nat} {pos : Word} {s t : State} (h : setBit arr bitLength pos s = .ok t) :
    t = (storeBit s arr (fold pos bitLength)).traced (setBitEvents s arr (fold pos bitLength)) ∧
      bitAddress arr (fold pos bitLength) < addressSpace ∧
      s.admits .read (bitAddress arr (fold pos bitLength)) = true ∧
      s.admits .write (bitAddress arr (fold pos bitLength)) = true := by
  unfold setBit at h
  obtain ⟨⟨old, s1⟩, h1, h⟩ := except_bind_eq_ok h
  obtain ⟨rfl, rfl, ha, hr⟩ := portRead_next h1
  obtain ⟨rfl, _, hw⟩ := portWrite_next h
  exact ⟨by simp [State.log, State.traced, State.store, storeBit, setBitEvents], ha, hr, hw⟩

theorem setBit_admitted {arr bitLength : Nat} {pos : Word} {s : State}
    (ha : bitAddress arr (fold pos bitLength) < addressSpace)
    (hr : s.admits .read (bitAddress arr (fold pos bitLength)) = true)
    (hw : s.admits .write (bitAddress arr (fold pos bitLength)) = true) :
    setBit arr bitLength pos s =
      .ok ((storeBit s arr (fold pos bitLength)).traced (setBitEvents s arr (fold pos bitLength))) := by
  unfold setBit
  rw [portRead_admitted ha hr]
  simp only [except_bind_ok]
  rw [portWrite_admitted (s := s.log _) ha hw]
  simp [State.log, State.traced, State.store, storeBit, setBitEvents]

/-- SetBit changes the one byte that holds the bit (R172). -/
theorem storeBit_byteAt (s : State) (h : Memory.wf s.mem = true) (arr q c : Nat) :
    (storeBit s arr q).byteAt c =
      if bitAddress arr q = c then s.byteAt c ||| bitMask q else s.byteAt c := by
  unfold storeBit
  rw [store_byteAt s h]
  split
  · rename_i hc; rw [hc]
  · rfl

/-- SetBit sets its bit and changes no other bit (R172, R178). -/
theorem storeBit_bitAt (s : State) (h : Memory.wf s.mem = true) (arr q r : Nat) :
    (storeBit s arr q).bitAt arr r = (s.bitAt arr r || decide (r = q)) := by
  unfold State.bitAt
  rw [storeBit_byteAt s h]
  split
  · rename_i hc
    rw [or_bitMask_getLsbD]
    congr 1
    simp only [bitAddress] at hc
    exact decide_eq_decide.mpr ⟨fun h => by omega, fun h => by omega⟩
  · rename_i hc
    simp only [bitAddress] at hc
    rw [decide_eq_false (by omega), Bool.or_false]

theorem storeBit_wf (s : State) (h : Memory.wf s.mem = true) (arr q : Nat) (ha : bitAddress arr q < addressSpace) :
    Memory.wf (storeBit s arr q).mem = true := write_wf _ h _ _ ha

theorem testBit_next {arr bitLength : Nat} {pos : Word} {s t : State} {b : Bool}
    (h : testBit arr bitLength pos s = .ok (b, t)) :
    b = s.bitAt arr (fold pos bitLength) ∧
      t = s.traced [.read (bitAddress arr (fold pos bitLength)) (s.byteAt (bitAddress arr (fold pos bitLength)))] ∧
      bitAddress arr (fold pos bitLength) < addressSpace ∧
      s.admits .read (bitAddress arr (fold pos bitLength)) = true := by
  unfold testBit at h
  obtain ⟨⟨v, s1⟩, h1, h⟩ := except_bind_eq_ok h
  obtain ⟨rfl, rfl, ha, hr⟩ := portRead_next h1
  cases h
  exact ⟨bitOf_eq _ _, rfl, ha, hr⟩

theorem testBit_admitted {arr bitLength : Nat} {pos : Word} {s : State}
    (ha : bitAddress arr (fold pos bitLength) < addressSpace)
    (hr : s.admits .read (bitAddress arr (fold pos bitLength)) = true) :
    testBit arr bitLength pos s =
      .ok (s.bitAt arr (fold pos bitLength),
        s.traced [.read (bitAddress arr (fold pos bitLength)) (s.byteAt (bitAddress arr (fold pos bitLength)))]) := by
  unfold testBit
  rw [portRead_admitted ha hr]
  simp only [except_bind_ok, except_pure, bitOf_eq]
  rfl

/-- A folded position of a non-empty bit array lies inside it (R170). -/
theorem fold_lt (pos : Word) {bitLength : Nat} (h : 0 < bitLength) : fold pos bitLength < bitLength := Nat.mod_lt _ h

/-- The byte of a bit below 8 x n is one of the n bytes of the array. -/
theorem bitAddress_lt {arr q n : Nat} (h : q < 8 * n) : bitAddress arr q < arr + n := by
  unfold bitAddress; omega

end Sys2Proof.Machine
end

