-- ==== Sys2Proof/Laws/Filter.lean ====
section
/-! SUPPORT. The loops of the filter commands and ValidateFilter: what they answer and what they do to memory (spec R64, R65,
R67, R193, R205, R206, R210, R218). -/

namespace Sys2Proof.Machine

/-! ## The header -/

theorem leBytes_length (n v : Nat) : (leBytes n v).length = n := by
  induction n generalizing v with
  | zero => rfl
  | succ n ih => simp [leBytes, ih]

/-- Little-endian bytes denote the number they were made of (R67). -/
theorem leNat_leBytes (n v : Nat) (h : v < 256 ^ n) : leNat (leBytes n v) = v := by
  induction n generalizing v with
  | zero => simp only [Nat.pow_zero] at h; simp [leBytes, leNat]; omega
  | succ n ih =>
    have hv : v / 256 < 256 ^ n := by
      rw [Nat.pow_succ] at h
      omega
    simp only [leBytes, leNat, ih _ hv, BitVec.toNat_ofNat]
    omega

theorem header_bytes_length (h : Header) : h.bytes.length = headerBytes := by
  simp [Header.bytes, leBytes_length]

/-- The header read back is the header written (R64, R65). -/
theorem headerOf_bytes (h : Header) : headerOf h.bytes = h := by
  have hs := leNat_leBytes 8 h.seed.toNat (by have := h.seed.isLt; omega)
  have he := leNat_leBytes 4 h.errorRate.toNat (by have := h.errorRate.isLt; omega)
  have hc := leNat_leBytes 8 h.capacity.toNat (by have := h.capacity.isLt; omega)
  have h8 := leBytes_length 8 h.seed.toNat
  have h4 := leBytes_length 4 h.errorRate.toNat
  have h8' := leBytes_length 8 h.capacity.toNat
  obtain ⟨seed, rate, cap⟩ := h
  simp only [headerOf, Header.bytes, List.append_assoc]
  rw [List.take_left' h8, List.drop_left' h8, List.take_left' h4,
    show (12 : Nat) = 8 + 4 from rfl, ← List.drop_drop, List.drop_left' h8, List.drop_left' h4,
    List.take_of_length_le (by exact h8'.le)]
  simp only [hs, he, hc]
  simp

/-! ## ValidateFilter -/

theorem filterAt_congr {s t : State} (d : Descriptor)
    (h : ∀ a, d.base ≤ a → a < d.base + headerBytes → t.byteAt a = s.byteAt a) : t.filterAt d = s.filterAt d := by
  unfold State.filterAt State.headerAt
  rw [bytesAt_congr _ _ h]

/-- The reads of ValidateFilter: none if there is no room for a header (R193, R300). -/
def validateEvents (s : State) (d : Descriptor) : List PortEvent :=
  if d.len < headerBytes then [] else s.readEvents headerBytes d.base

theorem validateFilter_next {d : Descriptor} {s t : State} {v : Except ErrorCode Filter}
    (h : validateFilter Config.engine d s = .ok (v, t)) :
    v = s.filterAt d ∧ t = s.traced (validateEvents s d) ∧
      (headerBytes ≤ d.len → s.Admitted .read d.base headerBytes ∧ d.base + headerBytes ≤ addressSpace) := by
  unfold validateFilter at h
  unfold State.filterAt validateEvents
  split at h
  · rename_i hlt
    cases h
    exact ⟨by rw [if_pos hlt], by rw [if_pos hlt, traced_nil], fun h => by omega⟩
  · rename_i hlt
    rw [if_neg hlt, if_neg hlt]
    obtain ⟨⟨hd, s1⟩, h1, h⟩ := except_bind_eq_ok h
    cases h
    obtain ⟨⟨bs, s2⟩, h2, h1⟩ := except_bind_eq_ok h1
    cases h1
    obtain ⟨rfl, rfl, hadm, hsp⟩ := readBytes_next h2
    exact ⟨rfl, rfl, fun _ => ⟨hadm, hsp (by decide)⟩⟩

theorem validateFilter_admitted {d : Descriptor} {s : State}
    (h : headerBytes ≤ d.len → s.Admitted .read d.base headerBytes ∧ d.base + headerBytes ≤ addressSpace) :
    validateFilter Config.engine d s = .ok (s.filterAt d, s.traced (validateEvents s d)) := by
  unfold validateFilter State.filterAt validateEvents
  split
  · simp
  · rename_i hlt
    obtain ⟨hadm, hsp⟩ := h (Nat.le_of_not_lt hlt)
    unfold loadHeader
    rw [readBytes_admitted hadm fun _ => hsp]
    simp only [except_bind_ok, except_pure, State.headerAt]

/-- A filter that ValidateFilter accepts: its header, its sizes, and at most 100 probes (R193, R195). -/
theorem filterAt_ok {s : State} {d : Descriptor} {f : Filter} (h : s.filterAt d = .ok f) :
    headerBytes ≤ d.len ∧ f.header = s.headerAt d.base ∧ f.arrayLen = d.len - headerBytes ∧
      derive .literal f.header.capacity.toNat f.header.errorRate = some (f.bits, f.probes) ∧
      f.arrayLen = arrayBytes f.bits ∧ f.probes ≤ seedTableLen := by
  unfold State.filterAt at h
  split at h
  · cases h
  · rename_i hlt
    unfold judgeFilter at h
    split at h
    · cases h
    · rename_i m k hd
      split at h
      · cases h
      · rename_i hm
        split at h
        · cases h
        · rename_i hk
          have hf := (Except.ok.inj h).symm
          subst hf
          exact ⟨Nat.le_of_not_lt hlt, rfl, rfl, hd, not_not.mp hm, Nat.le_of_not_lt hk⟩

/-! ## The probe loops -/

/-- The folded bit of one probe (R114, R170). -/
def probeBit (P : Params) (e : List Byte) (seed : Word) (bitLength : Nat) (entry : Int) : Nat :=
  fold (probePos P e entry seed) bitLength

theorem fold_lowHalf (P : Params) (e : List Byte) (seed : Word) (bitLength : Nat) (entry : Int) :
    fold (lowHalf (P.h128 e (seedWord entry seed))) bitLength = probeBit P e seed bitLength entry := rfl

theorem traced_store (s : State) (x : List PortEvent) (a : Nat) (v : Byte) :
    (s.traced x).store a v = (s.store a v).traced x := rfl

theorem traced_storeBit (s : State) (x : List PortEvent) (arr q : Nat) :
    storeBit (s.traced x) arr q = (storeBit s arr q).traced x := rfl

theorem traced_setBitEvents (s : State) (x : List PortEvent) (arr q : Nat) :
    setBitEvents (s.traced x) arr q = setBitEvents s arr q := rfl

theorem traced_bitAt (s : State) (x : List PortEvent) (arr q : Nat) : (s.traced x).bitAt arr q = s.bitAt arr q := rfl

/-- The state after setting several bits, less the trace. -/
def storeBits (s : State) (arr : Nat) : List Nat → State
  | [] => s
  | q :: qs => storeBits (storeBit s arr q) arr qs

/-- The events of ADD's loop (R205, R206, R300). -/
def addEvents (P : Params) (e : List Byte) (seed : Word) (arr bitLength : Nat) : List Int → State → List PortEvent
  | [], _ => []
  | entry :: more, s =>
    .hash (seedWord entry seed) :: (setBitEvents s arr (probeBit P e seed bitLength entry) ++
      addEvents P e seed arr bitLength more (storeBit s arr (probeBit P e seed bitLength entry)))

theorem traced_storeBits (s : State) (x : List PortEvent) (arr : Nat) (qs : List Nat) :
    storeBits (s.traced x) arr qs = (storeBits s arr qs).traced x := by
  induction qs generalizing s with
  | nil => rfl
  | cons q qs ih => exact ih (storeBit s arr q)

theorem traced_addEvents (P : Params) (e : List Byte) (seed : Word) (arr bitLength : Nat) (entries : List Int)
    (s : State) (x : List PortEvent) :
    addEvents P e seed arr bitLength entries (s.traced x) = addEvents P e seed arr bitLength entries s := by
  induction entries generalizing s with
  | nil => rfl
  | cons c cs ih =>
    simp only [addEvents]
    exact congrArg _ (congrArg _ (ih (storeBit s arr (probeBit P e seed bitLength c))))

theorem addProbes_next {P : Params} {e : List Byte} {seed : Word} {arr bitLength : Nat} {entries : List Int} {s t : State}
    (h : addProbes P e seed arr bitLength entries s = .ok t) :
    t = (storeBits s arr (entries.map (probeBit P e seed bitLength))).traced (addEvents P e seed arr bitLength entries s) ∧
      ∀ q ∈ entries.map (probeBit P e seed bitLength), bitAddress arr q < addressSpace ∧
        s.admits .read (bitAddress arr q) = true ∧ s.admits .write (bitAddress arr q) = true := by
  induction entries generalizing s t with
  | nil =>
    cases h
    exact ⟨(traced_nil s).symm, by simp⟩
  | cons c cs ih =>
    simp only [addProbes, probeHash] at h
    obtain ⟨s2, h2, h⟩ := except_bind_eq_ok h
    obtain ⟨rfl, ha, hr, hw⟩ := setBit_next h2
    obtain ⟨rfl, hmore⟩ := ih h
    refine ⟨?_, ?_⟩
    · simp only [log_eq_traced, fold_lowHalf, traced_storeBit, traced_setBitEvents, traced_storeBits, traced_addEvents,
        traced_traced, List.map_cons, storeBits, addEvents, List.cons_append, List.nil_append]
    · intro q hq
      rcases List.mem_cons.mp hq with rfl | hq
      · exact ⟨ha, hr, hw⟩
      · exact hmore q hq

theorem addProbes_admitted {P : Params} {e : List Byte} {seed : Word} {arr bitLength : Nat} {entries : List Int} {s : State}
    (h : ∀ q ∈ entries.map (probeBit P e seed bitLength), bitAddress arr q < addressSpace ∧
        s.admits .read (bitAddress arr q) = true ∧ s.admits .write (bitAddress arr q) = true) :
    addProbes P e seed arr bitLength entries s =
      .ok ((storeBits s arr (entries.map (probeBit P e seed bitLength))).traced
        (addEvents P e seed arr bitLength entries s)) := by
  induction entries generalizing s with
  | nil => simp [addProbes, storeBits, addEvents]
  | cons c cs ih =>
    obtain ⟨ha, hr, hw⟩ := h (probeBit P e seed bitLength c) (by simp)
    simp only [addProbes, probeHash]
    rw [log_eq_traced, setBit_admitted (s := s.traced _) (pos := lowHalf (P.h128 e (seedWord c seed))) ha hr hw]
    simp only [except_bind_ok]
    rw [ih]
    · simp only [fold_lowHalf, traced_storeBit, traced_setBitEvents, traced_storeBits, traced_addEvents,
        traced_traced, List.map_cons, storeBits, addEvents, List.cons_append, List.nil_append]
    · exact fun q hq => h q (List.mem_cons_of_mem _ hq)

/-- ADD's loop sets exactly the probed bits, changes no byte outside the array and keeps the canonical form (R205). -/
theorem storeBits_spec (s : State) (h : Memory.wf s.mem = true) (arr : Nat) (qs : List Nat)
    (ha : ∀ q ∈ qs, bitAddress arr q < addressSpace) :
    Memory.wf (storeBits s arr qs).mem = true ∧
      (∀ r, (storeBits s arr qs).bitAt arr r = (s.bitAt arr r || decide (r ∈ qs))) ∧
      ∀ c, (∀ q ∈ qs, bitAddress arr q ≠ c) → (storeBits s arr qs).byteAt c = s.byteAt c := by
  induction qs generalizing s with
  | nil => exact ⟨h, fun r => by simp [storeBits], fun c _ => rfl⟩
  | cons q qs ih =>
    obtain ⟨h1, h2, h3⟩ := ih (storeBit s arr q) (storeBit_wf s h arr q (ha q (by simp)))
      fun q hq => ha q (List.mem_cons_of_mem _ hq)
    refine ⟨h1, fun r => ?_, fun c hc => ?_⟩
    · simp only [storeBits]
      rw [h2, storeBit_bitAt s h, Bool.or_assoc, ← Bool.decide_or]
      simp only [List.mem_cons]
    · simp only [storeBits]
      rw [h3 c fun q hq => hc q (List.mem_cons_of_mem _ hq), storeBit_byteAt s h, if_neg (hc q (by simp))]

/-- The events of TEST's loop: it stops after the first clear bit (R205, R210, R300). -/
def testEvents (P : Params) (e : List Byte) (seed : Word) (arr bitLength : Nat) (s : State) : List Int → List PortEvent
  | [] => []
  | entry :: more =>
    .hash (seedWord entry seed) ::
      .read (bitAddress arr (probeBit P e seed bitLength entry))
        (s.byteAt (bitAddress arr (probeBit P e seed bitLength entry))) ::
      if s.bitAt arr (probeBit P e seed bitLength entry) then testEvents P e seed arr bitLength s more else []

theorem traced_testEvents (P : Params) (e : List Byte) (seed : Word) (arr bitLength : Nat) (entries : List Int)
    (s : State) (x : List PortEvent) :
    testEvents P e seed arr bitLength (s.traced x) entries = testEvents P e seed arr bitLength s entries := by
  induction entries with
  | nil => rfl
  | cons c cs ih =>
    simp only [testEvents, ih]
    rfl

theorem testProbes_next {P : Params} {e : List Byte} {seed : Word} {arr bitLength : Nat} {entries : List Int} {s t : State}
    {b : Bool} (h : testProbes P e seed arr bitLength entries s = .ok (b, t)) :
    b = (entries.map (probeBit P e seed bitLength)).all (s.bitAt arr) ∧
      t = s.traced (testEvents P e seed arr bitLength s entries) := by
  induction entries generalizing s t with
  | nil =>
    cases h
    exact ⟨rfl, (traced_nil s).symm⟩
  | cons c cs ih =>
    simp only [testProbes, probeHash] at h
    obtain ⟨⟨r, s2⟩, h2, h⟩ := except_bind_eq_ok h
    obtain ⟨rfl, rfl, -, -⟩ := testBit_next h2
    simp only [log_eq_traced, fold_lowHalf, traced_bitAt, traced_byteAt, traced_traced] at h
    simp only [testEvents, List.map_cons, List.all_cons]
    split at h
    · rename_i hb
      obtain ⟨h1, h2⟩ := ih h
      rw [hb, if_pos rfl, h1, h2]
      simp only [traced_testEvents, traced_traced, List.cons_append, List.nil_append, Bool.true_and]
      exact ⟨rfl, trivial⟩
    · rename_i hb
      cases h
      rw [Bool.not_eq_true] at hb
      simp [hb]

theorem testProbes_admitted {P : Params} {e : List Byte} {seed : Word} {arr bitLength : Nat} {entries : List Int} {s : State}
    (h : ∀ q ∈ entries.map (probeBit P e seed bitLength), bitAddress arr q < addressSpace ∧
        s.admits .read (bitAddress arr q) = true) :
    testProbes P e seed arr bitLength entries s =
      .ok ((entries.map (probeBit P e seed bitLength)).all (s.bitAt arr),
        s.traced (testEvents P e seed arr bitLength s entries)) := by
  induction entries generalizing s with
  | nil => simp [testProbes, testEvents]
  | cons c cs ih =>
    obtain ⟨ha, hr⟩ := h (probeBit P e seed bitLength c) (by simp)
    simp only [testProbes, probeHash]
    rw [log_eq_traced, testBit_admitted (s := s.traced _) (pos := lowHalf (P.h128 e (seedWord c seed))) ha hr]
    simp only [except_bind_ok, testEvents, List.map_cons, List.all_cons, fold_lowHalf, traced_bitAt, traced_byteAt,
      traced_traced]
    split
    · rename_i hb
      rw [ih (s := State.traced _ _) fun q hq => h q (List.mem_cons_of_mem _ hq)]
      simp only [traced_testEvents, traced_traced, List.cons_append, List.nil_append, hb, Bool.true_and]
      rfl
    · rename_i hb
      rw [Bool.not_eq_true] at hb
      simp [hb]

/-! ## MERGE's loop -/

/-- The state after ORing `n` bytes from `src` into those from `dst`, less the trace (R218). -/
def storeMerge (s : State) : Nat → Nat → Nat → State
  | 0, _, _ => s
  | n + 1, src, dst => storeMerge (s.store dst (s.byteAt dst ||| s.byteAt src)) n (src + 1) (dst + 1)

/-- The events of MERGE's loop (R218, R220, R300). -/
def mergeEvents (s : State) : Nat → Nat → Nat → List PortEvent
  | 0, _, _ => []
  | n + 1, src, dst =>
    .read src (s.byteAt src) :: .read dst (s.byteAt dst) :: .write dst (s.byteAt dst ||| s.byteAt src) ::
      mergeEvents (s.store dst (s.byteAt dst ||| s.byteAt src)) n (src + 1) (dst + 1)

theorem traced_storeMerge (s : State) (x : List PortEvent) (n src dst : Nat) :
    storeMerge (s.traced x) n src dst = (storeMerge s n src dst).traced x := by
  induction n generalizing s src dst with
  | zero => rfl
  | succ n ih => exact ih (s.store dst (s.byteAt dst ||| s.byteAt src)) _ _

theorem traced_mergeEvents (s : State) (x : List PortEvent) (n src dst : Nat) :
    mergeEvents (s.traced x) n src dst = mergeEvents s n src dst := by
  induction n generalizing s src dst with
  | zero => rfl
  | succ n ih =>
    simp only [mergeEvents]
    exact congrArg _ (congrArg _ (congrArg _ (ih (s.store dst (s.byteAt dst ||| s.byteAt src)) _ _)))

theorem mergeBytes_next {n src dst : Nat} {s t : State} (h : mergeBytes n src dst s = .ok t) :
    t = (storeMerge s n src dst).traced (mergeEvents s n src dst) ∧ s.Admitted .read src n ∧ s.Admitted .read dst n ∧
      s.Admitted .write dst n ∧ (0 < n → src + n ≤ addressSpace ∧ dst + n ≤ addressSpace) := by
  induction n generalizing s t src dst with
  | zero =>
    cases h
    exact ⟨(traced_nil s).symm, fun _ _ _ => by omega, fun _ _ _ => by omega, fun _ _ _ => by omega, fun h => by omega⟩
  | succ n ih =>
    simp only [mergeBytes] at h
    obtain ⟨⟨x, s1⟩, h1, h⟩ := except_bind_eq_ok h
    obtain ⟨⟨d, s2⟩, h2, h⟩ := except_bind_eq_ok h
    obtain ⟨s3, h3, h⟩ := except_bind_eq_ok h
    obtain ⟨rfl, rfl, ha1, hr1⟩ := portRead_next h1
    obtain ⟨rfl, rfl, ha2, hr2⟩ := portRead_next h2
    obtain ⟨rfl, -, hw⟩ := portWrite_next h3
    obtain ⟨rfl, hsr, hdr, hdw, hsp⟩ := ih h
    have step : ∀ (kind : AccessKind) (a : Nat), s.admits kind a = true → s.Admitted kind (a + 1) n →
        s.Admitted kind a (n + 1) := by
      intro kind a h0 h1 c hc1 hc2
      rcases Nat.eq_or_lt_of_le hc1 with rfl | hc
      · exact h0
      · exact h1 c hc (by omega)
    refine ⟨?_, step _ _ hr1 hsr, step _ _ hr2 hdr, step _ _ hw hdw, fun _ => ?_⟩
    · simp only [log_eq_traced, traced_store, traced_byteAt, traced_storeMerge, traced_mergeEvents, storeMerge, mergeEvents,
        traced_traced, List.cons_append, List.nil_append]
    · rcases Nat.eq_zero_or_pos n with rfl | hp
      · omega
      · have := hsp hp; omega

theorem mergeBytes_admitted {n src dst : Nat} {s : State} (hsr : s.Admitted .read src n) (hdr : s.Admitted .read dst n)
    (hdw : s.Admitted .write dst n) (hs : src + n ≤ addressSpace) (hd : dst + n ≤ addressSpace) :
    mergeBytes n src dst s = .ok ((storeMerge s n src dst).traced (mergeEvents s n src dst)) := by
  induction n generalizing s src dst with
  | zero => simp [mergeBytes, storeMerge, mergeEvents]
  | succ n ih =>
    simp only [mergeBytes]
    rw [portRead_admitted (by omega) (hsr src (by omega) (by omega)), except_bind_ok]
    dsimp only
    rw [log_eq_traced, portRead_admitted (s := s.traced _) (by omega) (hdr dst (by omega) (by omega)), except_bind_ok]
    dsimp only
    rw [log_eq_traced, portWrite_admitted (s := (s.traced _).traced _) (by omega) (hdw dst (by omega) (by omega)),
      except_bind_ok]
    simp only [log_eq_traced, traced_store, traced_byteAt, traced_traced]
    rw [ih]
    · simp only [traced_storeMerge, traced_mergeEvents, storeMerge, mergeEvents, traced_traced, List.cons_append,
        List.nil_append]
    · exact fun c h1 h2 => hsr c (by omega) (by omega)
    · exact fun c h1 h2 => hdr c (by omega) (by omega)
    · exact fun c h1 h2 => hdw c (by omega) (by omega)
    · omega
    · omega

/-- MERGE's loop is byte-wise OR on ranges that are disjoint or identical, changes no other byte and keeps the canonical
form (R216, R218, R220). -/
theorem storeMerge_spec (s : State) (h : Memory.wf s.mem = true) (n src dst : Nat) (hd : dst + n ≤ addressSpace)
    (hsep : src = dst ∨ src + n ≤ dst ∨ dst + n ≤ src) :
    Memory.wf (storeMerge s n src dst).mem = true ∧
      ∀ c, (storeMerge s n src dst).byteAt c =
        if dst ≤ c ∧ c < dst + n then s.byteAt c ||| s.byteAt (src + (c - dst)) else s.byteAt c := by
  induction n generalizing s src dst with
  | zero => exact ⟨h, fun c => by rw [if_neg (by omega)]; rfl⟩
  | succ n ih =>
    obtain ⟨h1, h2⟩ := ih (s.store dst (s.byteAt dst ||| s.byteAt src)) (write_wf _ h _ _ (by omega)) (src + 1) (dst + 1)
      (by omega) (by omega)
    refine ⟨h1, fun c => ?_⟩
    simp only [storeMerge]
    rw [h2 c]
    simp only [store_byteAt s h]
    by_cases hc : dst = c
    · subst hc
      rw [if_neg (by omega), if_pos rfl, if_pos (by omega)]
      simp
    · by_cases hin : dst + 1 ≤ c ∧ c < dst + 1 + n
      · have hne : ¬dst = src + 1 + (c - (dst + 1)) := by omega
        have hin' : dst ≤ c ∧ c < dst + (n + 1) := by omega
        have ha : src + 1 + (c - (dst + 1)) = src + (c - dst) := by omega
        rw [if_pos hin, if_pos hin', if_neg hc, if_neg hne, ha]
      · have hin' : ¬(dst ≤ c ∧ c < dst + (n + 1)) := by omega
        rw [if_neg hin, if_neg hc, if_neg hin']

end Sys2Proof.Machine
end

