-- ==== Sys2Proof/Laws/Commands.lean ====
section
/-! SUPPORT. Each command that touches memory, by the ways it can end: what the next state is on each (spec R116, R174, R176,
R200, R206, R210, R218). Claims about commands cite these instead of unfolding a command. -/

namespace Sys2Proof.Machine

theorem raise_traced (s : State) (c : ErrorCode) (x : List PortEvent) : raise c (s.traced x) = s.errorEnd c x := rfl

theorem raise_eq_errorEnd (s : State) (c : ErrorCode) : raise c s = s.errorEnd c [] := by
  simp [raise, State.errorEnd]

/-- The entry PROBE uses is the table's (R112, R115). -/
theorem seedEntry_eq (P : Params) {i : Nat} (h : i < seedTableLen) : P.seedTable.entries[i]? = some (seedEntry P i) := by
  have hl : i < P.seedTable.entries.length := by rw [P.seedTable.length_eq]; exact h
  simp [seedEntry, List.getElem?_eq_getElem hl]

/-- The ways PROBE ends (R116). -/
theorem probeCommand_next {P : Params} {s t : State} (h : probeCommand P s = .ok t) :
    (s.elem.wellFormed = false ∧ t = raise .badDescriptor s) ∨
      (s.elem.wellFormed = true ∧ seedTableLen ≤ s.idx.toNat ∧ t = raise .probeTableExhausted s) ∨
      (s.elem.wellFormed = true ∧ s.idx.toNat < seedTableLen ∧
        t = done false { s.traced (s.readEvents s.elem.len s.elem.base ++
              [.hash (seedWord (seedEntry P s.idx.toNat) s.seed)]) with
          hashLo := lowHalf (P.h128 s.elementBytes (seedWord (seedEntry P s.idx.toNat) s.seed)),
          hashHi := highHalf (P.h128 s.elementBytes (seedWord (seedEntry P s.idx.toNat) s.seed)) }) := by
  unfold probeCommand at h
  split at h
  · rename_i hw
    cases h
    exact .inl ⟨by simpa using hw, rfl⟩
  · rename_i hw
    have hw' : s.elem.wellFormed = true := by simpa using hw
    split at h
    · rename_i he
      cases h
      exact .inr (.inl ⟨hw', he, rfl⟩)
    · rename_i he
      obtain ⟨⟨e, s1⟩, h1, h⟩ := except_bind_eq_ok h
      obtain ⟨rfl, rfl, -, -⟩ := readBytes_next h1
      cases h
      refine .inr (.inr ⟨hw', Nat.lt_of_not_le he, ?_⟩)
      simp [State.log, State.traced, State.elementBytes, done]

/-- The ways SETBIT ends (R174). -/
theorem setbitCommand_next {s t : State} (h : setbitCommand s = .ok t) :
    (∃ c, bareArrayError s = some c ∧ t = raise c s) ∨
      (bareArrayError s = none ∧
        t = done false ((storeBit s s.buf0.base (fold s.pos s.bitlen.toNat)).traced
          (setBitEvents s s.buf0.base (fold s.pos s.bitlen.toNat)))) := by
  unfold setbitCommand at h
  split at h
  · rename_i c hc
    cases h
    exact .inl ⟨c, hc, rfl⟩
  · rename_i hc
    obtain ⟨s1, h1, h⟩ := except_bind_eq_ok h
    obtain ⟨rfl, -, -, -⟩ := setBit_next h1
    cases h
    exact .inr ⟨hc, rfl⟩

/-- The ways TESTBIT ends (R176). -/
theorem testbitCommand_next {s t : State} (h : testbitCommand s = .ok t) :
    (∃ c, bareArrayError s = some c ∧ t = raise c s) ∨
      (bareArrayError s = none ∧
        t = done (s.bitAt s.buf0.base (fold s.pos s.bitlen.toNat)) (s.traced
          [.read (bitAddress s.buf0.base (fold s.pos s.bitlen.toNat))
            (s.byteAt (bitAddress s.buf0.base (fold s.pos s.bitlen.toNat)))])) := by
  unfold testbitCommand at h
  split at h
  · rename_i c hc
    cases h
    exact .inl ⟨c, hc, rfl⟩
  · rename_i hc
    obtain ⟨⟨b, s1⟩, h1, h⟩ := except_bind_eq_ok h
    obtain ⟨rfl, rfl, -, -⟩ := testBit_next h1
    cases h
    exact .inr ⟨hc, rfl⟩

/-- The ways INIT ends (R200). -/
theorem initCommand_next {P : Params} {s t : State} (h : initCommand P s = .ok t) :
    (∃ c, initCheck P s = .error c ∧ t = raise c s) ∨
      ∃ n, initCheck P s = .ok n ∧
        t = done false ((storeBytes s (s.newHeader.bytes ++ List.replicate n 0x00#8) s.buf0.base).traced
          (writeEvents (s.newHeader.bytes ++ List.replicate n 0x00#8) s.buf0.base)) := by
  have store_append : ∀ (xs ys : List Byte) (s : State) (a : Nat),
      storeBytes s (xs ++ ys) a = storeBytes (storeBytes s xs a) ys (a + xs.length) := by
    intro xs
    induction xs with
    | nil => intros; rfl
    | cons x xs ih =>
      intro ys s a
      simp only [List.cons_append, storeBytes, List.length_cons, ih]
      congr 1
      omega
  have write_append : ∀ (xs ys : List Byte) (a : Nat),
      writeEvents (xs ++ ys) a = writeEvents xs a ++ writeEvents ys (a + xs.length) := by
    intro xs
    induction xs with
    | nil => intros; rfl
    | cons x xs ih =>
      intro ys a
      simp only [List.cons_append, writeEvents, List.length_cons, ih]
      congr 3
      omega
  unfold initCommand at h
  split at h
  · rename_i c hc
    cases h
    exact .inl ⟨c, hc, rfl⟩
  · rename_i n hc
    obtain ⟨s1, h1, h⟩ := except_bind_eq_ok h
    obtain ⟨s2, h2, h⟩ := except_bind_eq_ok h
    obtain ⟨rfl, -, -⟩ := writeBytes_next h1
    obtain ⟨rfl, -, -⟩ := writeBytes_next h2
    cases h
    refine .inr ⟨n, hc, ?_⟩
    rw [store_append, write_append, header_bytes_length, traced_storeBytes, traced_traced]

/-- The ways ADD ends (R206). -/
theorem addCommand_next {s t : State} (h : addCommand Config.engine s = .ok t) :
    ((s.buf0.wellFormed = false ∨ s.elem.wellFormed = false) ∧ t = raise .badDescriptor s) ∨
      (∃ c, s.buf0.wellFormed = true ∧ s.elem.wellFormed = true ∧ s.filterAt s.buf0 = .error c ∧
        t = s.errorEnd c (validateEvents s s.buf0)) ∨
      ∃ f, s.buf0.wellFormed = true ∧ s.elem.wellFormed = true ∧ s.filterAt s.buf0 = .ok f ∧
        t = done false ((storeBits s (s.buf0.base + headerBytes) (probeBits s.elementBytes f)).traced
          (validateEvents s s.buf0 ++ s.readEvents s.elem.len s.elem.base ++
            addEvents Config.engine s.elementBytes f.header.seed (s.buf0.base + headerBytes) f.bitLength
              (probeEntries Config.engine f) s)) := by
  unfold addCommand at h
  split at h
  · rename_i hw
    cases h
    exact .inl ⟨.inl (by simpa using hw), rfl⟩
  · rename_i hw
    split at h
    · rename_i hw'
      cases h
      exact .inl ⟨.inr (by simpa using hw'), rfl⟩
    · rename_i hw'
      have hb : s.buf0.wellFormed = true := by simpa using hw
      have he : s.elem.wellFormed = true := by simpa using hw'
      obtain ⟨⟨v, s1⟩, h1, h⟩ := except_bind_eq_ok h
      obtain ⟨rfl, rfl, -⟩ := validateFilter_next h1
      dsimp only at h
      split at h
      · rename_i c hf
        cases h
        exact .inr (.inl ⟨c, hb, he, hf, rfl⟩)
      · rename_i f hf
        obtain ⟨⟨e, s2⟩, h2, h⟩ := except_bind_eq_ok h
        obtain ⟨s3, h3, h⟩ := except_bind_eq_ok h
        obtain ⟨rfl, rfl, -, -⟩ := readBytes_next h2
        obtain ⟨rfl, -⟩ := addProbes_next h3
        cases h
        refine .inr (.inr ⟨f, hb, he, hf, ?_⟩)
        simp only [traced_readEvents, traced_bytesAt, traced_storeBits, traced_addEvents, traced_traced,
          List.append_assoc]
        rfl

/-- The ways TEST ends (R210). -/
theorem testCommand_next {s t : State} (h : testCommand Config.engine s = .ok t) :
    ((s.buf0.wellFormed = false ∨ s.elem.wellFormed = false) ∧ t = raise .badDescriptor s) ∨
      (∃ c, s.buf0.wellFormed = true ∧ s.elem.wellFormed = true ∧ s.filterAt s.buf0 = .error c ∧
        t = s.errorEnd c (validateEvents s s.buf0)) ∨
      ∃ f, s.buf0.wellFormed = true ∧ s.elem.wellFormed = true ∧ s.filterAt s.buf0 = .ok f ∧
        t = done ((probeBits s.elementBytes f).all (s.bitAt (s.buf0.base + headerBytes))) (s.traced
          (validateEvents s s.buf0 ++ s.readEvents s.elem.len s.elem.base ++
            testEvents Config.engine s.elementBytes f.header.seed (s.buf0.base + headerBytes) f.bitLength s
              (probeEntries Config.engine f))) := by
  unfold testCommand at h
  split at h
  · rename_i hw
    cases h
    exact .inl ⟨.inl (by simpa using hw), rfl⟩
  · rename_i hw
    split at h
    · rename_i hw'
      cases h
      exact .inl ⟨.inr (by simpa using hw'), rfl⟩
    · rename_i hw'
      have hb : s.buf0.wellFormed = true := by simpa using hw
      have he : s.elem.wellFormed = true := by simpa using hw'
      obtain ⟨⟨v, s1⟩, h1, h⟩ := except_bind_eq_ok h
      obtain ⟨rfl, rfl, -⟩ := validateFilter_next h1
      dsimp only at h
      split at h
      · rename_i c hf
        cases h
        exact .inr (.inl ⟨c, hb, he, hf, rfl⟩)
      · rename_i f hf
        obtain ⟨⟨e, s2⟩, h2, h⟩ := except_bind_eq_ok h
        obtain ⟨⟨r, s3⟩, h3, h⟩ := except_bind_eq_ok h
        obtain ⟨rfl, rfl, -, -⟩ := readBytes_next h2
        obtain ⟨rfl, rfl⟩ := testProbes_next h3
        cases h
        refine .inr (.inr ⟨f, hb, he, hf, ?_⟩)
        simp only [traced_readEvents, traced_bytesAt, traced_testEvents, traced_traced, List.append_assoc]
        rfl

/-- The ways MERGE ends (R218). -/
theorem mergeCommand_next {s t : State} (h : mergeCommand Config.engine s = .ok t) :
    ((s.buf0.wellFormed = false ∨ s.buf1.wellFormed = false ∨ s.buf0.partlyOverlaps s.buf1 = true) ∧
        t = raise .badDescriptor s) ∨
      s.buf0.wellFormed = true ∧ s.buf1.wellFormed = true ∧ s.buf0.partlyOverlaps s.buf1 = false ∧
        ((∃ c, s.filterAt s.buf0 = .error c ∧ t = s.errorEnd c (validateEvents s s.buf0)) ∨
          ∃ f0, s.filterAt s.buf0 = .ok f0 ∧
            ((∃ c, s.filterAt s.buf1 = .error c ∧
                t = s.errorEnd c (validateEvents s s.buf0 ++ validateEvents s s.buf1)) ∨
              ∃ f1, s.filterAt s.buf1 = .ok f1 ∧
                ((f0.compatible f1 = false ∧
                    t = s.errorEnd .incompatibleParameters (validateEvents s s.buf0 ++ validateEvents s s.buf1)) ∨
                  f0.compatible f1 = true ∧
                    t = done false ((storeMerge s f0.arrayLen (s.buf1.base + headerBytes) (s.buf0.base + headerBytes)).traced
                      (validateEvents s s.buf0 ++ validateEvents s s.buf1 ++
                        mergeEvents s f0.arrayLen (s.buf1.base + headerBytes) (s.buf0.base + headerBytes)))))) := by
  have events_traced : ∀ x, validateEvents (s.traced x) s.buf1 = validateEvents s s.buf1 := by
    intro x
    simp only [validateEvents, traced_readEvents]
  have filter_traced : ∀ x d, (s.traced x).filterAt d = s.filterAt d := fun x d => filterAt_congr d fun _ _ _ => rfl
  unfold mergeCommand at h
  split at h
  · rename_i hw
    cases h
    refine .inl ⟨?_, rfl⟩
    simp only [Bool.or_eq_true, Bool.not_eq_true'] at hw
    exact hw.imp_right .inl
  · rename_i hw
    simp only [Bool.or_eq_true, Bool.not_eq_true', not_or, Bool.not_eq_false] at hw
    split at h
    · rename_i ho
      cases h
      exact .inl ⟨.inr (.inr ho), rfl⟩
    · rename_i ho
      refine .inr ⟨hw.1, hw.2, by simpa using ho, ?_⟩
      obtain ⟨⟨v0, s1⟩, h1, h⟩ := except_bind_eq_ok h
      obtain ⟨rfl, rfl, -⟩ := validateFilter_next h1
      dsimp only at h
      split at h
      · rename_i c hf
        cases h
        exact .inl ⟨c, hf, rfl⟩
      · rename_i f0 hf0
        refine .inr ⟨f0, hf0, ?_⟩
        obtain ⟨⟨v1, s2⟩, h2, h⟩ := except_bind_eq_ok h
        obtain ⟨rfl, rfl, -⟩ := validateFilter_next h2
        dsimp only at h
        rw [filter_traced, events_traced, traced_traced] at h
        split at h
        · rename_i c hf
          cases h
          exact .inl ⟨c, hf, rfl⟩
        · rename_i f1 hf1
          refine .inr ⟨f1, hf1, ?_⟩
          split at h
          · rename_i hc
            cases h
            exact .inl ⟨by simpa using hc, rfl⟩
          · rename_i hc
            obtain ⟨s3, h3, h⟩ := except_bind_eq_ok h
            obtain ⟨rfl, -, -, -, -⟩ := mergeBytes_next h3
            cases h
            refine .inr ⟨by simpa using hc, ?_⟩
            rw [traced_storeMerge, traced_mergeEvents, traced_traced]

theorem code_done (r : Bool) (s : State) : (done r s).code = 0#4 := by
  cases r <;> (show (statusOfResult _).extractLsb' 0 4 = _; decide)

theorem result_done (r : Bool) (s : State) : (done r s).result = r := by
  cases r <;> (show (statusOfResult _).getLsbD 8 = _; decide)

theorem code_raise (c : ErrorCode) (s : State) : (raise c s).code = c.number := by
  cases c <;> (show (statusOfError _).extractLsb' 0 4 = _; decide)

theorem result_raise (c : ErrorCode) (s : State) : (raise c s).result = false := by
  cases c <;> (show (statusOfError _).getLsbD 8 = _; decide)

/-! ## Where nothing is refused, a command answers -/

theorem admits_of_nothing_denied {s : State} (h : s.denied = []) (kind : AccessKind) (a : Nat) :
    s.admits kind a = true := by simp [State.admits, h]

theorem bareArrayError_none {s : State} (h : bareArrayError s = none) :
    s.buf0.base + s.buf0.len ≤ addressSpace ∧ 0 < s.bitlen.toNat ∧ s.bitlen.toNat ≤ 8 * s.buf0.len := by
  unfold bareArrayError at h
  split at h
  · cases h
  · rename_i hw
    split at h
    · cases h
    · split at h
      · cases h
      · simp only [Descriptor.wellFormed, Bool.not_eq_true', decide_eq_false_iff_not, not_not] at hw
        exact ⟨hw, by omega, by omega⟩

theorem bareArray_bit {s : State} (h : bareArrayError s = none) :
    bitAddress s.buf0.base (fold s.pos s.bitlen.toNat) < addressSpace := by
  obtain ⟨h1, h2, h3⟩ := bareArrayError_none h
  have := bitAddress_lt (arr := s.buf0.base) (lt_of_lt_of_le (fold_lt s.pos h2) h3)
  omega

theorem setbitCommand_answers {s : State} (h : s.denied = []) : ∃ t, setbitCommand s = .ok t := by
  unfold setbitCommand
  split
  · exact ⟨_, rfl⟩
  · rename_i he
    rw [setBit_admitted (bareArray_bit he) (admits_of_nothing_denied h _ _) (admits_of_nothing_denied h _ _)]
    exact ⟨_, rfl⟩

theorem testbitCommand_answers {s : State} (h : s.denied = []) : ∃ t, testbitCommand s = .ok t := by
  unfold testbitCommand
  split
  · exact ⟨_, rfl⟩
  · rename_i he
    rw [testBit_admitted (bareArray_bit he) (admits_of_nothing_denied h _ _)]
    exact ⟨_, rfl⟩

theorem probeCommand_answers {P : Params} {s : State} (h : s.denied = []) : ∃ t, probeCommand P s = .ok t := by
  unfold probeCommand
  split
  · exact ⟨_, rfl⟩
  · rename_i hw
    simp only [Descriptor.wellFormed, Bool.not_eq_true', decide_eq_false_iff_not, not_not] at hw
    split
    · exact ⟨_, rfl⟩
    · unfold readElement
      rw [readBytes_admitted (fun _ _ _ => admits_of_nothing_denied h _ _) fun _ => hw]
      exact ⟨_, rfl⟩

theorem initCommand_answers {P : Params} {s : State} (h : s.denied = []) : ∃ t, initCommand P s = .ok t := by
  unfold initCommand
  split
  · exact ⟨_, rfl⟩
  · rename_i n hn
    have hspace : s.buf0.base + headerBytes + n ≤ addressSpace := by
      unfold initCheck at hn
      split at hn
      · cases hn
      · rename_i hw
        simp only [Descriptor.wellFormed, Bool.not_eq_true', decide_eq_false_iff_not, not_not] at hw
        split at hn
        · cases hn
        · split at hn
          · cases hn
          · split at hn
            · cases hn
            · rename_i hl
              cases hn
              omega
    rw [writeBytes_admitted (fun _ _ _ => admits_of_nothing_denied h _ _) (fun _ => by rw [header_bytes_length]; omega)]
    simp only [except_bind_ok]
    rw [writeBytes_admitted (fun _ _ _ => by
        rw [traced_admits, storeBytes_admits]
        exact admits_of_nothing_denied h _ _)
      (fun _ => by rw [List.length_replicate]; exact hspace)]
    exact ⟨_, rfl⟩

theorem wellFormed_space {d : Descriptor} (h : d.wellFormed = true) : d.base + d.len ≤ addressSpace := by
  simpa [Descriptor.wellFormed] using h

theorem probeBits_space {s : State} {e : List Byte} {f : Filter} (hw : s.buf0.wellFormed = true)
    (hf : s.filterAt s.buf0 = .ok f) (hl : 0 < f.arrayLen) (q : Nat) (hq : q ∈ probeBits e f) :
    bitAddress (s.buf0.base + headerBytes) q < addressSpace := by
  obtain ⟨h1, -, h3, -⟩ := filterAt_ok hf
  have hw := wellFormed_space hw
  obtain ⟨c, -, rfl⟩ := List.mem_map.mp hq
  have := bitAddress_lt (arr := s.buf0.base + headerBytes) (n := f.arrayLen)
    (fold_lt (probePos Config.engine e c f.header.seed) (bitLength := f.bitLength) (by unfold Filter.bitLength; omega))
  omega

theorem readElement_answers {s : State} (h : s.denied = []) (he : s.elem.wellFormed = true) :
    readElement s = .ok (s.elementBytes, s.traced (s.readEvents s.elem.len s.elem.base)) :=
  readBytes_admitted (fun _ _ _ => admits_of_nothing_denied h _ _) fun _ => wellFormed_space he

theorem addCommand_answers {s : State} (h : s.denied = []) (hb : s.buf0.wellFormed = true) (he : s.elem.wellFormed = true)
    {f : Filter} (hf : s.filterAt s.buf0 = .ok f) (hl : 0 < f.arrayLen) : ∃ t, addCommand Config.engine s = .ok t := by
  unfold addCommand
  rw [validateFilter_admitted fun hlen => ⟨fun _ _ _ => admits_of_nothing_denied h _ _, by
    have := wellFormed_space hb
    omega⟩]
  simp only [hb, he, hf, except_bind_ok, Bool.not_true, Bool.false_eq_true, if_false]
  rw [readElement_answers (s := s.traced (validateEvents s s.buf0)) h he]
  simp only [except_bind_ok]
  rw [traced_traced, addProbes_admitted (s := s.traced _) fun q hq =>
    ⟨probeBits_space hb hf hl q hq, admits_of_nothing_denied h _ _, admits_of_nothing_denied h _ _⟩]
  exact ⟨_, rfl⟩

theorem testCommand_answers {s : State} (h : s.denied = []) (hb : s.buf0.wellFormed = true) (he : s.elem.wellFormed = true)
    {f : Filter} (hf : s.filterAt s.buf0 = .ok f) (hl : 0 < f.arrayLen) : ∃ t, testCommand Config.engine s = .ok t := by
  unfold testCommand
  rw [validateFilter_admitted fun hlen => ⟨fun _ _ _ => admits_of_nothing_denied h _ _, by
    have := wellFormed_space hb
    omega⟩]
  simp only [hb, he, hf, except_bind_ok, Bool.not_true, Bool.false_eq_true, if_false]
  rw [readElement_answers (s := s.traced (validateEvents s s.buf0)) h he]
  simp only [except_bind_ok]
  rw [traced_traced, testProbes_admitted (s := s.traced _) fun q hq => ⟨probeBits_space hb hf hl q hq, admits_of_nothing_denied h _ _⟩]
  exact ⟨_, rfl⟩

theorem mergeCommand_answers {s : State} (h : s.denied = []) (hb : s.buf0.wellFormed = true) (he : s.buf1.wellFormed = true)
    (ho : s.buf0.partlyOverlaps s.buf1 = false) {f g : Filter} (hf : s.filterAt s.buf0 = .ok f)
    (hg : s.filterAt s.buf1 = .ok g) (hc : f.compatible g = true) : ∃ t, mergeCommand Config.engine s = .ok t := by
  have hfb := filterAt_ok hf
  have hgb := filterAt_ok hg
  have hfs := wellFormed_space hb
  have hgs := wellFormed_space he
  have hlen : f.arrayLen = g.arrayLen := by
    simp only [Filter.compatible, Bool.and_eq_true, beq_iff_eq] at hc
    exact hc.1.1.1
  unfold mergeCommand
  rw [validateFilter_admitted fun hlen => ⟨fun _ _ _ => admits_of_nothing_denied h _ _, by omega⟩]
  simp only [hb, he, ho, hf, except_bind_ok, Bool.not_true, Bool.or_self, Bool.false_eq_true, if_false]
  rw [validateFilter_admitted (s := s.traced _) fun hlen => ⟨fun _ _ _ => admits_of_nothing_denied h _ _, by omega⟩,
    filterAt_congr (s := s) (t := s.traced (validateEvents s s.buf0)) s.buf1 fun _ _ _ => rfl]
  simp only [hg, hc, except_bind_ok, Bool.not_true, Bool.false_eq_true, if_false]
  rw [traced_traced, mergeBytes_admitted (s := s.traced _) (fun _ _ _ => admits_of_nothing_denied h _ _) (fun _ _ _ => admits_of_nothing_denied h _ _)
    (fun _ _ _ => admits_of_nothing_denied h _ _)
    (by simp only [headerBytes] at *; omega) (by simp only [headerBytes] at *; omega)]
  exact ⟨_, rfl⟩

end Sys2Proof.Machine
end

