-- ==== Sys2Proof/Laws/Deriver.lean ====
section
/-! SUPPORT. The deriver's integer brackets against the real logarithm: squaring keeps its bounds, the brackets of log2 and
of ln 2 are sound, and the bit count they decide is the exact ceiling (spec R133, R134). -/

namespace Sys2Proof.Machine

/-! ## Ceilings -/

theorem ceilDiv_spec (a b : Nat) (hb : 0 < b) (m : Nat) : ceilDiv a b ≤ m ↔ a ≤ b * m := by
  unfold ceilDiv
  rw [Nat.div_le_iff_le_mul_add_pred hb]
  omega

theorem ceilDiv_eq_ceil (a b : Nat) (hb : 0 < b) : ceilDiv a b = ⌈(a : ℝ) / b⌉₊ := by
  refine le_antisymm ((ceilDiv_spec a b hb _).mpr ?_) (Nat.ceil_le.mpr ?_)
  · have h := Nat.le_ceil ((a : ℝ) / b)
    rw [div_le_iff₀ (by exact_mod_cast hb)] at h
    rw [mul_comm]
    exact_mod_cast h
  · rw [div_le_iff₀ (by exact_mod_cast hb)]
    have h := (ceilDiv_spec a b hb _).mp le_rfl
    rw [mul_comm]
    exact_mod_cast h

/-- If both ends of a bracket have one ceiling, everything between them has it. -/
theorem ceil_of_bracket {lo x hi : ℝ} (h1 : lo ≤ x) (h2 : x ≤ hi) (h : ⌈lo⌉₊ = ⌈hi⌉₊) : ⌈x⌉₊ = ⌈hi⌉₊ :=
  le_antisymm (Nat.ceil_le_ceil h2) (h ▸ Nat.ceil_le_ceil h1)

/-! ## Squaring with directed rounding -/

theorem shift_le (x d : Nat) : (x >>> d) * 2 ^ d ≤ x := by
  rw [Nat.shiftRight_eq_div_pow]
  exact Nat.div_mul_le_self _ _

theorem le_ceilDiv_mul (x d : Nat) : x ≤ ceilDiv x (2 ^ d) * 2 ^ d := by
  rw [mul_comm]
  exact (ceilDiv_spec x (2 ^ d) (by positivity) _).mp le_rfl

/-- Rounded-down squaring stays below the exact power. -/
theorem squareDown_le (width steps x e : Nat) :
    (squareDown width steps x e).1 * 2 ^ (squareDown width steps x e).2 ≤ (x * 2 ^ e) ^ 2 ^ steps := by
  induction steps generalizing x e with
  | zero => simp [squareDown]
  | succ k ih =>
    simp only [squareDown]
    refine (ih _ _).trans ?_
    rw [pow_succ 2 k, mul_comm (2 ^ k) 2, pow_mul (x * 2 ^ e) 2]
    refine Nat.pow_le_pow_left ?_ _
    generalize (x * x).log2 + 1 - width = d
    have := shift_le (x * x) d
    calc (x * x) >>> d * 2 ^ (2 * e + d) = ((x * x) >>> d * 2 ^ d) * 2 ^ (2 * e) := by rw [pow_add]; ring
      _ ≤ (x * x) * 2 ^ (2 * e) := Nat.mul_le_mul_right _ this
      _ = (x * 2 ^ e) ^ 2 := by rw [mul_comm 2 e, pow_mul]; ring

/-- Rounded-up squaring stays above the exact power. -/
theorem le_squareUp (width steps x e : Nat) :
    (x * 2 ^ e) ^ 2 ^ steps ≤ (squareUp width steps x e).1 * 2 ^ (squareUp width steps x e).2 := by
  induction steps generalizing x e with
  | zero => simp [squareUp]
  | succ k ih =>
    simp only [squareUp]
    refine le_trans ?_ (ih _ _)
    rw [pow_succ 2 k, mul_comm (2 ^ k) 2, pow_mul (x * 2 ^ e) 2]
    refine Nat.pow_le_pow_left ?_ _
    generalize (x * x).log2 + 1 - width = d
    have := le_ceilDiv_mul (x * x) d
    calc (x * 2 ^ e) ^ 2 = (x * x) * 2 ^ (2 * e) := by rw [mul_comm 2 e, pow_mul]; ring
      _ ≤ (ceilDiv (x * x) (2 ^ d) * 2 ^ d) * 2 ^ (2 * e) := Nat.mul_le_mul_right _ this
      _ = ceilDiv (x * x) (2 ^ d) * 2 ^ (2 * e + d) := by rw [pow_add]; ring

/-- Squaring up never loses a non-zero number. -/
theorem squareDown_pos (width steps x e : Nat) (hx : 0 < x) (hw : 0 < width) :
    0 < (squareDown width steps x e).1 := by
  induction steps generalizing x e with
  | zero => exact hx
  | succ k ih =>
    simp only [squareDown]
    refine ih _ _ ?_
    have hxx : x * x ≠ 0 := by positivity
    rw [Nat.shiftRight_eq_div_pow]
    refine Nat.div_pos ?_ (by positivity)
    calc 2 ^ ((x * x).log2 + 1 - width) ≤ 2 ^ (x * x).log2 := Nat.pow_le_pow_right (by omega) (by omega)
      _ ≤ x * x := Nat.log2_self_le hxx

/-! ## The brackets of log2 -/

theorem logb_two_pow_steps (steps sig : Nat) :
    Real.logb 2 (((sig : ℝ)) ^ 2 ^ steps) = 2 ^ steps * Real.logb 2 sig := by
  rw [Real.logb_pow]
  push_cast
  ring

theorem log2Below_le (steps sig : Nat) (h : 0 < sig) : (log2Below steps sig : ℝ) ≤ 2 ^ steps * Real.logb 2 sig := by
  rw [← logb_two_pow_steps, Real.le_logb_iff_rpow_le (by norm_num) (by positivity), Real.rpow_natCast]
  have h1 := squareDown_le (steps + guardBits) steps sig 0
  have h2 := Nat.log2_self_le (n := (squareDown (steps + guardBits) steps sig 0).1)
    (squareDown_pos _ _ _ _ h (by unfold guardBits; omega)).ne'
  rw [pow_zero, mul_one] at h1
  have : 2 ^ log2Below steps sig ≤ sig ^ 2 ^ steps := by
    refine le_trans ?_ h1
    simp only [log2Below]
    rw [pow_add, mul_comm]
    exact Nat.mul_le_mul_right _ h2
  exact_mod_cast this

theorem le_log2Above (steps sig : Nat) (h : 0 < sig) : 2 ^ steps * Real.logb 2 sig ≤ (log2Above steps sig : ℝ) := by
  rw [← logb_two_pow_steps, Real.logb_le_iff_le_rpow (by norm_num) (by positivity), Real.rpow_natCast]
  have h1 := le_squareUp (steps + guardBits) steps sig 0
  have h2 := Nat.lt_log2_self (n := (squareUp (steps + guardBits) steps sig 0).1)
  rw [pow_zero, mul_one] at h1
  have : sig ^ 2 ^ steps ≤ 2 ^ log2Above steps sig := by
    refine h1.trans ?_
    simp only [log2Above]
    rw [add_assoc, pow_add, mul_comm]
    exact Nat.mul_le_mul_left _ h2.le
  exact_mod_cast this

/-! ## The brackets of log2(1/p) = scale - log2(sig) -/

theorem powerOfTwo_logb {sig : Nat} (h : isPowerOfTwo sig = true) : Real.logb 2 sig = sig.log2 := by
  have h' : sig = 2 ^ sig.log2 := by simpa [isPowerOfTwo] using h
  have hc : ((sig : Nat) : ℝ) = (2 : ℝ) ^ (sig.log2 : Nat) := by exact_mod_cast congrArg (Nat.cast (R := ℝ)) h'
  rw [hc, ← Real.rpow_natCast, Real.logb_rpow (by norm_num) (by norm_num)]

theorem log2_le_scale {sig scale : Nat} (h0 : 0 < sig) (h : sig < 2 ^ scale) : sig.log2 ≤ scale :=
  (Nat.log2_lt h0.ne').mpr h |>.le

theorem logb_lt_scale {sig scale : Nat} (h0 : 0 < sig) (h : sig < 2 ^ scale) : Real.logb 2 sig < scale := by
  rw [Real.logb_lt_iff_lt_rpow (by norm_num) (by exact_mod_cast h0), Real.rpow_natCast]
  exact_mod_cast h

theorem rateLogBelow_le (steps sig scale : Nat) (h0 : 0 < sig) (h : sig < 2 ^ scale) :
    (rateLogBelow steps sig scale : ℝ) ≤ 2 ^ steps * (scale - Real.logb 2 sig) := by
  unfold rateLogBelow
  split
  · rename_i hp
    rw [powerOfTwo_logb hp]
    push_cast [log2_le_scale h0 h]
    linarith
  · have h1 := le_log2Above steps sig h0
    have h2 := logb_lt_scale h0 h
    rcases le_total (log2Above steps sig) (scale * 2 ^ steps) with hle | hle
    · push_cast [hle]
      linarith
    · rw [Nat.sub_eq_zero_of_le hle]
      have : (0 : ℝ) < 2 ^ steps := by positivity
      push_cast
      nlinarith

theorem le_rateLogAbove (steps sig scale : Nat) (h0 : 0 < sig) (h : sig < 2 ^ scale) :
    2 ^ steps * (scale - Real.logb 2 sig) ≤ (rateLogAbove steps sig scale : ℝ) := by
  unfold rateLogAbove
  split
  · rename_i hp
    rw [powerOfTwo_logb hp]
    push_cast [log2_le_scale h0 h]
    linarith
  · have h1 := log2Below_le steps sig h0
    have h2 := logb_lt_scale h0 h
    have hpos : (0 : ℝ) < 2 ^ steps := by positivity
    have hle : log2Below steps sig ≤ scale * 2 ^ steps := by
      have : (log2Below steps sig : ℝ) ≤ scale * 2 ^ steps := by nlinarith
      exact_mod_cast this
    push_cast [hle]
    linarith

/-! ## The bit count -/

/-- The exact integer comparison is `m >= (36/25) x n x log2(1/p)`. -/
theorem enoughBits_iff (n sig scale m : Nat) (h0 : 0 < sig) :
    enoughBits n sig scale m = true ↔ (36 / 25 : ℝ) * n * (scale - Real.logb 2 sig) ≤ m := by
  unfold enoughBits
  rw [decide_eq_true_eq]
  have h2 : (0 : ℝ) < (sig : ℝ) ^ (36 * n) * 2 ^ (25 * m) := by positivity
  have hcast : (2 ^ (36 * n * scale) ≤ sig ^ (36 * n) * 2 ^ (25 * m)) ↔
      ((2 : ℝ) ^ (36 * n * scale) ≤ (sig : ℝ) ^ (36 * n) * 2 ^ (25 * m)) := by exact_mod_cast Iff.rfl
  rw [hcast, ← Real.rpow_natCast 2 (36 * n * scale), ← Real.le_logb_iff_rpow_le (by norm_num) h2,
    Real.logb_mul (by positivity) (by positivity), Real.logb_pow, Real.logb_pow,
    Real.logb_self_eq_one (by norm_num)]
  push_cast
  constructor <;> intro h <;> linarith

theorem leastFrom_eq {test : Nat → Bool} {fuel m r : Nat} (hr : test r = true) (hmin : ∀ i, i < r → test i = false)
    (h1 : m ≤ r) (h2 : r ≤ m + fuel) : leastFrom test fuel m = r := by
  induction fuel generalizing m with
  | zero => simp only [leastFrom]; omega
  | succ k ih =>
    simp only [leastFrom]
    rcases Nat.eq_or_lt_of_le h1 with rfl | hlt
    · rw [if_pos hr]
    · rw [if_neg (by simp [hmin m hlt])]
      exact ih (by omega) (by omega)

/-- Whatever precisions are tried, the bit count is the exact ceiling of (36/25) x n x log2(1/p), p = sig x 2^-scale
(R133, R134). -/
theorem optimalBitsAt_eq_ceil (n sig scale : Nat) (h0 : 0 < sig) (h : sig < 2 ^ scale) (tried : List Nat) :
    optimalBitsAt n sig scale tried = ⌈(36 / 25 : ℝ) * n * (scale - Real.logb 2 sig)⌉₊ := by
  have hlog := logb_lt_scale h0 h
  have hlog0 : 0 ≤ Real.logb 2 (sig : ℝ) := Real.logb_nonneg (by norm_num) (by exact_mod_cast h0)
  induction tried with
  | nil =>
    simp only [optimalBitsAt]
    refine leastFrom_eq ?_ ?_ (Nat.zero_le _) ?_
    · exact (enoughBits_iff n sig scale _ h0).mpr (Nat.le_ceil _)
    · intro i hi
      rw [Bool.eq_false_iff]
      intro hc
      exact absurd (Nat.ceil_le.mpr ((enoughBits_iff n sig scale i h0).mp hc)) (by omega)
    · refine Nat.ceil_le.mpr ?_
      push_cast
      have hn : (0 : ℝ) ≤ n := Nat.cast_nonneg n
      have hs : (0 : ℝ) ≤ scale := Nat.cast_nonneg scale
      have : (n : ℝ) * (scale - Real.logb 2 sig) ≤ n * scale := mul_le_mul_of_nonneg_left (by linarith) hn
      nlinarith [mul_nonneg hn hs]
  | cons steps more ih =>
    simp only [optimalBitsAt]
    split
    · rename_i heq
      rw [ceilDiv_eq_ceil _ _ (by positivity), ceilDiv_eq_ceil _ _ (by positivity)] at heq
      rw [ceilDiv_eq_ceil _ _ (by positivity)]
      have hpow : (0 : ℝ) < 2 ^ steps := by positivity
      have hn : (0 : ℝ) ≤ n := Nat.cast_nonneg n
      have hlo := rateLogBelow_le steps sig scale h0 h
      have hhi := le_rateLogAbove steps sig scale h0 h
      refine (ceil_of_bracket ?_ ?_ heq).symm
      · rw [div_le_iff₀ (by positivity)]
        push_cast
        nlinarith [mul_le_mul_of_nonneg_left hlo hn]
      · rw [le_div_iff₀ (by positivity)]
        push_cast
        nlinarith [mul_le_mul_of_nonneg_left hhi hn]
    · exact ih

/-! ## The bracket of ln 2 -/

/-- The rounded-down series loses less than 1 in each term. -/
theorem lnTwoSum_bounds (width n : Nat) :
    (lnTwoSum width n : ℝ) ≤ 2 ^ width * ∑ i ∈ Finset.range n, ((1 / 2 : ℝ)) ^ (i + 1) / (i + 1) ∧
      2 ^ width * ∑ i ∈ Finset.range n, ((1 / 2 : ℝ)) ^ (i + 1) / (i + 1) ≤ lnTwoSum width n + n := by
  induction n with
  | zero => simp [lnTwoSum]
  | succ n ih =>
    have hterm : (2 : ℝ) ^ width * ((1 / 2 : ℝ) ^ (n + 1) / (n + 1)) =
        ((2 ^ width : Nat) : ℝ) / (((n + 1) * 2 ^ (n + 1) : Nat) : ℝ) := by
      push_cast
      rw [one_div, inv_pow]
      field_simp
    have h1 := Nat.floor_le (div_nonneg (Nat.cast_nonneg (α := ℝ) (2 ^ width)) (Nat.cast_nonneg ((n + 1) * 2 ^ (n + 1))))
    have h2 := Nat.lt_floor_add_one (((2 ^ width : Nat) : ℝ) / (((n + 1) * 2 ^ (n + 1) : Nat) : ℝ))
    rw [Nat.floor_div_eq_div] at h1 h2
    simp only [lnTwoSum]
    rw [Finset.sum_range_succ, mul_add, hterm]
    push_cast at *
    constructor <;> linarith [ih.1, ih.2]

/-- The brackets of ln 2 are sound (R147). -/
theorem lnTwo_bracket (width : Nat) :
    (lnTwoBelow width : ℝ) ≤ 2 ^ width * Real.log 2 ∧ 2 ^ width * Real.log 2 ≤ lnTwoAbove width := by
  have hsum : HasSum (fun i : ℕ => (1 / 2 : ℝ) ^ (i + 1) / (i + 1)) (Real.log 2) := by
    have := Real.hasSum_pow_div_log_of_abs_lt_one (x := 1 / 2) (by rw [abs_of_pos] <;> norm_num)
    have he : -Real.log (1 - 1 / 2) = Real.log 2 := by
      rw [show (1 : ℝ) - 1 / 2 = 2⁻¹ by norm_num, Real.log_inv, neg_neg]
    rwa [he] at this
  obtain ⟨h1, h2⟩ := lnTwoSum_bounds width width
  have hpow : (0 : ℝ) < 2 ^ width := by positivity
  have hle : ∑ i ∈ Finset.range width, ((1 / 2 : ℝ)) ^ (i + 1) / (i + 1) ≤ Real.log 2 :=
    sum_le_hasSum _ (fun i _ => by positivity) hsum
  have hge : Real.log 2 ≤ ∑ i ∈ Finset.range width, ((1 / 2 : ℝ)) ^ (i + 1) / (i + 1) + (1 / 2 : ℝ) ^ width := by
    have htail := (hasSum_nat_add_iff' width).mpr hsum
    have hgeo : HasSum (fun i : ℕ => (1 / 2 : ℝ) ^ width * ((1 / 2) / 2 ^ i)) ((1 / 2 : ℝ) ^ width * 1) :=
      (hasSum_geometric_two' (1 : ℝ)).mul_left ((1 / 2 : ℝ) ^ width)
    have := hasSum_le (fun i => ?_) htail hgeo
    · linarith
    · rw [show (1 / 2 : ℝ) ^ (i + width + 1) = (1 / 2 : ℝ) ^ width * ((1 / 2) / 2 ^ i) by
        rw [show i + width + 1 = width + 1 + i by ring, pow_add, pow_succ, one_div_pow 2 i]; ring]
      refine div_le_self (by positivity) ?_
      push_cast
      have : (0 : ℝ) ≤ i := Nat.cast_nonneg i
      have : (0 : ℝ) ≤ width := Nat.cast_nonneg width
      linarith
  constructor
  · exact h1.trans (mul_le_mul_of_nonneg_left hle hpow.le)
  · have hone : (2 : ℝ) ^ width * (1 / 2) ^ width = 1 := by rw [← mul_pow]; norm_num
    have := mul_le_mul_of_nonneg_left hge hpow.le
    rw [mul_add, hone] at this
    unfold lnTwoAbove lnTwoBelow
    push_cast
    linarith

end Sys2Proof.Machine
end

