-- ==== Sys2Proof/Laws/PerInstr.lean ====
section
/-! SUPPORT. The statements made for all commands, one lemma per constructor: every command's word is one of the eleven
legal words and decodes to that command. -/

namespace Sys2Proof.Laws

/-- The command's word is legal, decodes to the command, and is the same word as the host's table gives (R91, R92). -/
def EncodedWord.Statement (i : Instr) : Prop :=
  decode (encode i) = .ok i ∧ (fieldsOf (encode i)).wellFormed = true ∧ decodeTableWord 32 (encode i).toNat = some i ∧
    i.wellFormed = true

theorem EncodedWord.nop : EncodedWord.Statement .nop := by unfold EncodedWord.Statement; decide
theorem EncodedWord.optbits : EncodedWord.Statement .optbits := by unfold EncodedWord.Statement; decide
theorem EncodedWord.optprobes : EncodedWord.Statement .optprobes := by unfold EncodedWord.Statement; decide
theorem EncodedWord.derive : EncodedWord.Statement .derive := by unfold EncodedWord.Statement; decide
theorem EncodedWord.probe : EncodedWord.Statement .probe := by unfold EncodedWord.Statement; decide
theorem EncodedWord.setbit : EncodedWord.Statement .setbit := by unfold EncodedWord.Statement; decide
theorem EncodedWord.testbit : EncodedWord.Statement .testbit := by unfold EncodedWord.Statement; decide
theorem EncodedWord.init : EncodedWord.Statement .init := by unfold EncodedWord.Statement; decide
theorem EncodedWord.add : EncodedWord.Statement .add := by unfold EncodedWord.Statement; decide
theorem EncodedWord.test : EncodedWord.Statement .test := by unfold EncodedWord.Statement; decide
theorem EncodedWord.merge : EncodedWord.Statement .merge := by unfold EncodedWord.Statement; decide

end Sys2Proof.Laws
end

