-- ==== Sys2Proof/Laws/Trace.lean ====
section
/-! SUPPORT. What the platform's refusals do to a command (spec R77, R282): up to a refused access it makes the accesses it
makes where nothing is refused, and if none is refused it ends in the same state. -/

namespace Sys2Proof.Machine

/-- Two runs of one piece of a command from `s`: `r` under the platform's refusals, `r'` where nothing is refused. `st` is
the state of a result and `free` the result with the refusals taken away. -/
structure SameUpToRefusal {α : Type} (st : α → State) (free : α → α) (s : State) (r r' : Except Fault α) : Prop where
  /-- If nothing is refused on the way, both end alike, and every access was admitted. -/
  answers : ∀ x, r = .ok x → r' = .ok (free x) ∧ (st x).denied = s.denied ∧
    ∃ events, (st x).trace = s.trace ++ events ∧ ∀ e ∈ events, s.admitsEvent e = true
  /-- If an access is refused, it is the first refused one of the other run's trace. -/
  refuses : ∀ kind a, r = .error (.portRefused kind a) → ∀ x, r' = .ok x →
    ∃ events e more, (st x).trace = s.trace ++ (events ++ e :: more) ∧ (∀ e' ∈ events, s.admitsEvent e' = true) ∧
      s.admitsEvent e = false ∧ e.isAccess kind a
  /-- The run without refusals only adds to the trace. -/
  extends_trace : ∀ x, r' = .ok x → ∃ events, (st x).trace = s.trace ++ events

/-- A body that ends in a state. -/
abbrev SameRun (s : State) (r r' : Run) : Prop := SameUpToRefusal id State.unrestricted s r r'

/-- A part of a command that gives a value and a state. -/
abbrev SamePart {β : Type} (s : State) (r r' : Except Fault (β × State)) : Prop :=
  SameUpToRefusal Prod.snd (fun x => (x.1, x.2.unrestricted)) s r r'

theorem admitsEvent_congr {s t : State} (h : t.denied = s.denied) (e : PortEvent) : t.admitsEvent e = s.admitsEvent e := by
  cases e <;> simp [State.admitsEvent, State.admits, h]

theorem SameUpToRefusal.done {α : Type} {st : α → State} {free : α → α} {s : State} {x : α}
    (hd : (st x).denied = s.denied) (ht : (st x).trace = s.trace) (hf : (st (free x)).trace = s.trace) :
    SameUpToRefusal st free s (.ok x) (.ok (free x)) where
  answers y h := by cases h; exact ⟨rfl, hd, [], by simp [ht], by simp⟩
  refuses _ _ h := by cases h
  extends_trace y h := by cases h; exact ⟨[], by simp [hf]⟩

/-- Parts in sequence. -/
theorem SameUpToRefusal.bind {α β : Type} {st : α → State} {free : α → α} {st' : β → State} {free' : β → β} {s : State}
    {r r' : Except Fault α} {g g' : α → Except Fault β} (h : SameUpToRefusal st free s r r')
    (hg : ∀ x, r = .ok x → SameUpToRefusal st' free' (st x) (g x) (g' (free x)))
    (he : ∀ x y, r' = .ok x → g' x = .ok y → ∃ events, (st' y).trace = (st x).trace ++ events) :
    SameUpToRefusal st' free' s (r >>= g) (r' >>= g') where
  answers y hy := by
    obtain ⟨x, hx, hy⟩ := except_bind_eq_ok hy
    obtain ⟨h1, hd, events, ht, hadm⟩ := h.answers x hx
    obtain ⟨h2, hd', events', ht', hadm'⟩ := (hg x hx).answers y hy
    refine ⟨by rw [h1]; exact h2, hd'.trans hd, events ++ events', by rw [ht', ht, List.append_assoc], ?_⟩
    intro e he
    rcases List.mem_append.mp he with he | he
    · exact hadm e he
    · rw [← admitsEvent_congr hd]; exact hadm' e he
  refuses kind a hr y hy := by
    obtain ⟨x', hx', hy⟩ := except_bind_eq_ok hy
    cases hrr : r with
    | error f =>
      rw [hrr] at hr
      have hf : f = .portRefused kind a := by
        have : (Except.error f : Except Fault β) = .error (.portRefused kind a) := hr
        injection this
      subst hf
      obtain ⟨events, e, more, ht, h1, h2, h3⟩ := h.refuses kind a hrr x' hx'
      obtain ⟨events', ht'⟩ := he x' y hx' hy
      exact ⟨events, e, more ++ events', by rw [ht', ht]; simp, h1, h2, h3⟩
    | ok x =>
      obtain ⟨h1, hd, events, ht, hadm⟩ := h.answers x hrr
      rw [hrr] at hr
      rw [h1] at hx'
      cases hx'
      obtain ⟨events', e, more, ht', h1', h2', h3'⟩ := (hg x hrr).refuses kind a hr y hy
      refine ⟨events ++ events', e, more, by rw [ht', ht]; simp, ?_, by rw [← admitsEvent_congr hd]; exact h2', h3'⟩
      intro e' he'
      rcases List.mem_append.mp he' with he' | he'
      · exact hadm e' he'
      · rw [← admitsEvent_congr hd]; exact h1' e' he'
  extends_trace y hy := by
    obtain ⟨x, hx, hy⟩ := except_bind_eq_ok hy
    obtain ⟨events, ht⟩ := h.extends_trace x hx
    obtain ⟨events', ht'⟩ := he x y hx hy
    exact ⟨events ++ events', by rw [ht', ht, List.append_assoc]⟩

/-! ## The port -/

theorem unrestricted_admits (s : State) (kind : AccessKind) (a : Nat) : s.unrestricted.admits kind a = true :=
  admits_of_nothing_denied rfl kind a

theorem portRead_same (a : Nat) (s : State) : SamePart s (portRead a s) (portRead a s.unrestricted) := by
  unfold portRead portCheck
  rw [unrestricted_admits]
  by_cases ha : addressSpace ≤ a
  · rw [if_pos ha, if_pos ha]
    exact ⟨fun _ h => (by cases h), fun _ _ h => (by cases h), fun _ h => (by cases h)⟩
  · rw [if_neg ha, if_neg ha]
    by_cases h : s.admits .read a = true
    · rw [if_pos h]
      refine ⟨fun x hx => ?_, fun _ _ hx => (by cases hx), fun x hx => ?_⟩ <;> cases hx
      · exact ⟨rfl, rfl, _, rfl, by simpa [State.admitsEvent] using h⟩
      · exact ⟨_, rfl⟩
    · rw [if_neg h]
      refine ⟨fun x hx => (by cases hx), fun kind b hx x hx' => ?_, fun x hx => ?_⟩ <;> cases hx
      · cases hx'
        exact ⟨[], _, [], rfl, by simp, by simpa [State.admitsEvent] using h, _, rfl⟩
      · exact ⟨_, rfl⟩

theorem portWrite_same (a : Nat) (v : Byte) (s : State) : SameRun s (portWrite a v s) (portWrite a v s.unrestricted) := by
  unfold portWrite portCheck
  rw [unrestricted_admits]
  by_cases ha : addressSpace ≤ a
  · rw [if_pos ha, if_pos ha]
    exact ⟨fun _ h => (by cases h), fun _ _ h => (by cases h), fun _ h => (by cases h)⟩
  · rw [if_neg ha, if_neg ha]
    by_cases h : s.admits .write a = true
    · rw [if_pos h]
      refine ⟨fun x hx => ?_, fun _ _ hx => (by cases hx), fun x hx => ?_⟩ <;> cases hx
      · exact ⟨rfl, rfl, _, rfl, by simpa [State.admitsEvent] using h⟩
      · exact ⟨_, rfl⟩
    · rw [if_neg h]
      refine ⟨fun x hx => (by cases hx), fun kind b hx x hx' => ?_, fun x hx => ?_⟩ <;> cases hx
      · cases hx'
        exact ⟨[], _, [], rfl, by simp, by simpa [State.admitsEvent] using h, _, rfl⟩
      · exact ⟨_, rfl⟩

/-! ## Byte strings, the codec and the loops only add to the trace -/

theorem portRead_trace {a : Nat} {s : State} {x : Byte × State} (h : portRead a s = .ok x) :
    ∃ events, x.2.trace = s.trace ++ events := by
  obtain ⟨-, h, -⟩ := portRead_next (v := x.1) (t := x.2) h
  exact ⟨_, by rw [h]; rfl⟩

theorem portWrite_trace {a : Nat} {v : Byte} {s t : State} (h : portWrite a v s = .ok t) :
    ∃ events, t.trace = s.trace ++ events := by
  obtain ⟨h, -⟩ := portWrite_next h
  exact ⟨_, by rw [h]; rfl⟩

theorem readBytes_trace {n a : Nat} {s : State} {x : List Byte × State} (h : readBytes n a s = .ok x) :
    ∃ events, x.2.trace = s.trace ++ events := by
  obtain ⟨-, h, -⟩ := readBytes_next (bs := x.1) (t := x.2) h
  exact ⟨_, by rw [h]; rfl⟩

theorem traced_storeBytes_trace (s : State) (bs : List Byte) (a : Nat) : (storeBytes s bs a).trace = s.trace := by
  induction bs generalizing s a with
  | nil => rfl
  | cons b bs ih => exact ih (s.store a b) (a + 1)

theorem writeBytes_trace {bs : List Byte} {a : Nat} {s t : State} (h : writeBytes bs a s = .ok t) :
    ∃ events, t.trace = s.trace ++ events := by
  obtain ⟨h, -⟩ := writeBytes_next h
  exact ⟨_, by rw [h, traced_trace, traced_storeBytes_trace]⟩

theorem setBit_trace {arr bitLength : Nat} {pos : Word} {s t : State} (h : setBit arr bitLength pos s = .ok t) :
    ∃ events, t.trace = s.trace ++ events := by
  obtain ⟨h, -⟩ := setBit_next h
  exact ⟨_, by rw [h]; rfl⟩

theorem testBit_trace {arr bitLength : Nat} {pos : Word} {s : State} {x : Bool × State}
    (h : testBit arr bitLength pos s = .ok x) : ∃ events, x.2.trace = s.trace ++ events := by
  obtain ⟨-, h, -⟩ := testBit_next (b := x.1) (t := x.2) h
  exact ⟨_, by rw [h]; rfl⟩

theorem storeBits_trace (s : State) (arr : Nat) (qs : List Nat) : (storeBits s arr qs).trace = s.trace := by
  induction qs generalizing s with
  | nil => rfl
  | cons q qs ih => exact ih (storeBit s arr q)

theorem addProbes_trace {P : Params} {e : List Byte} {seed : Word} {arr bitLength : Nat} {entries : List Int} {s t : State}
    (h : addProbes P e seed arr bitLength entries s = .ok t) : ∃ events, t.trace = s.trace ++ events := by
  obtain ⟨h, -⟩ := addProbes_next h
  exact ⟨_, by rw [h, traced_trace, storeBits_trace]⟩

theorem testProbes_trace {P : Params} {e : List Byte} {seed : Word} {arr bitLength : Nat} {entries : List Int} {s : State}
    {x : Bool × State} (h : testProbes P e seed arr bitLength entries s = .ok x) :
    ∃ events, x.2.trace = s.trace ++ events := by
  obtain ⟨-, h⟩ := testProbes_next (b := x.1) (t := x.2) h
  exact ⟨_, by rw [h]; rfl⟩

theorem storeMerge_trace (s : State) (n src dst : Nat) : (storeMerge s n src dst).trace = s.trace := by
  induction n generalizing s src dst with
  | zero => rfl
  | succ n ih => exact ih (s.store dst (s.byteAt dst ||| s.byteAt src)) _ _

theorem mergeBytes_trace {n src dst : Nat} {s t : State} (h : mergeBytes n src dst s = .ok t) :
    ∃ events, t.trace = s.trace ++ events := by
  obtain ⟨h, -⟩ := mergeBytes_next h
  exact ⟨_, by rw [h, traced_trace, storeMerge_trace]⟩

theorem validateFilter_trace {d : Descriptor} {s : State} {x : Except ErrorCode Filter × State}
    (h : validateFilter Config.engine d s = .ok x) : ∃ events, x.2.trace = s.trace ++ events := by
  obtain ⟨-, h, -⟩ := validateFilter_next (v := x.1) (t := x.2) h
  exact ⟨_, by rw [h]; rfl⟩

/-! ## The pieces of the commands -/

theorem readBytes_same (n a : Nat) (s : State) : SamePart s (readBytes n a s) (readBytes n a s.unrestricted) := by
  induction n generalizing a s with
  | zero => exact .done rfl rfl rfl
  | succ n ih =>
    refine .bind (portRead_same a s) (fun x _ => ?_) (fun x y _ h => ?_)
    · exact .bind (ih (a + 1) x.2) (fun y _ => .done rfl rfl rfl) (fun y z _ h => by cases h; exact ⟨[], by simp⟩)
    · obtain ⟨z, hz, h⟩ := except_bind_eq_ok h
      cases h
      exact readBytes_trace (x := z) hz

theorem writeBytes_same (bs : List Byte) (a : Nat) (s : State) :
    SameRun s (writeBytes bs a s) (writeBytes bs a s.unrestricted) := by
  induction bs generalizing a s with
  | nil => exact .done rfl rfl rfl
  | cons b bs ih => exact .bind (portWrite_same a b s) (fun x _ => ih (a + 1) x) (fun _ _ _ h => writeBytes_trace h)

theorem setBit_same (arr bitLength : Nat) (pos : Word) (s : State) :
    SameRun s (setBit arr bitLength pos s) (setBit arr bitLength pos s.unrestricted) :=
  .bind (portRead_same _ s) (fun x _ => portWrite_same _ _ x.2) (fun _ _ _ h => portWrite_trace h)

theorem testBit_same (arr bitLength : Nat) (pos : Word) (s : State) :
    SamePart s (testBit arr bitLength pos s) (testBit arr bitLength pos s.unrestricted) :=
  .bind (portRead_same _ s) (fun _ _ => .done rfl rfl rfl) (fun _ _ _ h => by cases h; exact ⟨[], by simp⟩)

theorem validateFilter_same (d : Descriptor) (s : State) :
    SamePart s (validateFilter Config.engine d s) (validateFilter Config.engine d s.unrestricted) := by
  unfold validateFilter
  split
  · exact .done rfl rfl rfl
  · refine .bind (st := Prod.snd) (free := fun x => (x.1, x.2.unrestricted)) ?_ (fun _ _ => .done rfl rfl rfl)
      (fun _ _ _ h => by cases h; exact ⟨[], by simp⟩)
    exact .bind (readBytes_same _ _ s) (fun _ _ => .done rfl rfl rfl) (fun _ _ _ h => by cases h; exact ⟨[], by simp⟩)

/-- A hash evaluation first: it is an entry of both traces. -/
theorem SameUpToRefusal.after_log {α : Type} {st : α → State} {free : α → α} {s : State} {w : Word} {r r' : Except Fault α}
    (h : SameUpToRefusal st free (s.log (.hash w)) r r') : SameUpToRefusal st free s r r' where
  answers x hx := by
    obtain ⟨h1, h2, events, h3, h4⟩ := h.answers x hx
    refine ⟨h1, h2, .hash w :: events, by rw [h3]; simp, fun e he => ?_⟩
    rcases List.mem_cons.mp he with rfl | he
    · rfl
    · exact h4 e he
  refuses kind a hr x hx := by
    obtain ⟨events, e, more, h1, h2, h3, h4⟩ := h.refuses kind a hr x hx
    refine ⟨.hash w :: events, e, more, by rw [h1]; simp, fun e' he => ?_, h3, h4⟩
    rcases List.mem_cons.mp he with rfl | he
    · rfl
    · exact h2 e' he
  extends_trace x hx := by
    obtain ⟨events, h1⟩ := h.extends_trace x hx
    exact ⟨.hash w :: events, by rw [h1]; simp⟩

theorem addProbes_same (P : Params) (e : List Byte) (seed : Word) (arr bitLength : Nat) (entries : List Int) (s : State) :
    SameRun s (addProbes P e seed arr bitLength entries s) (addProbes P e seed arr bitLength entries s.unrestricted) := by
  induction entries generalizing s with
  | nil => exact .done rfl rfl rfl
  | cons c cs ih =>
    exact .after_log (w := seedWord c seed)
      (.bind (setBit_same _ _ _ (s.log (.hash (seedWord c seed)))) (fun x _ => ih x) (fun _ _ _ h => addProbes_trace h))

theorem testProbes_same (P : Params) (e : List Byte) (seed : Word) (arr bitLength : Nat) (entries : List Int) (s : State) :
    SamePart s (testProbes P e seed arr bitLength entries s) (testProbes P e seed arr bitLength entries s.unrestricted) := by
  induction entries generalizing s with
  | nil => exact .done rfl rfl rfl
  | cons c cs ih =>
    refine .after_log (w := seedWord c seed)
      (.bind (testBit_same _ _ _ (s.log (.hash (seedWord c seed)))) (fun x _ => ?_) (fun x y _ h => ?_))
    · rcases x with ⟨_ | _, t⟩
      · exact .done rfl rfl rfl
      · exact ih t
    · rcases x with ⟨_ | _, t⟩
      · cases h; exact ⟨[], by simp⟩
      · exact testProbes_trace h

theorem mergeBytes_same (n src dst : Nat) (s : State) :
    SameRun s (mergeBytes n src dst s) (mergeBytes n src dst s.unrestricted) := by
  induction n generalizing src dst s with
  | zero => exact .done rfl rfl rfl
  | succ n ih =>
    refine .bind (portRead_same src s) (fun x _ => ?_) (fun x y _ h => ?_)
    · refine .bind (portRead_same dst x.2) (fun y _ => ?_) (fun y z _ h => ?_)
      · exact .bind (portWrite_same _ _ y.2) (fun z _ => ih _ _ z) (fun _ _ _ h => mergeBytes_trace h)
      · obtain ⟨u, hu, h⟩ := except_bind_eq_ok h
        obtain ⟨ev, hev⟩ := portWrite_trace hu
        obtain ⟨ev', hev'⟩ := mergeBytes_trace h
        exact ⟨ev ++ ev', by show z.trace = _; rw [hev', hev, List.append_assoc]⟩
    · obtain ⟨z, hz, h⟩ := except_bind_eq_ok h
      obtain ⟨u, hu, h⟩ := except_bind_eq_ok h
      obtain ⟨ev0, hev0⟩ := portRead_trace hz
      obtain ⟨ev, hev⟩ := portWrite_trace hu
      obtain ⟨ev', hev'⟩ := mergeBytes_trace h
      exact ⟨ev0 ++ ev ++ ev', by show y.trace = _; rw [hev', hev, hev0]; simp⟩

/-! ## The commands -/

theorem ignore_nothing {s : State} {f : State → State} (hd : (f s).denied = s.denied) (ht : (f s).trace = s.trace)
    (hf : (f s).unrestricted = f s.unrestricted) : SameRun s (.ok (f s)) (.ok (f s.unrestricted)) := by
  rw [← hf]
  exact .done hd ht ht

theorem finishing {s : State} {r r' : Run} {f : State → State} (h : SameRun s r r') (hd : ∀ t, (f t).denied = t.denied)
    (ht : ∀ t, (f t).trace = t.trace) (hf : ∀ t, (f t).unrestricted = f t.unrestricted) :
    SameRun s (r >>= fun t => pure (f t)) (r' >>= fun t => pure (f t)) :=
  .bind h (fun x _ => ignore_nothing (hd x) (ht x) (hf x)) (fun x _ _ h => by cases h; exact ⟨[], by simp [ht]⟩)

theorem setbitCommand_same (s : State) : SameRun s (setbitCommand s) (setbitCommand s.unrestricted) := by
  unfold setbitCommand
  rw [show bareArrayError s.unrestricted = bareArrayError s from rfl]
  rcases bareArrayError s with _ | c
  rotate_left
  · exact .done rfl rfl rfl
  · exact finishing (f := done false) (setBit_same _ _ _ s) (fun _ => rfl) (fun _ => rfl) fun _ => rfl

theorem testbitCommand_same (s : State) : SameRun s (testbitCommand s) (testbitCommand s.unrestricted) := by
  unfold testbitCommand
  rw [show bareArrayError s.unrestricted = bareArrayError s from rfl]
  rcases bareArrayError s with _ | c
  rotate_left
  · exact .done rfl rfl rfl
  · exact .bind (testBit_same _ _ _ s) (fun _ _ => .done rfl rfl rfl) (fun _ _ _ h => by cases h; exact ⟨[], by simp⟩)

theorem probeCommand_same (P : Params) (s : State) : SameRun s (probeCommand P s) (probeCommand P s.unrestricted) := by
  unfold probeCommand
  change SameRun s _ (if !s.elem.wellFormed then _ else if seedTableLen ≤ s.idx.toNat then _ else _)
  split
  · exact .done rfl rfl rfl
  · split
    · exact .done rfl rfl rfl
    · refine .bind (readBytes_same _ _ s) (fun x _ => ?_) (fun x y _ h => ?_)
      · exact .after_log (w := seedWord (seedEntry P x.2.idx.toNat) x.2.seed) (.done rfl rfl rfl)
      · cases h
        exact ⟨[.hash _], rfl⟩

theorem initCommand_same (P : Params) (s : State) : SameRun s (initCommand P s) (initCommand P s.unrestricted) := by
  unfold initCommand
  rw [show initCheck P s.unrestricted = initCheck P s from rfl]
  rcases initCheck P s with c | n
  · exact .done rfl rfl rfl
  · refine .bind (writeBytes_same _ _ s) (fun x _ => ?_) (fun x y _ h => ?_)
    · exact finishing (f := done false) (writeBytes_same _ _ x) (fun _ => rfl) (fun _ => rfl) fun _ => rfl
    · obtain ⟨z, hz, h⟩ := except_bind_eq_ok h
      cases h
      exact writeBytes_trace (t := z) hz

theorem addCommand_same (s : State) :
    SameRun s (addCommand Config.engine s) (addCommand Config.engine s.unrestricted) := by
  unfold addCommand
  change SameRun s _ (if !s.buf0.wellFormed then _ else if !s.elem.wellFormed then _ else _)
  split
  · exact .done rfl rfl rfl
  · split
    · exact .done rfl rfl rfl
    · refine .bind (validateFilter_same s.buf0 s) (fun x _ => ?_) (fun x y _ h => ?_)
      · rcases x with ⟨c | f, t⟩
        · exact .done rfl rfl rfl
        · refine .bind (readBytes_same _ _ t) (fun y _ => ?_) (fun y z _ h => ?_)
          · exact finishing (f := done false) (addProbes_same _ _ _ _ _ _ y.2) (fun _ => rfl) (fun _ => rfl) fun _ => rfl
          · obtain ⟨u, hu, h⟩ := except_bind_eq_ok h
            cases h
            exact addProbes_trace (t := u) hu
      · rcases x with ⟨c | f, t⟩
        · cases h; exact ⟨[], by simp [raise]⟩
        · obtain ⟨z, hz, h⟩ := except_bind_eq_ok h
          obtain ⟨u, hu, h⟩ := except_bind_eq_ok h
          cases h
          obtain ⟨ev, hev⟩ := readBytes_trace hz
          obtain ⟨ev', hev'⟩ := addProbes_trace hu
          exact ⟨ev ++ ev', by show u.trace = _; rw [hev', hev, List.append_assoc]⟩

theorem testCommand_same (s : State) :
    SameRun s (testCommand Config.engine s) (testCommand Config.engine s.unrestricted) := by
  unfold testCommand
  change SameRun s _ (if !s.buf0.wellFormed then _ else if !s.elem.wellFormed then _ else _)
  split
  · exact .done rfl rfl rfl
  · split
    · exact .done rfl rfl rfl
    · refine .bind (validateFilter_same s.buf0 s) (fun x _ => ?_) (fun x y _ h => ?_)
      · rcases x with ⟨c | f, t⟩
        · exact .done rfl rfl rfl
        · refine .bind (readBytes_same _ _ t) (fun y _ => ?_) (fun y z _ h => ?_)
          · exact .bind (testProbes_same _ _ _ _ _ _ y.2) (fun _ _ => .done rfl rfl rfl)
              (fun _ _ _ h => by cases h; exact ⟨[], by simp⟩)
          · obtain ⟨u, hu, h⟩ := except_bind_eq_ok h
            cases h
            exact testProbes_trace (x := u) hu
      · rcases x with ⟨c | f, t⟩
        · cases h; exact ⟨[], by simp [raise]⟩
        · obtain ⟨z, hz, h⟩ := except_bind_eq_ok h
          obtain ⟨u, hu, h⟩ := except_bind_eq_ok h
          cases h
          obtain ⟨ev, hev⟩ := readBytes_trace hz
          obtain ⟨ev', hev'⟩ := testProbes_trace hu
          exact ⟨ev ++ ev', by show u.2.trace = _; rw [hev', hev, List.append_assoc]⟩

theorem mergeCommand_same (s : State) :
    SameRun s (mergeCommand Config.engine s) (mergeCommand Config.engine s.unrestricted) := by
  have second : ∀ (f0 : Filter) (t y : State), (do
      let (v1, s2) ← validateFilter Config.engine s.buf1 t
      match v1 with
      | .error c => pure (raise c s2)
      | .ok f1 =>
        if !f0.compatible f1 then pure (raise .incompatibleParameters s2)
        else
          let s3 ← mergeBytes f0.arrayLen (s.buf1.base + headerBytes) (s.buf0.base + headerBytes) s2
          pure (done false s3) : Run) = .ok y → ∃ events, y.trace = t.trace ++ events := by
    intro f0 t y h
    obtain ⟨⟨v, u⟩, hu, h⟩ := except_bind_eq_ok h
    obtain ⟨ev, hev⟩ := validateFilter_trace hu
    rcases v with c | f1
    · cases h; exact ⟨ev, hev⟩
    · dsimp only at h
      split at h
      · cases h; exact ⟨ev, hev⟩
      · obtain ⟨z, hz, h⟩ := except_bind_eq_ok h
        cases h
        obtain ⟨ev', hev'⟩ := mergeBytes_trace hz
        exact ⟨ev ++ ev', by show z.trace = _; rw [hev', hev, List.append_assoc]⟩
  unfold mergeCommand
  change SameRun s _ (if !s.buf0.wellFormed || !s.buf1.wellFormed then _ else if s.buf0.partlyOverlaps s.buf1 then _ else _)
  split
  · exact .done rfl rfl rfl
  · split
    · exact .done rfl rfl rfl
    · refine .bind (validateFilter_same s.buf0 s) (fun x _ => ?_) (fun x y _ h => ?_)
      · rcases x with ⟨c | f0, t⟩
        · exact .done rfl rfl rfl
        · refine .bind (validateFilter_same s.buf1 t) (fun y _ => ?_) (fun y z _ h => ?_)
          · rcases y with ⟨c | f1, u⟩
            · exact .done rfl rfl rfl
            · change SameRun u (if !f0.compatible f1 then _ else _) (if !f0.compatible f1 then _ else _)
              split
              · exact .done rfl rfl rfl
              · exact finishing (f := done false) (mergeBytes_same _ _ _ u) (fun _ => rfl) (fun _ => rfl) fun _ => rfl
          · rcases y with ⟨c | f1, u⟩
            · cases h; exact ⟨[], by simp [raise]⟩
            · dsimp only at h
              split at h
              · cases h; exact ⟨[], by simp [raise]⟩
              · obtain ⟨w, hw, h⟩ := except_bind_eq_ok h
                cases h
                exact mergeBytes_trace (t := w) hw
      · rcases x with ⟨c | f0, t⟩
        · cases h; exact ⟨[], by simp [raise]⟩
        · exact second f0 t y h

theorem optbitsCommand_fields (P : Params) (s : State) :
    (optbitsCommand P s).denied = s.denied ∧ (optbitsCommand P s).trace = s.trace ∧
      (optbitsCommand P s).unrestricted = optbitsCommand P s.unrestricted := by
  unfold optbitsCommand
  rw [show s.unrestricted.capacity = s.capacity from rfl, show s.unrestricted.errorRate = s.errorRate from rfl]
  rcases deriveBits P.constants s.capacity.toNat s.errorRate with _ | m <;> exact ⟨rfl, rfl, rfl⟩

theorem optprobesCommand_fields (P : Params) (s : State) :
    (optprobesCommand P s).denied = s.denied ∧ (optprobesCommand P s).trace = s.trace ∧
      (optprobesCommand P s).unrestricted = optprobesCommand P s.unrestricted := by
  unfold optprobesCommand
  rw [show s.unrestricted.capacity = s.capacity from rfl, show s.unrestricted.m = s.m from rfl]
  by_cases h : s.capacity.toNat = 0 ∨ s.m.toNat = 0
  · simp only [if_pos h]; exact ⟨rfl, rfl, rfl⟩
  · simp only [if_neg h]; exact ⟨rfl, rfl, rfl⟩

theorem deriveCommand_fields (P : Params) (s : State) :
    (deriveCommand P s).denied = s.denied ∧ (deriveCommand P s).trace = s.trace ∧
      (deriveCommand P s).unrestricted = deriveCommand P s.unrestricted := by
  unfold deriveCommand
  rw [show s.unrestricted.capacity = s.capacity from rfl, show s.unrestricted.errorRate = s.errorRate from rfl]
  rcases derive P.constants s.capacity.toNat s.errorRate with _ | ⟨m, k⟩
  · exact ⟨rfl, rfl, rfl⟩
  · by_cases h : seedTableLen < k
    · simp only [if_pos h]; exact ⟨rfl, rfl, rfl⟩
    · simp only [if_neg h]; exact ⟨rfl, rfl, rfl⟩

/-- Every command as a body: its outcome is that of a run which is the same up to a refusal. -/
theorem exec_same (i : Instr) (s : State) : ∃ r r', exec i s = finish r ∧ exec i s.unrestricted = finish r' ∧ SameRun s r r' := by
  cases i
  · exact ⟨_, _, rfl, rfl, .done (x := nopCommand s) rfl rfl rfl⟩
  · have h := optbitsCommand_fields Config.engine s
    exact ⟨.ok (optbitsCommand Config.engine s), _, rfl, rfl, ignore_nothing (f := optbitsCommand Config.engine) h.1 h.2.1 h.2.2⟩
  · have h := optprobesCommand_fields Config.engine s
    exact ⟨.ok (optprobesCommand Config.engine s), _, rfl, rfl, ignore_nothing (f := optprobesCommand Config.engine) h.1 h.2.1 h.2.2⟩
  · have h := deriveCommand_fields Config.engine s
    exact ⟨.ok (deriveCommand Config.engine s), _, rfl, rfl, ignore_nothing (f := deriveCommand Config.engine) h.1 h.2.1 h.2.2⟩
  · exact ⟨_, _, rfl, rfl, probeCommand_same _ s⟩
  · exact ⟨_, _, rfl, rfl, setbitCommand_same s⟩
  · exact ⟨_, _, rfl, rfl, testbitCommand_same s⟩
  · exact ⟨_, _, rfl, rfl, initCommand_same _ s⟩
  · exact ⟨_, _, rfl, rfl, addCommand_same s⟩
  · exact ⟨_, _, rfl, rfl, testCommand_same s⟩
  · exact ⟨_, _, rfl, rfl, mergeCommand_same s⟩

/-- A command that answers answers alike where nothing is refused, and the platform admitted every access it made. -/
theorem exec_unrestricted_next {i : Instr} {s t : State} (h : exec i s = .next t) :
    exec i s.unrestricted = .next t.unrestricted ∧
      ∃ events, t.trace = s.trace ++ events ∧ ∀ e ∈ events, s.admitsEvent e = true := by
  obtain ⟨r, r', h1, h2, hs⟩ := exec_same i s
  obtain ⟨h3, -, h4⟩ := hs.answers t (finish_eq_next (h1.symm.trans h))
  exact ⟨by rw [h2, h3]; rfl, h4⟩

/-- A command that is stuck is so at the first refused entry of the trace it has where nothing is refused. -/
theorem exec_unrestricted_refused {i : Instr} {s u : State} {kind : AccessKind} {a : Nat}
    (h : exec i s = .fault (.portRefused kind a)) (hu : exec i s.unrestricted = .next u) :
    ∃ events e more, u.trace = s.trace ++ (events ++ e :: more) ∧ (∀ e' ∈ events, s.admitsEvent e' = true) ∧
      s.admitsEvent e = false ∧ e.isAccess kind a := by
  obtain ⟨r, r', h1, h2, hs⟩ := exec_same i s
  have hr : r = .error (.portRefused kind a) := by
    rw [h1] at h
    cases r with
    | ok t => cases h
    | error f => cases h; rfl
  exact hs.refuses kind a hr u (finish_eq_next (h2.symm.trans hu))

end Sys2Proof.Machine
end

