-- ==== Sys2Proof/Tests/Slice0.lean ====
section
/-! SUPPORT. The model's own tests: words written out from the opcode map (spec R90 to R94), ill-formed words, single
commands against the vectors of spec/95_test_vectors.md, and for every obligation with hypotheses a concrete input that
meets them. Expected values come from the spec, never from the model. -/

namespace Sys2Proof.Tests

open Sys2Proof.Machine

/-! ## Words: RSV (28 bits, zero) then OPC (R90, R92) -/

theorem test_decode_nop : decode (0#28 ++ 0b0000#4) = .ok .nop := by decide
theorem test_decode_optbits : decode (0#28 ++ 0b0001#4) = .ok .optbits := by decide
theorem test_decode_optprobes : decode (0#28 ++ 0b0010#4) = .ok .optprobes := by decide
theorem test_decode_derive : decode (0#28 ++ 0b0011#4) = .ok .derive := by decide
theorem test_decode_probe : decode (0#28 ++ 0b0100#4) = .ok .probe := by decide
theorem test_decode_setbit : decode (0#28 ++ 0b0101#4) = .ok .setbit := by decide
theorem test_decode_testbit : decode (0#28 ++ 0b0110#4) = .ok .testbit := by decide
theorem test_decode_init : decode (0#28 ++ 0b1000#4) = .ok .init := by decide
theorem test_decode_add : decode (0#28 ++ 0b1001#4) = .ok .add := by decide
theorem test_decode_test : decode (0#28 ++ 0b1010#4) = .ok .test := by decide
theorem test_decode_merge : decode (0#28 ++ 0b1011#4) = .ok .merge := by decide

/-- V-E2, V-E3: opcode 0x7 and opcodes 0xC to 0xF. -/
theorem test_decode_reserved_opcodes :
    [0x7#32, 0xC#32, 0xD#32, 0xE#32, 0xF#32].map decode = List.replicate 5 (.error .reservedOpcode) := by decide

/-- V-E4 to V-E7: a reserved bit set, whatever OPC is. -/
theorem test_decode_reserved_bits :
    [0x18#32, 0x80000003#32, 0xFFFFFFFF#32, 0x10#32].map decode = List.replicate 4 (.error .reservedBits) := by decide

/-- A word longer than 32 bits is no command word. -/
theorem test_table_word_too_long : decodeTableWord 64 (2 ^ 32 + 1) = none := by decide

/-! ## WellFormed: one ill-formed word for each check -/

/-- A reserved bit set under a good opcode: the check of R91 refuses it. -/
theorem test_wellFormed_reserved_bit : CommandWord.wellFormed ⟨1#28, 0x0#4⟩ = false := by decide
/-- Opcode 0x7: the check of R92 refuses it. -/
theorem test_wellFormed_opcode_7 : CommandWord.wellFormed ⟨0#28, 0x7#4⟩ = false := by decide
/-- Opcode 0xC: the check of R92 refuses it. -/
theorem test_wellFormed_opcode_12 : CommandWord.wellFormed ⟨0#28, 0xC#4⟩ = false := by decide
/-- The last good opcode passes. -/
theorem test_wellFormed_opcode_11 : CommandWord.wellFormed ⟨0#28, 0xB#4⟩ = true := by decide

/-! ## The toy instantiation of spec/95_test_vectors.md section 2 -/

/-- SEED_TABLE_TOY[i] = 97 x i + 13. -/
def toyTable : SeedTable where
  entries := (List.range 100).map fun i => 97 * (i : Int) + 13
  length_eq := by decide
  inRange := by decide
  distinct := by decide

/-- The sum over j of (j + 1) x e[j]. -/
def weightedSum : Nat → List Byte → Nat
  | _, [] => 0
  | j, b :: bs => (j + 1) * b.toNat + weightedSum (j + 1) bs

/-- The low half of H128_TOY. -/
def toyLow (e : List Byte) (w : Word) : Word :=
  BitVec.ofNat 64 (1000003 * (w.toNat + 31 * e.length + weightedSum 0 e))

/-- The engine with SEED_TABLE_TOY and H128_TOY. -/
def toyEngine : Params where
  constants := .literal
  seedTable := toyTable
  h128 e w := ~~~toyLow e w ++ toyLow e w

/-- The same engine under the alternative constants (R147). -/
def toyEngineLn2 : Params := { toyEngine with constants := .ln2 }

/-- One value of the state a command body ends in; none if it does not end. -/
def ending {α : Type} (r : Run) (f : State → α) : Option α := r.toOption.map f

/-- Filter A of section 7 at 0x1000, filter B at 0x2000, element "x" at 0x3000, and operands for every command. -/
def sample : State :=
  { State.reset with
    buf0Base := 0x1000#64, buf0Len := 22#64, buf1Base := 0x2000#64, buf1Len := 22#64, elemBase := 0x3000#64, elemLen := 1#64
    seed := 7#64, capacity := 10#64, errorRate := 0x3F000000#32, bitlen := 16#64, pos := 27#64, m := 9568#64
    mem := [(0x1000, 0x07#8), (0x100B, 0x3F#8), (0x100C, 0x0A#8), (0x1014, 0x05#8), (0x1015, 0x80#8),
      (0x2000, 0x07#8), (0x200B, 0x3F#8), (0x200C, 0x0A#8), (0x2014, 0x41#8), (0x2015, 0x01#8), (0x3000, 0x78#8)] }

/-- Memory holding "hello" at 0x2000 and "world" at 0x2010 beside filter P1 of section 9 (bit array `00` and `last`). -/
def programOne (last : Byte) : State :=
  { State.reset with
    buf0Base := 0x1000#64, buf0Len := 22#64, elemBase := 0x2000#64, elemLen := 5#64, seed := 42#64
    mem := [(0x1000, 0x2A#8), (0x100B, 0x3F#8), (0x100C, 0x0A#8)] ++ (if last = 0#8 then [] else [(0x1015, last)]) ++
      [(0x2000, 0x68#8), (0x2001, 0x65#8), (0x2002, 0x6C#8), (0x2003, 0x6C#8), (0x2004, 0x6F#8),
        (0x2010, 0x77#8), (0x2011, 0x6F#8), (0x2012, 0x72#8), (0x2013, 0x6C#8), (0x2014, 0x64#8)] }

theorem test_reset_memory_wf : Memory.wf State.reset.mem = true := by decide
theorem test_sample_memory_wf : Memory.wf sample.mem = true := by decide
/-- Writing the byte an unlisted address reads as removes the entry. -/
theorem test_write_unlisted_byte : Memory.write [(5, 1#8), (7, 2#8)] 5 0#8 = [(7, 2#8)] := by decide

/-! ## Single commands against spec/95_test_vectors.md -/

/-- V-R2, R190: NOP clears STATUS. -/
theorem test_nop : exec .nop { sample with status := 0x107#32 } = .next sample := rfl

/-- V-DER1, by hand in section 3: ceil(9567.1529...) = 9568. -/
theorem test_optbits_der1 :
    (optbitsCommand toyEngine { sample with capacity := 1000#64, errorRate := 0x3C23D70A#32 }).m = 9568#64 := by
  decide +kernel

/-- V-DER7: 1.44 x 25 x 1 = 36 exactly, not 37; under LN2 it is 37. -/
theorem test_optbits_der7 :
    ((optbitsCommand toyEngine { sample with capacity := 25#64 }).m,
      (optbitsCommand toyEngineLn2 { sample with capacity := 25#64 }).m) = (36#64, 37#64) := by
  decide +kernel

/-- V-DER53. -/
theorem test_optprobes_der53 :
    (optprobesCommand toyEngine { sample with m := 18446744073709551615#64, capacity := 1#64 }).k =
      12728253410859590615#64 := by decide +kernel

/-- V-DER57: M = 0. -/
theorem test_optprobes_der57 :
    (optprobesCommand toyEngine { sample with m := 0#64, k := 5#64 }) = { sample with m := 0#64, k := 5#64, status := 1#32 } := by
  decide +kernel

/-- V-DER22: about 1e-30, the largest accepted probe count. -/
theorem test_derive_der22 :
    (fun t : State => (t.m, t.k, t.nbytes, t.status))
      (deriveCommand toyEngine { sample with capacity := 1000#64, errorRate := 0x0DA24260#32 }) =
      (143508#64, 100#64, 17959#64, 0x000#32) := by decide +kernel

/-- V-DER24: 101 probes; M, K and NBYTES unchanged. -/
theorem test_derive_der24 :
    deriveCommand toyEngine { sample with capacity := 1000#64, errorRate := 0x0D000000#32 } =
      { sample with capacity := 1000#64, errorRate := 0x0D000000#32, status := 0x004#32 } := by decide +kernel

/-- V-H1. -/
theorem test_probe_h1 :
    ending (probeCommand toyEngine (programOne 0#8)) (fun t => (t.hashLo, t.hashHi, t.status)) =
      some (0x000000006CE5E429#64, 0xFFFFFFFF931A1BD6#64, 0x000#32) := by decide +kernel

/-- V-H4: IDX = 100. -/
theorem test_probe_h4 :
    ending (probeCommand toyEngine { programOne 0#8 with idx := 100#32, hashLo := 9#64 }) (fun t => (t.hashLo, t.status)) =
      some (9#64, 0x004#32) := by decide +kernel

/-- V-COD3 and V-COD4 on memory `08 08` and `08 88`. -/
theorem test_setbit_cod3_cod4 :
    ending (setbitCommand { State.reset with
        buf0Base := 0x100#64, buf0Len := 2#64, bitlen := 16#64, pos := 0xFFFFFFFFFFFFFFFF#64
        mem := [(0x100, 0x08#8), (0x101, 0x08#8)] }) State.mem = some [(0x100, 0x08#8), (0x101, 0x88#8)] ∧
      ending (setbitCommand { State.reset with
        buf0Base := 0x100#64, buf0Len := 2#64, bitlen := 13#64, pos := 0xFFFFFFFFFFFFFFFF#64
        mem := [(0x100, 0x08#8), (0x101, 0x88#8)] }) State.mem = some [(0x100, 0x0C#8), (0x101, 0x88#8)] := by decide +kernel

/-- V-COD13: the buffer range wraps. -/
theorem test_setbit_cod13 :
    ending (setbitCommand { State.reset with
      buf0Base := 0xFFFFFFFFFFFFFFFF#64, buf0Len := 2#64, bitlen := 16#64 }) (fun t => (t.status, t.trace)) =
      some (0x006#32, []) := by decide +kernel

/-- V-COD12: memory `F7 00`, bit 3 clear in a byte that is not zero. -/
theorem test_testbit_cod12 :
    ending (testbitCommand { State.reset with
      buf0Base := 0x100#64, buf0Len := 2#64, bitlen := 16#64, pos := 3#64, mem := [(0x100, 0xF7#8)] })
      State.status = some 0x000#32 := by decide +kernel

/-- V-COD7: memory `0C 88`, bit 15 set. -/
theorem test_testbit_cod7 :
    ending (testbitCommand { State.reset with
      buf0Base := 0x100#64, buf0Len := 2#64, bitlen := 16#64, pos := 15#64, mem := [(0x100, 0x0C#8), (0x101, 0x88#8)] })
      State.status = some 0x100#32 := by decide +kernel

/-- V-F30: the header bytes of seed 42, rate 0x3F000000, capacity 10; stale bytes are cleared. -/
theorem test_init_f30 :
    ending (initCommand toyEngine { sample with seed := 42#64 }) (fun t => (t.bytesAt 22 0x1000, t.status, writeCount t.trace)) =
      some ([0x2A#8, 0#8, 0#8, 0#8, 0#8, 0#8, 0#8, 0#8, 0#8, 0#8, 0#8, 0x3F#8, 0x0A#8, 0#8, 0#8, 0#8, 0#8, 0#8, 0#8, 0#8,
        0#8, 0#8], 0x000#32, 22) := by decide +kernel

/-- V-F31: a buffer one byte too long. -/
theorem test_init_f31 :
    ending (initCommand toyEngine { sample with buf0Len := 23#64 }) id =
      some { sample with buf0Len := 23#64, status := 0x005#32 } := by decide +kernel

/-- P1 step 11: bits 9 and 12, folded by 8 x L = 16 and not by m = 15. -/
theorem test_add_p1 :
    ending (addCommand toyEngine (programOne 0#8)) State.mem = some (programOne 0x12#8).mem := by decide +kernel

/-- P5 step 7: a header whose capacity demands another size; no write, 20 reads. -/
theorem test_add_p5 :
    ending (addCommand toyEngine { programOne 0x12#8 with mem := Memory.write (programOne 0x12#8).mem 0x100C 0x0C#8 })
      (fun t => (t.status, readCount t.trace, writeCount t.trace)) = some (0x005#32, 20, 0) := by decide +kernel

/-- P1 step 12: "hello" is a member. -/
theorem test_test_p1_hello : ending (testCommand toyEngine (programOne 0x12#8)) State.status = some 0x100#32 := by
  decide +kernel

/-- P1 step 14: "world" is not, after one probe. -/
theorem test_test_p1_world :
    ending (testCommand toyEngine { programOne 0x12#8 with elemBase := 0x2010#64 }) (fun t => (t.status, hashCount t.trace)) =
      some (0x000#32, 1) := by decide +kernel

/-- V-F20: `05 80` and `41 01` give `45 81`; 44 reads, 2 writes. -/
theorem test_merge_f20 :
    ending (mergeCommand toyEngine sample)
      (fun t => (t.byteAt 0x1014, t.byteAt 0x1015, t.byteAt 0x2014, t.status, readCount t.trace, writeCount t.trace)) =
      some (0x45#8, 0x81#8, 0x41#8, 0x000#32, 44, 2) := by decide +kernel

/-- V-F29a: a partial overlap. -/
theorem test_merge_f29a :
    ending (mergeCommand toyEngine { sample with buf1Base := 0x1008#64 }) id =
      some { sample with buf1Base := 0x1008#64, status := 0x006#32 } := by decide +kernel

/-! ## The host's side -/

/-- V-E5: CMD reads back the word written. -/
theorem test_illegal_word :
    step (sample.withFetchWord 32 0x80000003) = .next { sample with cmd := 0x80000003#32, status := 0x007#32 } := rfl

/-- The first command after reset is the one placed. -/
theorem test_first_command :
    step (State.reset.withFetchWord 32 0x00000008) = .next { State.reset with cmd := 8#32, status := 0x001#32 } := rfl

/-- ERROR_RATE drops the bits above its width; K ignores the host. -/
theorem test_host_writes :
    writeSlot sample 10 0x123456789#64 = { sample with errorRate := 0x23456789#32 } ∧ writeSlot sample 13 5#64 = sample := by
  decide

/-- U10: SETBIT reset after its read, and after its write. -/
theorem test_reset_during_setbit :
    step { sample with hostQueue := [.resetDuring 5#64 1] } =
        .next { State.reset with mem := sample.mem, trace := [.read 0x1001 0#8] } ∧
      step { sample with hostQueue := [.resetDuring 5#64 2] } =
        .next { State.reset with
          mem := Memory.write sample.mem 0x1001 8#8, trace := [.read 0x1001 0#8, .write 0x1001 8#8] } := ⟨rfl, rfl⟩

/-- U8, U10: the write of SETBIT is refused; the reset finds the engine stuck there, and before the read there is nothing. -/
theorem test_reset_of_a_stuck_engine :
    step { sample with hostQueue := [.resetDuring 5#64 9], denied := [⟨.write, 0x1001, 1⟩] } =
        .next { State.reset with mem := sample.mem, denied := [⟨.write, 0x1001, 1⟩], trace := [.read 0x1001 0#8] } ∧
      step { sample with hostQueue := [.resetDuring 5#64 0], denied := [⟨.read, 0x1001, 1⟩] } =
        .next { State.reset with mem := sample.mem, denied := [⟨.read, 0x1001, 1⟩] } := ⟨rfl, rfl⟩

/-- R74: a host write of a byte, read back. -/
theorem test_host_memory :
    Sys2Proof.core.run 2 { sample with hostQueue := [.writeByte 0x1014#64 0xAB#8, .readByte 0x1014#64] } =
      .next { sample with mem := Memory.write sample.mem 0x1014 0xAB#8, hostRead := 0xAB#64 } := rfl

/-! ## The sample state -/

theorem sample_filter0 : sample.filterAt sample.buf0 = .ok ⟨⟨7#64, 0x3F000000#32, 10#64⟩, 15, 2, 2⟩ := by decide +kernel
theorem sample_filter1 : sample.filterAt sample.buf1 = .ok ⟨⟨7#64, 0x3F000000#32, 10#64⟩, 15, 2, 2⟩ := by decide +kernel

theorem sample_holds0 : sample.HoldsFilter 0x1000 22 15 2 := by unfold State.HoldsFilter; decide +kernel
theorem sample_holds1 : sample.HoldsFilter 0x2000 22 15 2 := by unfold State.HoldsFilter; decide +kernel

theorem sample_admits (kind : AccessKind) (base n : Nat) : sample.Admitted kind base n :=
  fun a _ _ => admits_of_nothing_denied rfl kind a

/-- The sample with every bit of both filters set: TEST finds every element. -/
def full : State :=
  { sample with
    mem := [(0x1000, 0x07#8), (0x100B, 0x3F#8), (0x100C, 0x0A#8), (0x1014, 0xFF#8), (0x1015, 0xFF#8),
      (0x2000, 0x07#8), (0x200B, 0x3F#8), (0x200C, 0x0A#8), (0x2014, 0xFF#8), (0x2015, 0xFF#8), (0x3000, 0x78#8)] }

/-- The sample with an empty filter at 0x1000. -/
def emptied : State :=
  { sample with
    mem := [(0x1000, 0x07#8), (0x100B, 0x3F#8), (0x100C, 0x0A#8), (0x3000, 0x78#8)] }

theorem full_filter0 : full.filterAt full.buf0 = .ok ⟨⟨7#64, 0x3F000000#32, 10#64⟩, 15, 2, 2⟩ := by decide +kernel
theorem full_filter1 : full.filterAt full.buf1 = .ok ⟨⟨7#64, 0x3F000000#32, 10#64⟩, 15, 2, 2⟩ := by decide +kernel

/-- ADD on the sample answers, ends OK, and leaves registers and the element alone. -/
theorem sample_add : ∃ t, exec .add sample = .next t ∧ t.code = 0#4 ∧ t.buf0 = sample.buf0 ∧
    t.elementBytes = sample.elementBytes ∧ t.elem = sample.elem ∧ t.denied = [] := by
  obtain ⟨t, ht⟩ := addCommand_answers (s := sample) rfl (by decide) (by decide) sample_filter0 (by decide)
  have hx : exec .add sample = .next t := by show finish (addCommand Config.engine sample) = _; rw [ht]; rfl
  have same : ∀ (qs : List Nat) (s : State), (storeBits s 0x1014 qs).buf0 = s.buf0 ∧ (storeBits s 0x1014 qs).elem = s.elem ∧
      (storeBits s 0x1014 qs).denied = s.denied := by
    intro qs
    induction qs with
    | nil => intro s; exact ⟨rfl, rfl, rfl⟩
    | cons q qs ih => intro s; exact ih (storeBit s 0x1014 q)
  rcases addCommand_next ht with ⟨h, -⟩ | ⟨c, -, -, h, -⟩ | ⟨f, -, -, h, rfl⟩
  · exact absurd h (by decide)
  · rw [sample_filter0] at h; cases h
  · refine ⟨_, hx, code_done _ _, (same _ _).1, ?_, (same _ _).2.1, (same _ _).2.2⟩
    have hf := filterAt_ok h
    show State.bytesAt _ (State.elem _).len (State.elem _).base = sample.bytesAt 1 0x3000
    have hel : ∀ (x : List PortEvent), (done false ((storeBits sample (sample.buf0.base + headerBytes)
        (probeBits sample.elementBytes f)).traced x)).elem = ⟨0x3000, 1⟩ := fun x => (same _ _).2.1
    rw [hel]
    refine bytesAt_congr (s := sample) 1 0x3000 fun b h1 h2 => ?_
    refine (storeBits_spec sample (by decide) 0x1014 _ fun q hq => probeBits_space (by decide) h
      (by rw [hf.2.2.1]; decide) q hq).2.2 b fun q hq => ?_
    obtain ⟨c, -, rfl⟩ := List.mem_map.mp hq
    have := bitAddress_lt (arr := 0x1014) (n := 2)
      (fold_lt (probePos Config.engine sample.elementBytes c f.header.seed) (bitLength := f.bitLength) (by
        unfold Filter.bitLength; rw [hf.2.2.1]; decide) |>.trans_le (by unfold Filter.bitLength; rw [hf.2.2.1]; decide))
    omega

/-- MERGE on two filters with one header answers and ends OK. -/
theorem merge_ends_ok {s : State} (hd : s.denied = []) (hw : s.buf0.wellFormed = true) (hw' : s.buf1.wellFormed = true)
    (ho : s.buf0.partlyOverlaps s.buf1 = false) {f g : Filter} (hf : s.filterAt s.buf0 = .ok f)
    (hg : s.filterAt s.buf1 = .ok g) (hc : f.compatible g = true) : ∃ t, exec .merge s = .next t ∧ t.code = 0#4 := by
  obtain ⟨t, ht⟩ := mergeCommand_answers hd hw hw' ho hf hg hc
  have hx : exec .merge s = .next t := by show finish (mergeCommand Config.engine s) = _; rw [ht]; rfl
  refine ⟨t, hx, ?_⟩
  rcases mergeCommand_next ht with ⟨h, -⟩ | ⟨-, -, -, ⟨c, h, -⟩ | ⟨f0, h, ⟨c, h1, -⟩ | ⟨f1, h1, ⟨h2, -⟩ | ⟨h2, rfl⟩⟩⟩⟩
  · simp [hw, hw', ho] at h
  · rw [hf] at h; cases h
  · rw [hg] at h1; cases h1
  · rw [hf] at h; rw [hg] at h1; cases h; cases h1; rw [hc] at h2; cases h2
  · exact code_done _ _

/-- TEST on the full filter answers with RESULT 1. -/
theorem full_test : ∃ t, exec .test full = .next t ∧ t.result = true ∧ t.code = 0#4 := by
  obtain ⟨t, ht⟩ := testCommand_answers (s := full) rfl (by decide) (by decide) full_filter0 (by decide)
  have hx : exec .test full = .next t := by show finish (testCommand Config.engine full) = _; rw [ht]; rfl
  refine ⟨t, hx, ?_⟩
  rcases testCommand_next ht with ⟨h, -⟩ | ⟨c, -, -, h, -⟩ | ⟨f, -, -, h, rfl⟩
  · exact absurd h (by decide)
  · rw [full_filter0] at h; cases h
  · refine ⟨?_, code_done _ _⟩
    have hf := filterAt_ok h
    have hall : (probeBits full.elementBytes f).all (full.bitAt (full.buf0.base + headerBytes)) = true := by
      rw [List.all_eq_true]
      intro q hq
      obtain ⟨c, -, rfl⟩ := List.mem_map.mp hq
      have hlt : fold (probePos Config.engine full.elementBytes c f.header.seed) f.bitLength < 16 :=
        fold_lt _ (by unfold Filter.bitLength; rw [hf.2.2.1]; decide) |>.trans_le (by
          unfold Filter.bitLength; rw [hf.2.2.1]; decide)
      have hbits : ∀ q, q < 16 → full.bitAt 0x1014 q = true := by decide
      exact hbits _ hlt
    rw [hall]
    exact result_done _ _

/-! ## Witnesses: a concrete input that meets the hypotheses of each obligation -/

theorem witness_StepRunsTheDecodedCommand :
    ({ sample with hostQueue := [.writeSlot 0 0x9#64] }).hostQueue = .writeSlot 0 0x9#64 :: [] ∧
      decode ((0x9#64 : Word).setWidth 32) = .ok .add := by decide

theorem witness_IllegalWordRaisesIllegalCommand :
    ({ sample with hostQueue := [.writeSlot 0 0x10#64] }).hostQueue = .writeSlot 0 0x10#64 :: [] ∧
      (((0x10#64 : Word).setWidth 32).extractLsb' 4 28 ≠ 0#28) ∧
      (((0xC#64 : Word).setWidth 32).extractLsb' 0 4 ∈ [0x7#4, 0xC#4, 0xD#4, 0xE#4, 0xF#4]) := by decide

/-- The last register slot, the first reserved one, and the last byte of memory. -/
theorem witness_HostReadReturnsTheSlot :
    ({ sample with hostQueue := [.readSlot 18, .readSlot 19] }).hostQueue = .readSlot 18 :: [.readSlot 19] ∧
      registerWindow[18]?.isSome = true ∧ registerWindow[19]?.isSome = false ∧
      ({ sample with hostQueue := [.readByte 0xFFFFFFFFFFFFFFFF#64] }).hostQueue = .readByte 0xFFFFFFFFFFFFFFFF#64 :: [] := by
  decide

/-- A narrow register, a read-only one, a reserved slot, and the last byte of memory. -/
theorem witness_HostWriteChangesOnlyItsRegister :
    (10 ≠ 0 ∧ ({ sample with hostQueue := [.writeSlot 10 1#64] }).hostQueue = .writeSlot 10 1#64 :: []) ∧
      (18 ≠ 0 ∧ ({ sample with hostQueue := [.writeSlot 18 1#64] }).hostQueue = .writeSlot 18 1#64 :: []) ∧
      (19 ≠ 0 ∧ ({ sample with hostQueue := [.writeSlot 19 1#64] }).hostQueue = .writeSlot 19 1#64 :: []) ∧
      registerWindow[10]?.isSome = true ∧ Memory.wf sample.mem = true ∧
      ({ sample with hostQueue := [.writeByte 0xFFFFFFFFFFFFFFFF#64 1#8] }).hostQueue =
        .writeByte 0xFFFFFFFFFFFFFFFF#64 1#8 :: [] := by decide

theorem witness_ResetClearsRegistersAndKeepsMemory :
    ({ sample with hostQueue := [.reset] }).hostQueue = .reset :: [] ∧ sample.hostQueue = [] := by decide

/-- A command that answers, one whose write is refused, and an illegal word. -/
theorem witness_ResetDuringACommandLeavesAPrefix :
    Memory.wf sample.mem = true ∧
      ({ sample with hostQueue := [.resetDuring 5#64 2] }).hostQueue = .resetDuring 5#64 2 :: [] ∧
      decode ((5#64 : Word).setWidth 32) = .ok .setbit ∧ (∃ u, exec .setbit { sample with cmd := 5#32 } = .next u) ∧
      exec .setbit { sample with cmd := 5#32, denied := [⟨.write, 0x1001, 1⟩] } = .fault (.portRefused .write 0x1001) ∧
      Instr.setbit ∈ [Instr.add, .setbit, .merge] ∧
      decode ((7#64 : Word).setWidth 32) = .error .reservedOpcode :=
  ⟨by decide, rfl, rfl, ⟨_, rfl⟩, rfl, by decide, rfl⟩

theorem witness_FirstCommandAfterReset :
    Instr.derive ∈ [Instr.optbits, .optprobes, .derive, .setbit, .testbit, .init] ∧
      Instr.merge ∈ [Instr.add, .test, .merge] := by decide

/-- An error ending and an ending with RESULT 1. -/
theorem witness_EveryEndingLeavesALegalStatus :
    (∃ t, exec .init State.reset = .next t ∧ t.status = 0x001#32) ∧
      ∃ t, exec .testbit { sample with pos := 0#64 } = .next t ∧ t.status = 0x100#32 := ⟨⟨_, rfl, rfl⟩, ⟨_, rfl, rfl⟩⟩

theorem witness_ErrorEndingWritesStatusOnly :
    ∃ t, exec .merge { sample with buf1Base := 0x1008#64 } = .next t ∧ t.code ≠ 0#4 :=
  ⟨{ sample with buf1Base := 0x1008#64, status := 0x006#32 }, rfl, by decide⟩

/-- The fault clause: SETBIT of a byte the platform refuses. -/
theorem witness_OnlyARefusedAccessStops :
    ∃ a, step { sample with hostQueue := [.writeSlot 0 5#64], denied := [⟨.write, 0, 2 ^ 64⟩] } =
      .fault (.portRefused .write a) := ⟨0x1001, rfl⟩

theorem witness_RefusedAccessLeavesNoStep :
    (sample.buf0Base.toNat + sample.buf0Len.toNat ≤ 2 ^ 64 ∧ 0 < sample.bitlen.toNat ∧
        sample.bitlen.toNat ≤ 8 * sample.buf0Len.toNat) ∧
      ({ sample with denied := [⟨.read, 0x1001, 1⟩] }).admits .read 0x1001 = false ∧
      ({ sample with denied := [⟨.write, 0x1001, 1⟩] }).admits .read 0x1001 = true ∧
      ({ sample with denied := [⟨.write, 0x1001, 1⟩] }).admits .write 0x1001 = false := by decide

theorem witness_CommandsWriteOnlyTheirRegisters :
    (∃ t, exec .derive sample = .next t) ∧ RegName.pos ∉ writtenBy .derive := ⟨⟨_, rfl⟩, by decide⟩

theorem witness_NonStoringCommandsKeepMemory :
    Instr.test ∈ [Instr.nop, .optbits, .optprobes, .derive, .probe, .testbit, .test] ∧ ∃ t, exec .test full = .next t := by
  obtain ⟨t, h, -⟩ := full_test
  exact ⟨by decide, t, h⟩

theorem witness_StoringCommandsFrame :
    Memory.wf sample.mem = true ∧ (∃ t, exec .setbit sample = .next t) ∧ (∃ t, exec .init sample = .next t) ∧
      (∃ t f, exec .add sample = .next t ∧ sample.filterAt sample.buf0 = .ok f) ∧ ∃ t, exec .merge sample = .next t := by
  obtain ⟨t, h, -⟩ := sample_add
  obtain ⟨u, hu, -⟩ := merge_ends_ok (s := sample) rfl (by decide) (by decide) (by decide) sample_filter0 sample_filter1 (by decide)
  obtain ⟨v, hv⟩ := initCommand_answers (P := Config.engine) (s := sample) rfl
  refine ⟨by decide, ⟨_, rfl⟩, ⟨v, ?_⟩, ⟨t, _, h, sample_filter0⟩, ⟨u, hu⟩⟩
  show finish (initCommand Config.engine sample) = _
  rw [hv]
  rfl

/-- A register neither read nor written, one written but not read on an ending OK and on an error, and STATUS. -/
theorem witness_UnreadRegistersHaveNoInfluence :
    (RegName.seed ∉ readBy .add ∧ RegName.seed ∉ writtenBy .add) ∧
      (RegName.k ∉ readBy .optprobes ∧ RegName.k ∈ writtenBy .optprobes) ∧
      (∃ t, exec .optprobes sample = .next t ∧ t.code = 0#4) ∧ (∃ t, exec .optprobes State.reset = .next t ∧ t.code = 1#4) ∧
      RegName.status ∉ readBy .add :=
  ⟨by decide, by decide, ⟨_, rfl, by decide⟩, ⟨_, rfl, by decide⟩, by decide⟩

theorem witness_DeriveEffect :
    15 = optimalBits .literal sample.capacity.toNat sample.errorRate ∧
      2 = (69 * 15 + 100 * sample.capacity.toNat - 1) / (100 * sample.capacity.toNat) := by decide +kernel

/-- A range that wraps by one byte, the first index past the table, the last index of it. -/
theorem witness_ProbeEffect :
    (2 ^ 64 < ({ sample with elemBase := 0xFFFFFFFFFFFFFFFF#64, elemLen := 2#64 }).elemBase.toNat + 2) ∧
      (sample.elemBase.toNat + sample.elemLen.toNat ≤ 2 ^ 64 ∧ 100 ≤ ({ sample with idx := 100#32 }).idx.toNat) ∧
      (({ sample with idx := 99#32 }).idx.toNat < 100 ∧ sample.Admitted .read sample.elemBase.toNat sample.elemLen.toNat) :=
  ⟨by decide, by decide, by decide, sample_admits _ _ _⟩

/-- A range that wraps by one byte, BITLEN 0, BITLEN one above the buffer. -/
theorem witness_BitCommandChecks :
    Instr.setbit ∈ [Instr.setbit, .testbit] ∧
      2 ^ 64 < ({ sample with buf0Base := 0xFFFFFFFFFFFFFFFF#64, buf0Len := 2#64 }).buf0Base.toNat + 2 ∧
      (sample.buf0Base.toNat + sample.buf0Len.toNat ≤ 2 ^ 64 ∧ ({ sample with bitlen := 0#64 }).bitlen.toNat = 0) ∧
      (({ sample with bitlen := 177#64 }).bitlen.toNat ≠ 0 ∧ 8 * sample.buf0Len.toNat < 177) := by decide

theorem witness_SetbitEffect :
    Memory.wf sample.mem = true ∧ sample.buf0Base.toNat + sample.buf0Len.toNat ≤ 2 ^ 64 ∧ 0 < sample.bitlen.toNat ∧
      sample.bitlen.toNat ≤ 8 * sample.buf0Len.toNat ∧ 11 = sample.pos.toNat % sample.bitlen.toNat ∧
      0x1001 = sample.buf0Base.toNat + 11 / 8 ∧ sample.admits .read 0x1001 = true ∧ sample.admits .write 0x1001 = true := by
  decide

theorem witness_TestbitEffect :
    sample.buf0Base.toNat + sample.buf0Len.toNat ≤ 2 ^ 64 ∧ 0 < sample.bitlen.toNat ∧
      sample.bitlen.toNat ≤ 8 * sample.buf0Len.toNat ∧ 11 = sample.pos.toNat % sample.bitlen.toNat ∧
      0x1001 = sample.buf0Base.toNat + 11 / 8 ∧ sample.admits .read 0x1001 = true := by decide

/-- The wrapping range, capacity 0, rate 2^-101 with 101 probes, and a buffer one byte too long. -/
theorem witness_InitChecks :
    2 ^ 64 < ({ sample with buf0Base := 0xFFFFFFFFFFFFFFFF#64, buf0Len := 2#64 }).buf0Base.toNat + 2 ∧
      ({ sample with capacity := 0#64 }).capacity.toNat = 0 ∧
      (146 = optimalBits .literal 1 0x0D000000#32 ∧ 100 < (69 * 146 + 100 * 1 - 1) / (100 * 1)) ∧
      (15 = optimalBits .literal sample.capacity.toNat sample.errorRate ∧
        ({ sample with buf0Len := 23#64 }).buf0Len.toNat ≠ 20 + (15 + 7) / 8) := by decide +kernel

theorem witness_InitEffect :
    Memory.wf sample.mem = true ∧ sample.buf0Base.toNat + sample.buf0Len.toNat ≤ 2 ^ 64 ∧
      15 = optimalBits .literal sample.capacity.toNat sample.errorRate ∧
      2 = (69 * 15 + 100 * sample.capacity.toNat - 1) / (100 * sample.capacity.toNat) ∧ sample.capacity.toNat ≠ 0 ∧
      0x00000001 ≤ sample.errorRate.toNat ∧ sample.errorRate.toNat ≤ 0x3F7FFFFF ∧ 15 ≤ 2 ^ 64 - 8 ∧ 2 ≤ 100 ∧
      sample.buf0Len.toNat = 20 + (15 + 7) / 8 ∧ sample.Admitted .write sample.buf0Base.toNat sample.buf0Len.toNat :=
  ⟨by decide, by decide, by decide +kernel, by decide, by decide, by decide, by decide, by decide, by decide, by decide,
    sample_admits _ _ _⟩

/-- A valid range; one byte short of a header; a wrong size; a header with 101 probes. -/
theorem witness_ValidateFilterVerdicts :
    (10 = (sample.headerAt 0x1000).capacity.toNat ∧ 0x3F000000#32 = (sample.headerAt 0x1000).errorRate ∧
        15 = optimalBits .literal 10 0x3F000000#32 ∧ 2 = (69 * 15 + 100 * 10 - 1) / (100 * 10)) ∧
      19 < 20 ∧ (20 ≤ 23 ∧ 23 - 20 ≠ (15 + 7) / 8) ∧
      (20 ≤ 22 ∧ ¬(10 = 0 ∨ (0x3F000000#32 : Half).toNat < 0x00000001 ∨ 0x3F7FFFFF < (0x3F000000#32 : Half).toNat ∨
        2 ^ 64 - 8 < 15 ∨ 22 - 20 ≠ (15 + 7) / 8)) ∧
      (146 = optimalBits .literal 1 0x0D000000#32 ∧ 39 - 20 = (146 + 7) / 8 ∧ 100 < (69 * 146 + 100 * 1 - 1) / (100 * 1)) := by
  decide +kernel

/-- A wrapping element; 19 bytes of buffer; a corrupt header. -/
theorem witness_AddAndTestChecks :
    Instr.add ∈ [Instr.add, .test] ∧
      2 ^ 64 < ({ sample with elemBase := 0xFFFFFFFFFFFFFFFF#64, elemLen := 2#64 }).elemBase.toNat + 2 ∧
      ({ sample with buf0Len := 19#64 }).buf0Len.toNat < 20 ∧
      (20 ≤ ({ sample with buf0Len := 23#64 }).buf0Len.toNat ∧ sample.Admitted .read 0x1000 20 ∧
        ({ sample with buf0Len := 23#64 }).filterAt ⟨0x1000, 23⟩ = .error .corruptBuffer) :=
  ⟨by decide, by decide, by decide, by decide, sample_admits _ _ _, by decide +kernel⟩

theorem witness_AddEffect :
    0x1000 = sample.buf0Base.toNat ∧ 22 = sample.buf0Len.toNat ∧ Memory.wf sample.mem = true ∧ 0x1000 + 22 ≤ 2 ^ 64 ∧
      sample.elemBase.toNat + sample.elemLen.toNat ≤ 2 ^ 64 ∧ sample.HoldsFilter 0x1000 22 15 2 ∧
      sample.Admitted .read 0x1000 22 ∧ sample.Admitted .write (0x1000 + 20) (22 - 20) ∧
      sample.Admitted .read sample.elemBase.toNat sample.elemLen.toNat :=
  ⟨by decide, by decide, by decide, by decide, by decide, sample_holds0, sample_admits _ _ _, sample_admits _ _ _,
    sample_admits _ _ _⟩

theorem witness_TestEffect :
    0x1000 = sample.buf0Base.toNat ∧ 22 = sample.buf0Len.toNat ∧ 0x1000 + 22 ≤ 2 ^ 64 ∧
      sample.elemBase.toNat + sample.elemLen.toNat ≤ 2 ^ 64 ∧ sample.HoldsFilter 0x1000 22 15 2 ∧
      sample.Admitted .read 0x1000 22 ∧ sample.Admitted .read sample.elemBase.toNat sample.elemLen.toNat :=
  ⟨by decide, by decide, by decide, by decide, sample_holds0, sample_admits _ _ _, sample_admits _ _ _⟩

/-- An overlap of one byte, adjacent ranges, a corrupt destination, a corrupt source, a source with another seed. -/
theorem witness_MergeChecks :
    PartlyOverlap 0x1000 22 0x1015 22 ∧ ¬PartlyOverlap 0x1000 22 0x1016 22 ∧
      (sample.buf0Base.toNat + sample.buf0Len.toNat ≤ 2 ^ 64 ∧ sample.buf1Base.toNat + sample.buf1Len.toNat ≤ 2 ^ 64 ∧
        ¬PartlyOverlap 0x1000 22 0x2000 22 ∧ sample.Admitted .read 0x1000 20 ∧ sample.Admitted .read 0x2000 20) ∧
      ({ sample with buf0Len := 10#64 }).filterAt ⟨0x1000, 10⟩ = .error .corruptBuffer ∧
      (∃ f, sample.filterAt sample.buf0 = .ok f) ∧ sample.filterAt ⟨0x2000, 10⟩ = .error .corruptBuffer ∧
      (∃ g, sample.filterAt sample.buf1 = .ok g) ∧
      ({ sample with mem := Memory.write sample.mem 0x2000 8#8 }).headerAt 0x1000 ≠
        ({ sample with mem := Memory.write sample.mem 0x2000 8#8 }).headerAt 0x2000 :=
  ⟨by unfold PartlyOverlap; decide, by unfold PartlyOverlap; decide,
    ⟨by decide, by decide, by unfold PartlyOverlap; decide, sample_admits _ _ _, sample_admits _ _ _⟩, by decide +kernel,
    ⟨_, sample_filter0⟩, by decide +kernel, ⟨_, sample_filter1⟩, by decide +kernel⟩

theorem witness_MergeEffect :
    (0x1000 = sample.buf0Base.toNat ∧ 0x2000 = sample.buf1Base.toNat ∧ 22 = sample.buf0Len.toNat ∧
        sample.buf1Len = sample.buf0Len ∧ Memory.wf sample.mem = true ∧ 0x1000 + 22 ≤ 2 ^ 64 ∧ 0x2000 + 22 ≤ 2 ^ 64) ∧
      (0x1000 = 0x2000 ∨ 0x1000 + 22 ≤ 0x2000 ∨ 0x2000 + 22 ≤ 0x1000) ∧ sample.HoldsFilter 0x1000 22 15 2 ∧
      sample.HoldsFilter 0x2000 22 15 2 ∧ sample.headerAt 0x1000 = sample.headerAt 0x2000 ∧
      sample.Admitted .read 0x1000 22 ∧ sample.Admitted .read 0x2000 22 ∧ sample.Admitted .write (0x1000 + 20) (22 - 20) :=
  ⟨by decide, by decide, sample_holds0, sample_holds1, by decide, sample_admits _ _ _, sample_admits _ _ _,
    sample_admits _ _ _⟩

/-- The largest zero-exponent pattern, the least and the largest normal exponent, and a NaN. -/
theorem witness_PatternDenotesItsBinary32Value :
    (0x007FFFFF#32 : Half).toNat = 0 * 2 ^ 31 + 0 * 2 ^ 23 + (2 ^ 23 - 1) ∧
      (0x00800000#32 : Half).toNat = 0 * 2 ^ 31 + 1 * 2 ^ 23 + 0 ∧
      (0xFF7FFFFF#32 : Half).toNat = 1 * 2 ^ 31 + 254 * 2 ^ 23 + (2 ^ 23 - 1) ∧
      (0x7F800001#32 : Half).toNat = 0 * 2 ^ 31 + 255 * 2 ^ 23 + 1 := by decide

/-- The least capacity and the largest legal pattern, with the real number it denotes. -/
theorem witness_OptimalBitsIsTheExactCeiling :
    1 ≤ 1 ∧ legalErrorRate 0x3F7FFFFF#32 = true ∧ ∃ p, (f32val 0x3F7FFFFF#32).real = some p := by
  have h : f32val 0x3F7FFFFF#32 = .finite false 16777215 (-24) := by decide
  exact ⟨le_rfl, by decide, _, by rw [h]; rfl⟩

theorem witness_OptimalProbesIsTheExactCeiling : 1 ≤ 2 ^ 64 - 1 ∧ 1 ≤ 1 ∧ 2 ^ 64 - 1 < 2 ^ 64 := by decide

theorem witness_DeriverIsMonotone :
    (1 ≤ 1 ∧ 1 ≤ 2 ∧ legalErrorRate 0x00000001#32 = true ∧ legalErrorRate 0x3F7FFFFF#32 = true) ∧
      (0x00000001#32 : Half).toNat ≤ (0x3F7FFFFF#32 : Half).toNat := by decide

theorem witness_DerivedSizesFitTheRegisters :
    1 ≤ 12000000000000000000 ∧ legalErrorRate 0x3F000000#32 = true ∧
      17280000000000000000 = optimalBits .literal 12000000000000000000 0x3F000000#32 ∧
      17280000000000000000 ≤ 2 ^ 64 - 8 ∧ 2160000000000000000 = (17280000000000000000 + 7) / 8 := by decide +kernel

theorem witness_ComposedProbeCountRange : 1 ≤ 1 ∧ legalErrorRate 0x00000001#32 = true := by decide

/-- A capacity, a pattern and the number it denotes at which the first precision decides, and the last row of R147. -/
theorem witness_Ln2ConfigurationIsSound :
    1 ≤ 25 ∧ 1 ≤ 37 ∧ legalErrorRate 0x3F000000#32 = true ∧ (∃ p, (f32val 0x3F000000#32).real = some p) ∧
      bitsDecided 96 25 0x3F000000#32 ∧ probesDecided 96 37 25 ∧
      (1000, 0x0D800000#32, 144270, 101) ∈ [(1000, 0x3C23D70A#32, 9586, 7), (1000000, 0x3C23D70A#32, 9585059, 7),
        (25, 0x3F000000#32, 37, 2), (1000, 0x0D800000#32, 144270, 101)] := by
  have h : f32val 0x3F000000#32 = .finite false 8388608 (-24) := by decide
  exact ⟨by decide, by decide, by decide, ⟨_, by rw [h]; rfl⟩, by unfold bitsDecided; decide +kernel,
    by unfold probesDecided; decide +kernel, by decide⟩

/-- The first and the last entry of a table. -/
theorem witness_SeedWordsAreSumsAndDistinct :
    toyTable.entries[0]? = some 13 ∧ toyTable.entries[99]? = some 9616 ∧ 0 ≠ 99 := by decide

theorem witness_TestbitAfterSetbit :
    Memory.wf sample.mem = true ∧ (∃ t, exec .setbit sample = .next t ∧ t.code = 0#4) ∧
      sample.admits .read (bitAddress sample.buf0.base (fold 43#64 sample.bitlen.toNat)) = true ∧
      fold 43#64 sample.bitlen.toNat = fold sample.pos sample.bitlen.toNat ∧
      fold 44#64 sample.bitlen.toNat ≠ fold sample.pos sample.bitlen.toNat :=
  ⟨by decide, ⟨_, rfl, rfl⟩, by decide, by decide, by decide⟩

theorem witness_SetbitIsIdempotentAndCommutes :
    Memory.wf sample.mem = true ∧ (∃ t, exec .setbit sample = .next t) ∧
      ∃ t, exec .setbit { sample with pos := 43#64 } = .next t := ⟨by decide, ⟨_, rfl⟩, ⟨_, rfl⟩⟩

theorem witness_InitMakesAValidEmptyFilter :
    Memory.wf sample.mem = true ∧ ∃ t, exec .init sample = .next t ∧ t.code = 0#4 := by
  obtain ⟨t, ht⟩ := initCommand_answers (P := Config.engine) (s := sample) rfl
  refine ⟨by decide, t, by show finish (initCommand Config.engine sample) = _; rw [ht]; rfl, ?_⟩
  have hc : initCheck Config.engine sample = .ok 2 := by decide +kernel
  rcases initCommand_next ht with ⟨c, h, -⟩ | ⟨n, -, rfl⟩
  · rw [hc] at h; cases h
  · exact code_done _ _

theorem witness_EmptyFilterTestsFalseAfterOneProbe :
    0x1000 = emptied.buf0Base.toNat ∧ 22 = emptied.buf0Len.toNat ∧ 0x1000 + 22 ≤ 2 ^ 64 ∧
      emptied.elemBase.toNat + emptied.elemLen.toNat ≤ 2 ^ 64 ∧ emptied.HoldsFilter 0x1000 22 15 2 ∧
      emptied.Admitted .read 0x1000 22 ∧ emptied.Admitted .read emptied.elemBase.toNat emptied.elemLen.toNat ∧
      ∀ q, q < 8 * (22 - 20) → emptied.bitAt (0x1000 + 20) q = false :=
  ⟨by decide, by decide, by decide, by decide, by unfold State.HoldsFilter; decide +kernel,
    fun a _ _ => admits_of_nothing_denied rfl _ a, fun a _ _ => admits_of_nothing_denied rfl _ a, by decide⟩

theorem witness_AddIsIdempotent :
    Memory.wf sample.mem = true ∧ (∃ t, exec .add sample = .next t ∧ t.code = 0#4) ∧
      sample.elem.overlaps sample.buf0 = false := by
  obtain ⟨t, h, h', -⟩ := sample_add
  exact ⟨by decide, ⟨t, h, h'⟩, by decide⟩

theorem witness_NoFalseNegatives :
    Memory.wf sample.mem = true ∧ ∃ t u, exec .add sample = .next t ∧ t.code = 0#4 ∧
      FilterRun sample.buf0.base sample.buf0.len t u ∧ u.buf0 = sample.buf0 ∧ u.elementBytes = sample.elementBytes ∧
      u.elem.wellFormed = true ∧ u.Admitted .read u.elem.base u.elem.len := by
  obtain ⟨t, h, h', hb, he, hel, hd⟩ := sample_add
  exact ⟨by decide, t, t, h, h', .refl _, hb, he, by rw [hel]; decide, fun a _ _ => admits_of_nothing_denied hd _ a⟩

theorem witness_MergeIsCommutativeAndIdempotent :
    Memory.wf sample.mem = true ∧ (∃ t, exec .merge sample = .next t ∧ t.code = 0#4) ∧
      (∃ u, exec .merge { sample with
        buf0Base := sample.buf1Base, buf0Len := sample.buf1Len, buf1Base := sample.buf0Base, buf1Len := sample.buf0Len } =
          .next u ∧ u.code = 0#4) ∧
      (∃ t, exec .merge { sample with buf1Base := sample.buf0Base } = .next t ∧ t.code = 0#4) ∧
      ({ sample with buf1Base := sample.buf0Base }).buf0 = ({ sample with buf1Base := sample.buf0Base }).buf1 := by
  refine ⟨by decide, merge_ends_ok rfl (by decide) (by decide) (by decide) sample_filter0 sample_filter1 (by decide), ?_, ?_, rfl⟩
  · exact merge_ends_ok rfl (by decide) (by decide) (by decide) sample_filter1 sample_filter0 (by decide)
  · exact merge_ends_ok rfl (by decide) (by decide) (by decide) sample_filter0 sample_filter0 (by decide)

theorem witness_MergeKeepsTheMembersOfBoth :
    Memory.wf full.mem = true ∧ (∃ t, exec .merge full = .next t ∧ t.code = 0#4) ∧
      full.elem.overlaps full.buf0 = false ∧ ∃ u, exec .test full = .next u ∧ u.result = true := by
  obtain ⟨u, h, h', -⟩ := full_test
  exact ⟨by decide, merge_ends_ok rfl (by decide) (by decide) (by decide) full_filter0 full_filter1 (by decide), by decide,
    u, h, h'⟩

theorem witness_EqualBytesAreEqualFilters :
    (full.buf0.len = ({ full with buf0Base := 0x2000#64 }).buf0.len ∧
        full.bytesAt 22 0x1000 = ({ full with buf0Base := 0x2000#64 }).bytesAt 22 0x2000 ∧
        full.elementBytes = ({ full with buf0Base := 0x2000#64 }).elementBytes ∧
        full.buf0.wellFormed = true ∧ ({ full with buf0Base := 0x2000#64 }).buf0.wellFormed = true ∧
        full.elem.wellFormed = true) ∧
      (∃ t, exec .test full = .next t) ∧ ∃ t, exec .test { full with buf0Base := 0x2000#64 } = .next t := by
  obtain ⟨t, h, -⟩ := full_test
  obtain ⟨u, hu⟩ := testCommand_answers (s := { full with buf0Base := 0x2000#64 }) rfl (by decide) (by decide)
    (f := ⟨⟨7#64, 0x3F000000#32, 10#64⟩, 15, 2, 2⟩) (by decide +kernel) (by decide)
  refine ⟨by decide, ⟨t, h⟩, u, ?_⟩
  show finish (testCommand Config.engine _) = _
  rw [hu]
  rfl

theorem witness_OperationCountsOfOkEndings :
    (∃ t, exec .add sample = .next t ∧ t.code = 0#4) ∧ ∃ t, exec .test full = .next t ∧ t.code = 0#4 := by
  obtain ⟨t, h, h', -⟩ := sample_add
  obtain ⟨u, hu, -, hc⟩ := full_test
  exact ⟨⟨t, h, h'⟩, ⟨u, hu, hc⟩⟩

theorem witness_AccessesStayInTheFootprint :
    ∃ t, exec .setbit sample = .next t ∧ t.trace = sample.trace ++ [.read 0x1001 0#8, .write 0x1001 8#8] := ⟨_, rfl, rfl⟩

theorem witness_AccessesReplayToTheNewMemory : ∃ t, exec .setbit sample = .next t := ⟨_, rfl⟩

theorem witness_EveryPrefixOnlySetsBits :
    Instr.setbit ∈ [Instr.add, .setbit, .merge] ∧ Memory.wf sample.mem = true ∧
      ∃ t, exec .setbit sample = .next t ∧ t.trace = sample.trace ++ ([.read 0x1001 0#8] ++ [.write 0x1001 8#8]) ∧
        replay sample.mem [.read 0x1001 0#8] = some sample.mem := ⟨by decide, by decide, _, rfl, rfl, rfl⟩

/-- A state with a pending command that meets the invariant and steps. -/
theorem witness_EveryStepKeepsTheInvariant :
    ({ sample with hostQueue := [.writeSlot 0 3#64] }).Inv ∧
      ∃ t, step { sample with hostQueue := [.writeSlot 0 3#64] } = .next t := by
  refine ⟨⟨by decide, by decide, ⟨fun h => absurd h (by decide), fun h => absurd rfl (h .nop)⟩, fun h => absurd h (by decide),
    by decide, .inl rfl⟩, _, rfl⟩

/-- Each of the expansions at the head of a queue, `init` with given and with default arguments. -/
theorem witness_HostCommandsRunTheirCommand :
    ({ sample with hostQueue := hostAdd 0x1000#64 22#64 0x3000#64 1#64 ++ [] }).hostQueue =
        hostAdd 0x1000#64 22#64 0x3000#64 1#64 ++ [] ∧
      ({ sample with hostQueue := hostExists 0x1000#64 22#64 0x3000#64 1#64 ++ [] }).hostQueue =
        hostExists 0x1000#64 22#64 0x3000#64 1#64 ++ [] ∧
      ({ sample with hostQueue := hostMerge 0x1000#64 22#64 0x2000#64 22#64 ++ [] }).hostQueue =
        hostMerge 0x1000#64 22#64 0x2000#64 22#64 ++ [] ∧
      ({ sample with hostQueue := hostInitDerive none none 1#64 ++ [] }).hostQueue = hostInitDerive none none 1#64 ++ [] ∧
      ({ sample with hostQueue := hostInitDerive (some 10#64) (some 0x3F000000#32) 1#64 ++ [] }).hostQueue =
        hostInitDerive (some 10#64) (some 0x3F000000#32) 1#64 ++ [] ∧
      ({ sample with hostQueue := hostInitCreate 0x1000#64 22#64 ++ [] }).hostQueue =
        hostInitCreate 0x1000#64 22#64 ++ [] := by decide

end Sys2Proof.Tests
end

section
/-! The register window by slot number (spec R20, R37). -/

namespace Sys2Proof.Machine

/-- The slot of a register, the inverse of `RegName.ofSlot` (spec R20). -/
def RegName.slot : RegName → Nat
  | .cmd => 0
  | .status => 1
  | .buf0Base => 2
  | .buf0Len => 3
  | .buf1Base => 4
  | .buf1Len => 5
  | .elemBase => 6
  | .elemLen => 7
  | .seed => 8
  | .capacity => 9
  | .errorRate => 10
  | .idx => 11
  | .m => 12
  | .k => 13
  | .nbytes => 14
  | .bitlen => 15
  | .pos => 16
  | .hashLo => 17
  | .hashHi => 18

@[simp] theorem ofSlot_slot (r : RegName) : RegName.ofSlot r.slot = some r := by cases r <;> rfl

theorem ofSlot_reserved {slot : Nat} (h : 19 ≤ slot) : RegName.ofSlot slot = none := by
  obtain ⟨n, rfl⟩ := Nat.exists_eq_add_of_le' h
  rfl

theorem ofSlot_eq_some {slot : Nat} {r : RegName} : RegName.ofSlot slot = some r ↔ slot = r.slot := by
  refine ⟨fun h => ?_, fun h => h ▸ ofSlot_slot r⟩
  rcases lt_or_ge slot 19 with hlt | hge
  · interval_cases slot <;> cases h <;> rfl
  · rw [ofSlot_reserved hge] at h
    cases h

theorem slot_injective {r r' : RegName} (h : r.slot = r'.slot) : r = r' :=
  Option.some.inj (by rw [← ofSlot_slot r, h, ofSlot_slot])

/-- The read-only registers are those of slots 1, 13, 14, 17 and 18 (spec R20). -/
theorem hostWritable_iff (r : RegName) : r.hostWritable = true ↔ r.slot ∉ [1, 13, 14, 17, 18] := by
  cases r <;> decide

/-- The window the obligations write out is the register view `State.get` in slot order (spec R20). -/
theorem registerWindow_getElem? (slot : Nat) :
    registerWindow[slot]? = (RegName.ofSlot slot).map fun r s => s.get r := by
  rcases lt_or_ge slot 19 with hlt | hge
  · interval_cases slot <;> rfl
  · rw [ofSlot_reserved hge]
    exact List.getElem?_eq_none hge

theorem registerWindow_eq_some {slot : Nat} {f : State → Word} (h : registerWindow[slot]? = some f) :
    ∃ r : RegName, slot = r.slot ∧ f = fun s => s.get r := by
  rw [registerWindow_getElem?, Option.map_eq_some_iff] at h
  obtain ⟨r, hr, rfl⟩ := h
  exact ⟨r, ofSlot_eq_some.mp hr, rfl⟩

theorem mem_registerWindow {f : State → Word} (h : f ∈ registerWindow) : ∃ r : RegName, f = fun s => s.get r := by
  obtain ⟨slot, hslot⟩ := List.mem_iff_getElem?.mp h
  obtain ⟨r, -, hf⟩ := registerWindow_eq_some hslot
  exact ⟨r, hf⟩

@[simp] theorem get_hostQueue (s : State) (queue : List HostAction) (r : RegName) :
    ({ s with hostQueue := queue } : State).get r = s.get r := by cases r <;> rfl

/-- What a slot reads as is the window's entry, and zero where there is none, whatever actions are pending (spec R20). -/
theorem readSlot_eq_window (s : State) (queue : List HostAction) (slot : Nat) :
    readSlot { s with hostQueue := queue } slot = (registerWindow[slot]?.map fun f => f s).getD 0#64 := by
  unfold readSlot
  rw [registerWindow_getElem?]
  cases RegName.ofSlot slot with
  | none => rfl
  | some r => exact get_hostQueue s queue r

@[simp] theorem resetEngine_get (s : State) (r : RegName) : (resetEngine s).get r = 0#64 := by cases r <;> rfl

theorem writeSlot_slot (s : State) (r : RegName) (v : Word) :
    writeSlot s r.slot v = if r.hostWritable then s.set r v else s := by simp [writeSlot]

theorem writeSlot_reserved (s : State) {slot : Nat} (h : 19 ≤ slot) (v : Word) : writeSlot s slot v = s := by
  simp [writeSlot, ofSlot_reserved h]

/-- A slot is that of a register or reserved (spec R20). -/
theorem slot_cases (slot : Nat) : (∃ r : RegName, slot = r.slot) ∨ 19 ≤ slot := by
  cases h : RegName.ofSlot slot with
  | some r => exact .inl ⟨r, ofSlot_eq_some.mp h⟩
  | none =>
    refine .inr (Nat.le_of_not_lt fun hlt => ?_)
    interval_cases slot <;> cases h

/-- A write of a slot other than CMD leaves the state alone or sets one register the host may write (spec R20, R37). -/
theorem writeSlot_cases (s : State) {slot : Nat} (hs : slot ≠ 0) (v : Word) :
    writeSlot s slot v = s ∨ ∃ r : RegName, r.hostWritable = true ∧ r ≠ .cmd ∧ writeSlot s slot v = s.set r v := by
  obtain ⟨r, rfl⟩ | hres := slot_cases slot
  · rw [writeSlot_slot]
    cases hw : r.hostWritable with
    | true => exact .inr ⟨r, hw, fun h => hs (h ▸ rfl), rfl⟩
    | false => exact .inl rfl
  · exact .inl (writeSlot_reserved s hres v)

theorem writeSlot_frame (s : State) {slot : Nat} (hs : slot ≠ 0) (v : Word) :
    (writeSlot s slot v).hostQueue = s.hostQueue ∧ (writeSlot s slot v).mem = s.mem ∧
      (writeSlot s slot v).denied = s.denied ∧ (writeSlot s slot v).hostRead = s.hostRead ∧
      (writeSlot s slot v).trace = s.trace := by
  obtain h | ⟨r, -, -, h⟩ := writeSlot_cases s hs v <;> simp [h]

/-- The bits a wide or narrow register keeps of a word written to its slot, CMD and STATUS apart (spec R37). -/
theorem get_set_slot (s : State) {r : RegName} (v : Word) (h : r.slot ≠ 0) (h' : r.slot ≠ 1) :
    (s.set r v).get r = if r.slot = 10 ∨ r.slot = 11 then (v.setWidth 32).setWidth 64 else v := by
  rw [get_set_same]
  cases r <;> simp [RegName.slot, RegName.width] at h h' ⊢

/-- What each slot reads as after a host write of a slot other than CMD (spec R20, R37). -/
theorem writeSlot_get (s : State) {slot : Nat} (h : slot ≠ 0) (r : RegName) (v : Word) :
    (writeSlot s slot v).get r =
      if r.slot = slot ∧ slot ∉ [1, 13, 14, 17, 18] then
        (if slot = 10 ∨ slot = 11 then (v.setWidth 32).setWidth 64 else v)
      else s.get r := by
  obtain ⟨r', rfl⟩ | hres := slot_cases slot
  · rw [writeSlot_slot]
    by_cases hw : r'.hostWritable = true
    · have hro := (hostWritable_iff r').mp hw
      rw [if_pos hw]
      by_cases hrr : r = r'
      · subst hrr
        rw [if_pos ⟨rfl, hro⟩, get_set_slot s v h fun h1 => hro (by simp [h1])]
      · rw [if_neg fun hc => hrr (slot_injective hc.1), get_set_other s r' r v hrr]
    · rw [if_neg hw, if_neg fun hc => hw ((hostWritable_iff r').mpr hc.2)]
  · rw [writeSlot_reserved s hres, if_neg]
    rintro ⟨rfl, -⟩
    cases r <;> simp [RegName.slot] at hres

end Sys2Proof.Machine
end

section
/-! One step by the action it takes (spec R12, R23, R90, R281). -/

namespace Sys2Proof.Machine

theorem step_idle {s : State} (h : s.hostQueue = []) : step s = .next s := by simp [step, takeAction, h]

theorem step_action {s : State} {a : HostAction} {rest : List HostAction} (h : s.hostQueue = a :: rest) :
    step s = hostAct { s with hostQueue := rest } a := by simp [step, takeAction, h]

theorem issue_ok {s : State} {w : Half} {i : Instr} (h : decode w = .ok i) : issue s w = exec i (startCommand s w) := by
  simp [issue, h]

theorem issue_illegal {s : State} {w : Half} {e : Illegal} (h : decode w = .error e) :
    issue s w = .next (raise .illegalCommand (startCommand s w)) := by simp [issue, h]

/-- Settles O4: a write of slot 0 is `issue`, which runs the decoded command. -/
theorem stepRunsTheDecodedCommand : Obligations.StepRunsTheDecodedCommand := by
  intro s rest v i hq hi
  calc step s = issue { s with hostQueue := rest } (v.setWidth 32) := step_action hq
    _ = exec i (startCommand { s with hostQueue := rest } (v.setWidth 32)) := issue_ok hi

/-- Settles O6: a slot reads as the window's entry. -/
theorem hostReadReturnsTheSlot : Obligations.HostReadReturnsTheSlot := by
  refine ⟨fun s rest slot hq => ?_, fun s rest a hq => step_action hq⟩
  rw [step_action hq, hostAct, readSlot_eq_window]
  cases registerWindow[slot]? <;> rfl

/-- Settles O7: a slot write sets at most its own register, a byte write stores one byte. -/
theorem hostWriteChangesOnlyItsRegister : Obligations.HostWriteChangesOnlyItsRegister := by
  refine ⟨fun s rest slot v h0 hq => ?_, fun s rest a v hwf hq => ?_⟩
  · obtain ⟨hqueue, hmem, hdenied, hread, htrace⟩ := writeSlot_frame { s with hostQueue := rest } h0 v
    refine ⟨_, by rw [step_action hq, hostAct, if_neg h0], hqueue, hmem, hdenied, hread, htrace, fun other f hf => ?_⟩
    obtain ⟨r, rfl, rfl⟩ := registerWindow_eq_some hf
    exact writeSlot_get _ h0 r v
  · refine ⟨_, step_action hq, rfl, fun b => ?_⟩
    simp only [@eq_comm _ b]
    exact store_byteAt { s with hostQueue := rest } hwf a.toNat b v

/-- Settles O8: every register reads 0 through the window after a reset. -/
theorem resetClearsRegistersAndKeepsMemory : Obligations.ResetClearsRegistersAndKeepsMemory := by
  refine ⟨fun s rest hq => ?_, fun f hf => ?_, fun s hq => step_idle hq⟩
  · refine ⟨_, step_action hq, rfl, rfl, rfl, fun f hf => ?_⟩
    obtain ⟨r, rfl⟩ := mem_registerWindow hf
    exact resetEngine_get _ r
  · obtain ⟨r, rfl⟩ := mem_registerWindow hf
    exact resetEngine_get State.reset r

end Sys2Proof.Machine
end

section
/-! Performing the accesses of a trace (spec R74, R78): the relation between a state, a list of events and the state they
lead to, and the events of every operation as an instance of it. -/

namespace Sys2Proof.Machine

theorem replay_append (mem : Memory) (x y : List PortEvent) :
    replay mem (x ++ y) = (replay mem x).bind fun mem' => replay mem' y := by
  induction x generalizing mem with
  | nil => rfl
  | cons e x ih =>
    cases e with
    | read a v =>
      simp only [List.cons_append, replay, ih]
      split <;> rfl
    | write a v => simp only [List.cons_append, replay, ih]
    | hash w => simp only [List.cons_append, replay, ih]

/-- A replay that succeeds leaves the memory that the writes alone leave. -/
theorem apply_of_replay {mem mem' : Memory} {events : List PortEvent} (h : replay mem events = some mem') :
    Memory.apply mem events = mem' := by
  induction events generalizing mem with
  | nil => exact Option.some.inj h
  | cons e events ih =>
    cases e with
    | read a v =>
      simp only [replay] at h
      split at h
      · exact ih h
      · cases h
    | write a v => exact ih h
    | hash w => exact ih h

/-- Every write of a trace lies in the address space (spec R60). -/
def WritesInSpace (events : List PortEvent) : Prop := ∀ a v, PortEvent.write a v ∈ events → a < addressSpace

theorem WritesInSpace.subset {x y : List PortEvent} (h : WritesInSpace y) (hs : ∀ e ∈ x, e ∈ y) : WritesInSpace x :=
  fun a v hw => h a v (hs _ hw)

/-- The writes of a trace keep the canonical form. -/
theorem apply_wf {mem : Memory} {events : List PortEvent} (h : Memory.wf mem = true) (hw : WritesInSpace events) :
    Memory.wf (Memory.apply mem events) = true := by
  induction events generalizing mem with
  | nil => exact h
  | cons e events ih =>
    have hrest : WritesInSpace events := hw.subset fun _ he => List.mem_cons_of_mem _ he
    cases e with
    | read a v => exact ih h hrest
    | write a v => exact ih (write_wf mem h a v (hw a v List.mem_cons_self)) hrest
    | hash w => exact ih h hrest

/-- Performing `events` one after the other on `s` gives `u`, the trace apart: every read returns what memory then holds,
every write lies in the address space, and nothing but memory changes (spec R60, R74, R78). -/
structure State.Performs (s : State) (events : List PortEvent) (u : State) : Prop where
  frame : u = { s with mem := u.mem }
  replays : replay s.mem events = some u.mem
  inSpace : WritesInSpace events

theorem performs_nil (s : State) : s.Performs [] s := ⟨rfl, rfl, by simp [WritesInSpace]⟩

theorem performs_read (s : State) (a : Nat) : s.Performs [.read a (s.byteAt a)] s :=
  ⟨rfl, by simp [replay, State.byteAt], by simp [WritesInSpace]⟩

theorem performs_hash (s : State) (w : Word) : s.Performs [.hash w] s := ⟨rfl, rfl, by simp [WritesInSpace]⟩

theorem performs_write (s : State) {a : Nat} (v : Byte) (ha : a < addressSpace) :
    s.Performs [.write a v] (s.store a v) := by
  refine ⟨rfl, rfl, fun b w hb => ?_⟩
  simp only [List.mem_singleton, PortEvent.write.injEq] at hb
  exact hb.1 ▸ ha

theorem State.Performs.append {s u t : State} {x y : List PortEvent} (h : s.Performs x u) (h' : u.Performs y t) :
    s.Performs (x ++ y) t where
  frame := by rw [h'.frame, h.frame]
  replays := by rw [replay_append, h.replays]; exact h'.replays
  inSpace a v hw := (List.mem_append.mp hw).elim (h.inSpace a v) (h'.inSpace a v)

/-! ## The events of each operation -/

theorem performs_readEvents (s : State) (n a : Nat) : s.Performs (s.readEvents n a) s := by
  induction n generalizing a with
  | zero => exact performs_nil s
  | succ n ih => exact (performs_read s a).append (ih (a + 1))

theorem performs_validateEvents (s : State) (d : Descriptor) : s.Performs (validateEvents s d) s := by
  unfold validateEvents
  split
  · exact performs_nil s
  · exact performs_readEvents s headerBytes d.base

theorem performs_writeEvents (s : State) (bs : List Byte) {a : Nat} (ha : a + bs.length ≤ addressSpace) :
    s.Performs (writeEvents bs a) (storeBytes s bs a) := by
  induction bs generalizing s a with
  | nil => exact performs_nil s
  | cons b bs ih =>
    rw [List.length_cons] at ha
    exact (performs_write s b (by omega)).append (ih (s.store a b) (by omega))

theorem performs_setBitEvents (s : State) {arr q : Nat} (ha : bitAddress arr q < addressSpace) :
    s.Performs (setBitEvents s arr q) (storeBit s arr q) := (performs_read s _).append (performs_write s _ ha)

theorem performs_addEvents (P : Params) (e : List Byte) (seed : Word) (arr bitLength : Nat) (entries : List Int) (s : State)
    (ha : ∀ q ∈ entries.map (probeBit P e seed bitLength), bitAddress arr q < addressSpace) :
    s.Performs (addEvents P e seed arr bitLength entries s)
      (storeBits s arr (entries.map (probeBit P e seed bitLength))) := by
  induction entries generalizing s with
  | nil => exact performs_nil s
  | cons c cs ih =>
    rw [List.map_cons, List.forall_mem_cons] at ha
    exact (performs_hash s _).append ((performs_setBitEvents s ha.1).append (ih _ ha.2))

theorem performs_testEvents (P : Params) (e : List Byte) (seed : Word) (arr bitLength : Nat) (s : State)
    (entries : List Int) : s.Performs (testEvents P e seed arr bitLength s entries) s := by
  induction entries with
  | nil => exact performs_nil s
  | cons c cs ih =>
    have hmore : s.Performs (if s.bitAt arr (probeBit P e seed bitLength c) then
        testEvents P e seed arr bitLength s cs else []) s := by
      split
      · exact ih
      · exact performs_nil s
    exact (performs_hash s _).append ((performs_read s _).append hmore)

theorem performs_mergeEvents (s : State) (n src : Nat) {dst : Nat} (hd : dst + n ≤ addressSpace) :
    s.Performs (mergeEvents s n src dst) (storeMerge s n src dst) := by
  induction n generalizing s src dst with
  | zero => exact performs_nil s
  | succ n ih =>
    exact (performs_read s src).append ((performs_read s dst).append
      ((performs_write s _ (by omega)).append (ih _ (src + 1) (by omega))))

end Sys2Proof.Machine
end

section
/-! The sizes the deriver gives (spec R32, R33, R131 to R137, R143). -/

namespace Sys2Proof.Machine

theorem expo_toNat (b : Half) : (b.extractLsb' 23 8).toNat = b.toNat / 2 ^ 23 % 2 ^ 8 := by
  rw [BitVec.extractLsb'_toNat, Nat.shiftRight_eq_div_pow]

theorem frac_toNat (b : Half) : (b.extractLsb' 0 23).toNat = b.toNat % 2 ^ 23 := by
  rw [BitVec.extractLsb'_toNat, Nat.shiftRight_zero]

/-- A legal error rate is sig x 2^-scale with 0 < sig < 2^scale: a subnormal number has scale 149, a normal one a scale
of at least 24 (spec R131, R132). -/
theorem f32val_legal {b : Half} (h : legalErrorRate b = true) :
    ∃ neg sig scale, f32val b = .finite neg sig (-((scale : Nat) : Int)) ∧ 0 < sig ∧ sig < 2 ^ scale := by
  obtain ⟨h1, h2⟩ := of_decide_eq_true h
  have he := expo_toNat b
  have hf := frac_toNat b
  have hfrac : (b.extractLsb' 0 23).toNat < 2 ^ 23 := BitVec.isLt _
  unfold f32val
  dsimp only
  split
  · rw [if_neg (by omega)]
    exact ⟨_, _, 149, rfl, by omega, hfrac.trans (by norm_num)⟩
  · rw [if_neg (by omega)]
    have hpow : 2 ^ 24 ≤ 2 ^ (150 - (b.extractLsb' 23 8).toNat) := Nat.pow_le_pow_right (by omega) (by omega)
    have hexp : ((b.extractLsb' 23 8).toNat : Int) - 150 = -((150 - (b.extractLsb' 23 8).toNat : Nat) : Int) := by omega
    exact ⟨_, _, 150 - (b.extractLsb' 23 8).toNat, congrArg _ hexp, by omega, by omega⟩

/-- A legal error rate is significand x 2^-scale, between 0 and 1 (spec R131, R132). -/
theorem significand_bounds {b : Half} (h : legalErrorRate b = true) :
    0 < significand b ∧ significand b < 2 ^ scale b := by
  obtain ⟨neg, sig, sc, hv, h0, hlt⟩ := f32val_legal h
  simp only [significand, scale, hv, neg_neg, Int.toNat_natCast]
  exact ⟨h0, hlt⟩

theorem optimalBitsLiteral_pos {n : Nat} {b : Half} (hn : n ≠ 0) (h : legalErrorRate b = true) :
    0 < optimalBitsLiteral n b := by
  obtain ⟨h0, hlt⟩ := significand_bounds h
  have hlog := logb_lt_scale h0 hlt
  have hn' : (0 : ℝ) < n := by exact_mod_cast Nat.pos_of_ne_zero hn
  rw [optimalBitsLiteral, optimalBitsAt_eq_ceil n _ _ h0 hlt, Nat.ceil_pos]
  exact mul_pos (mul_pos (by norm_num) hn') (by linarith)

/-- A derived bit count is positive and fits the register (spec R135, R138). -/
theorem derive_bits_bounds {n : Nat} {b : Half} {m k : Nat} (h : derive .literal n b = some (m, k)) :
    0 < m ∧ m ≤ maxBits := by
  have hm : deriveBits .literal n b = some m := by
    unfold derive at h
    split at h
    · cases h
    · rename_i m' hm'
      cases h
      exact hm'
  unfold deriveBits at hm
  split at hm
  · cases hm
  · rename_i hn
    split at hm
    · cases hm
    · rename_i hb
      split at hm
      · cases hm
      · rename_i hmax
        cases hm
        exact ⟨optimalBitsLiteral_pos hn (by simpa using hb), Nat.le_of_not_lt hmax⟩

/-- The bit array of a derived filter has from 1 to 2^61 - 1 bytes (spec R33, R143). -/
theorem arrayBytes_bounds {m : Nat} (h0 : 0 < m) (hmax : m ≤ maxBits) :
    0 < arrayBytes m ∧ arrayBytes m ≤ 2 ^ 61 - 1 := by
  unfold arrayBytes maxBits at *
  omega

/-- The largest probe count OPTPROBES can give, at M = 2^64 - 1 and CAPACITY = 1 (spec R32, R137). -/
theorem optimalProbes_le {m n : Nat} (hm : m < 2 ^ 64) (hn : n ≠ 0) :
    optimalProbes .literal m n ≤ 12728253410859590615 := by
  have hn' : 1 ≤ n := Nat.one_le_iff_ne_zero.mpr hn
  calc optimalProbes .literal m n = (69 * m + 100 * n - 1) / (100 * n) := rfl
    _ ≤ 12728253410859590615 := by
      rw [Nat.div_le_iff_le_mul_add_pred (by omega)]
      omega

end Sys2Proof.Machine
end

section
/-! How commands end (spec R36, R240, R250, R251): one inversion lemma for all commands, from which the statements about
their endings follow. -/

namespace Sys2Proof.Machine

/-- The errors R240 lists for a command. -/
def errorsOf : Instr → List ErrorCode
  | .nop => []
  | .optbits | .optprobes => [.invalidArgument]
  | .derive => [.invalidArgument, .probeTableExhausted]
  | .probe => [.probeTableExhausted, .badDescriptor]
  | .setbit | .testbit => [.invalidArgument, .badDescriptor]
  | .init => [.invalidArgument, .probeTableExhausted, .corruptBuffer, .badDescriptor]
  | .add | .test => [.probeTableExhausted, .corruptBuffer, .badDescriptor]
  | .merge => [.incompatibleParameters, .probeTableExhausted, .corruptBuffer, .badDescriptor]

/-- What a command that ends OK writes to its result registers, with the ranges of K and NBYTES (spec R32, R33, R36). -/
def WritesResults (i : Instr) (s u : State) : Prop :=
  match i with
  | .optbits => ∃ m, u = { s with m := m }
  | .optprobes => ∃ k : Word, k.toNat ≤ 12728253410859590615 ∧ u = { s with k := k }
  | .derive => ∃ m k n : Word, k.toNat ≤ seedTableLen ∧ 21 ≤ n.toNat ∧ n.toNat ≤ 20 + (2 ^ 61 - 1) ∧
      u = { s with m := m, k := k, nbytes := n }
  | .probe => ∃ lo hi, u = { s with hashLo := lo, hashHi := hi }
  | _ => u = s

/-- The endings of a command: an error of its list after accesses that change nothing, or OK after performing its accesses
and writing its result registers, with a true result of TEST and TESTBIT only. -/
inductive Ends (i : Instr) (s : State) : State → Prop where
  | error {c : ErrorCode} {events : List PortEvent} (listed : c ∈ errorsOf i) (accesses : s.Performs events s) :
      Ends i s (raise c (s.traced events))
  | ok {r : Bool} {events : List PortEvent} {u v : State} (result : r = true → i = .test ∨ i = .testbit)
      (accesses : s.Performs events u) (registers : WritesResults i u v) : Ends i s (done r (v.traced events))

theorem Ends.of_raise {i : Instr} {s : State} {c : ErrorCode} (h : c ∈ errorsOf i) : Ends i s (raise c s) := by
  have := Ends.error h (performs_nil s)
  rwa [traced_nil] at this

theorem Ends.of_done {i : Instr} {s u : State} (h : WritesResults i s u) : Ends i s (done false u) := by
  have := Ends.ok (r := false) nofun (performs_nil s) h
  rwa [traced_nil] at this

/-! ## The checks and their errors -/

theorem bareArrayError_some {s : State} {c : ErrorCode} (h : bareArrayError s = some c) :
    c = .badDescriptor ∨ c = .invalidArgument := by
  unfold bareArrayError at h
  split at h
  · exact .inl (Option.some.inj h).symm
  · split at h
    · exact .inr (Option.some.inj h).symm
    · split at h
      · exact .inl (Option.some.inj h).symm
      · cases h

theorem initCheck_error {P : Params} {s : State} {c : ErrorCode} (h : initCheck P s = .error c) : c ∈ errorsOf .init := by
  unfold initCheck at h
  split at h
  · cases h; decide
  · split at h
    · cases h; decide
    · split at h
      · cases h; decide
      · split at h
        · cases h; decide
        · cases h

/-- INIT's checks pass only where the whole filter lies in the address space (spec R62, R200). -/
theorem initCheck_space {P : Params} {s : State} {n : Nat} (h : initCheck P s = .ok n) :
    s.buf0.base + (headerBytes + n) ≤ addressSpace := by
  unfold initCheck at h
  split at h
  · cases h
  · rename_i hw
    have hspace : s.buf0.base + s.buf0.len ≤ addressSpace := wellFormed_space (by simpa using hw)
    split at h
    · cases h
    · split at h
      · cases h
      · split at h
        · cases h
        · rename_i hlen
          cases h
          omega

theorem filterAt_error {s : State} {d : Descriptor} {c : ErrorCode} (h : s.filterAt d = .error c) :
    c = .corruptBuffer ∨ c = .probeTableExhausted := by
  unfold State.filterAt at h
  split at h
  · cases h; exact .inl rfl
  · unfold judgeFilter at h
    split at h
    · cases h; exact .inl rfl
    · split at h
      · cases h; exact .inl rfl
      · split at h
        · cases h; exact .inr rfl
        · cases h

theorem filterAt_arrayLen_pos {s : State} {d : Descriptor} {f : Filter} (h : s.filterAt d = .ok f) : 0 < f.arrayLen := by
  obtain ⟨-, -, -, hderive, hlen, -⟩ := filterAt_ok h
  obtain ⟨h0, hmax⟩ := derive_bits_bounds hderive
  exact hlen ▸ (arrayBytes_bounds h0 hmax).1

theorem filterAt_space {s : State} {d : Descriptor} {f : Filter} (hw : d.wellFormed = true) (h : s.filterAt d = .ok f) :
    d.base + headerBytes + f.arrayLen ≤ addressSpace := by
  obtain ⟨hlen, -, harr, -⟩ := filterAt_ok h
  have := wellFormed_space hw
  omega

/-! ## The endings of each command -/

theorem optbitsCommand_ends (s : State) : Ends .optbits s (optbitsCommand Config.engine s) := by
  unfold optbitsCommand
  split
  · exact .of_raise (by decide)
  · exact .of_done ⟨_, rfl⟩

theorem optprobesCommand_ends (s : State) : Ends .optprobes s (optprobesCommand Config.engine s) := by
  unfold optprobesCommand
  split
  · exact .of_raise (by decide)
  · rename_i hne
    have hle : optimalProbes .literal s.m.toNat s.capacity.toNat ≤ 12728253410859590615 :=
      optimalProbes_le s.m.isLt (fun h0 => hne (.inl h0))
    refine .of_done ⟨_, ?_, rfl⟩
    rw [BitVec.toNat_ofNat]
    exact (Nat.mod_le _ _).trans hle

theorem deriveCommand_ends (s : State) : Ends .derive s (deriveCommand Config.engine s) := by
  unfold deriveCommand
  split
  · exact .of_raise (by decide)
  · rename_i m k hmk
    split
    · exact .of_raise (by decide)
    · rename_i hk
      obtain ⟨h0, hmax⟩ := derive_bits_bounds hmk
      obtain ⟨hpos, hle⟩ := arrayBytes_bounds h0 hmax
      have hheader : headerBytes = 20 := rfl
      refine .of_done ⟨_, _, _, ?_, ?_, ?_, rfl⟩ <;> rw [BitVec.toNat_ofNat]
      · exact (Nat.mod_le _ _).trans (Nat.le_of_not_lt hk)
      · rw [Nat.mod_eq_of_lt] <;> omega
      · rw [Nat.mod_eq_of_lt] <;> omega

theorem probeCommand_ends {s t : State} (h : probeCommand Config.engine s = .ok t) : Ends .probe s t := by
  obtain ⟨-, rfl⟩ | ⟨-, -, rfl⟩ | ⟨-, -, rfl⟩ := probeCommand_next h
  · exact .of_raise (by decide)
  · exact .of_raise (by decide)
  · show Ends .probe s (done false (State.traced { s with hashLo := _, hashHi := _ } _))
    exact .ok nofun ((performs_readEvents s _ _).append (performs_hash s _)) ⟨_, _, rfl⟩

theorem setbitCommand_ends {s t : State} (h : setbitCommand s = .ok t) : Ends .setbit s t := by
  obtain ⟨c, hc, rfl⟩ | ⟨hc, rfl⟩ := setbitCommand_next h
  · exact .of_raise (by rcases bareArrayError_some hc with rfl | rfl <;> decide)
  · exact .ok nofun (performs_setBitEvents s (bareArray_bit hc)) rfl

theorem testbitCommand_ends {s t : State} (h : testbitCommand s = .ok t) : Ends .testbit s t := by
  obtain ⟨c, hc, rfl⟩ | ⟨hc, rfl⟩ := testbitCommand_next h
  · exact .of_raise (by rcases bareArrayError_some hc with rfl | rfl <;> decide)
  · exact .ok (fun _ => .inr rfl) (performs_read s _) rfl

theorem initCommand_ends {s t : State} (h : initCommand Config.engine s = .ok t) : Ends .init s t := by
  obtain ⟨c, hc, rfl⟩ | ⟨n, hn, rfl⟩ := initCommand_next h
  · exact .of_raise (initCheck_error hc)
  · refine .ok nofun (performs_writeEvents s _ ?_) rfl
    rw [List.length_append, header_bytes_length, List.length_replicate]
    exact initCheck_space hn

theorem addCommand_ends {s t : State} (h : addCommand Config.engine s = .ok t) : Ends .add s t := by
  obtain ⟨-, rfl⟩ | ⟨c, -, -, hc, rfl⟩ | ⟨f, hb, -, hf, rfl⟩ := addCommand_next h
  · exact .of_raise (by decide)
  · rw [← raise_traced]
    exact .error (by rcases filterAt_error hc with rfl | rfl <;> decide) (performs_validateEvents s _)
  · exact .ok nofun (((performs_validateEvents s _).append (performs_readEvents s _ _)).append
      (performs_addEvents _ _ _ _ _ _ s (probeBits_space hb hf (filterAt_arrayLen_pos hf)))) rfl

theorem testCommand_ends {s t : State} (h : testCommand Config.engine s = .ok t) : Ends .test s t := by
  obtain ⟨-, rfl⟩ | ⟨c, -, -, hc, rfl⟩ | ⟨f, -, -, -, rfl⟩ := testCommand_next h
  · exact .of_raise (by decide)
  · rw [← raise_traced]
    exact .error (by rcases filterAt_error hc with rfl | rfl <;> decide) (performs_validateEvents s _)
  · exact .ok (fun _ => .inl rfl) (((performs_validateEvents s _).append (performs_readEvents s _ _)).append
      (performs_testEvents _ _ _ _ _ s _)) rfl

theorem mergeCommand_ends {s t : State} (h : mergeCommand Config.engine s = .ok t) : Ends .merge s t := by
  have hread := performs_validateEvents s s.buf0
  have hreads := hread.append (performs_validateEvents s s.buf1)
  obtain ⟨-, rfl⟩ | ⟨hb, -, -, ⟨c, hc, rfl⟩ | ⟨f0, hf, ⟨c, hc, rfl⟩ | ⟨f1, -, ⟨-, rfl⟩ | ⟨-, rfl⟩⟩⟩⟩ :=
    mergeCommand_next h
  · exact .of_raise (by decide)
  · rw [← raise_traced]
    exact .error (by rcases filterAt_error hc with rfl | rfl <;> decide) hread
  · rw [← raise_traced]
    exact .error (by rcases filterAt_error hc with rfl | rfl <;> decide) hreads
  · rw [← raise_traced]
    exact .error (by decide) hreads
  · exact .ok nofun (hreads.append (performs_mergeEvents s _ _ (filterAt_space hb hf))) rfl

/-- A command that answers ends in one of the ways of `Ends`. -/
theorem exec_ends {i : Instr} {s t : State} (h : exec i s = .next t) : Ends i s t := by
  cases i with
  | nop => cases h; exact .of_done rfl
  | optbits => cases h; exact optbitsCommand_ends s
  | optprobes => cases h; exact optprobesCommand_ends s
  | derive => cases h; exact deriveCommand_ends s
  | probe => exact probeCommand_ends (finish_eq_next h)
  | setbit => exact setbitCommand_ends (finish_eq_next h)
  | testbit => exact testbitCommand_ends (finish_eq_next h)
  | init => exact initCommand_ends (finish_eq_next h)
  | add => exact addCommand_ends (finish_eq_next h)
  | test => exact testCommand_ends (finish_eq_next h)
  | merge => exact mergeCommand_ends (finish_eq_next h)

/-! ## What an ending keeps -/

/-- A command writes its result registers only (spec R36). -/
theorem WritesResults.get_eq {i : Instr} {s u : State} (h : WritesResults i s u) {r : RegName} (hr : r ∉ writtenBy i) :
    u.get r = s.get r := by
  cases i with
  | optbits => obtain ⟨m, rfl⟩ := h; cases r <;> simp [writtenBy, State.get] at hr ⊢
  | optprobes => obtain ⟨k, -, rfl⟩ := h; cases r <;> simp [writtenBy, State.get] at hr ⊢
  | derive => obtain ⟨m, k, n, -, -, -, rfl⟩ := h; cases r <;> simp [writtenBy, State.get] at hr ⊢
  | probe => obtain ⟨lo, hi, rfl⟩ := h; cases r <;> simp [writtenBy, State.get] at hr ⊢
  | nop | setbit | testbit | init | add | test | merge => cases h; rfl

theorem WritesResults.frame {i : Instr} {s u : State} (h : WritesResults i s u) :
    u.cmd = s.cmd ∧ u.mem = s.mem ∧ u.denied = s.denied ∧ u.hostQueue = s.hostQueue ∧ u.hostRead = s.hostRead ∧
      u.trace = s.trace := by
  cases i with
  | optbits => obtain ⟨m, rfl⟩ := h; simp
  | optprobes => obtain ⟨k, -, rfl⟩ := h; simp
  | derive => obtain ⟨m, k, n, -, -, -, rfl⟩ := h; simp
  | probe => obtain ⟨lo, hi, rfl⟩ := h; simp
  | nop | setbit | testbit | init | add | test | merge => cases h; simp

/-- K and NBYTES stay in their ranges (spec R32, R33). -/
theorem WritesResults.ranges {i : Instr} {s u : State} (h : WritesResults i s u) :
    (u.k = s.k ∨ u.k.toNat ≤ 12728253410859590615) ∧
      (u.nbytes = s.nbytes ∨ (21 ≤ u.nbytes.toNat ∧ u.nbytes.toNat ≤ 20 + (2 ^ 61 - 1))) := by
  cases i with
  | optbits => obtain ⟨m, rfl⟩ := h; exact ⟨.inl rfl, .inl rfl⟩
  | optprobes => obtain ⟨k, hk, rfl⟩ := h; exact ⟨.inr hk, .inl rfl⟩
  | derive =>
    obtain ⟨m, k, n, hk, hlo, hhi, rfl⟩ := h
    exact ⟨.inr (hk.trans (by decide)), .inr ⟨hlo, hhi⟩⟩
  | probe => obtain ⟨lo, hi, rfl⟩ := h; exact ⟨.inl rfl, .inl rfl⟩
  | nop | setbit | testbit | init | add | test | merge => cases h; exact ⟨.inl rfl, .inl rfl⟩

@[simp] theorem traced_get (s : State) (x : List PortEvent) (r : RegName) : (s.traced x).get r = s.get r := by
  cases r <;> rfl

theorem State.Performs.get_eq {s u : State} {events : List PortEvent} (h : s.Performs events u) (r : RegName) :
    u.get r = s.get r := by
  rw [h.frame]
  cases r <;> rfl

/-- A command writes no register but STATUS and its result registers (spec R36). -/
theorem Ends.get_eq {i : Instr} {s t : State} (h : Ends i s t) {r : RegName} (hr : r ∉ writtenBy i) :
    t.get r = s.get r := by
  have hstatus : RegName.status ∈ writtenBy i := by cases i <;> decide
  have hne : r ≠ .status := fun hs => hr (hs ▸ hstatus)
  cases h with
  | error _ _ => rw [raise_get _ _ _ hne, traced_get]
  | ok _ hu hv => rw [done_get _ _ _ hne, traced_get, hv.get_eq hr, hu.get_eq]

theorem Ends.frame {i : Instr} {s t : State} (h : Ends i s t) :
    t.cmd = s.cmd ∧ t.denied = s.denied ∧ t.hostQueue = s.hostQueue ∧ t.hostRead = s.hostRead := by
  cases h with
  | error _ _ => exact ⟨rfl, rfl, rfl, rfl⟩
  | ok _ hu hv =>
    obtain ⟨hcmd, -, hdenied, hqueue, hread, -⟩ := hv.frame
    rw [hu.frame] at hcmd hdenied hqueue hread
    exact ⟨hcmd, hdenied, hqueue, hread⟩

/-- K and NBYTES stay in their ranges (spec R32, R33). -/
theorem Ends.ranges {i : Instr} {s t : State} (h : Ends i s t) :
    (t.k = s.k ∨ t.k.toNat ≤ 12728253410859590615) ∧
      (t.nbytes = s.nbytes ∨ (21 ≤ t.nbytes.toNat ∧ t.nbytes.toNat ≤ 20 + (2 ^ 61 - 1))) := by
  cases h with
  | error _ _ => exact ⟨.inl rfl, .inl rfl⟩
  | ok _ hu hv =>
    have h := hv.ranges
    rw [hu.frame] at h
    exact h

/-- A command adds to the trace the accesses that lead from the memory before to the memory after (spec R74, R78). -/
theorem Ends.accesses {i : Instr} {s t : State} (h : Ends i s t) :
    ∃ events, t.trace = s.trace ++ events ∧ replay s.mem events = some t.mem ∧ WritesInSpace events := by
  cases h with
  | @error _ events _ hs => exact ⟨events, rfl, hs.replays, hs.inSpace⟩
  | @ok _ events u v _ hu hv =>
    obtain ⟨-, hmem, -, -, -, htrace⟩ := hv.frame
    refine ⟨events, ?_, hmem ▸ hu.replays, hu.inSpace⟩
    rw [done_trace, traced_trace, htrace, hu.frame]

/-- Of the codes of R240 a command raises five (spec R247, R248). -/
theorem errorsOf_engine (i : Instr) : ∀ c ∈ errorsOf i, c ∈ [ErrorCode.invalidArgument, .incompatibleParameters,
    .probeTableExhausted, .corruptBuffer, .badDescriptor] := by cases i <;> decide

/-- STATUS after an error of a command (spec R240, R247, R249). -/
theorem statusOfError_errorsOf {i : Instr} {c : ErrorCode} (h : c ∈ errorsOf i) :
    statusOfError c ∈ [0x001#32, 0x003#32, 0x004#32, 0x005#32, 0x006#32] := by
  have hc := errorsOf_engine i c h
  fin_cases hc <;> decide

/-- Settles O11: by the endings, STATUS is that of a listed error or of a result. -/
theorem everyEndingLeavesALegalStatus : Obligations.EveryEndingLeavesALegalStatus := by
  intro i s t h
  cases exec_ends h with
  | @error c events hc _ =>
    rw [code_raise]
    refine ⟨.inl (List.mem_cons_of_mem _ (statusOfError_errorsOf hc)), List.mem_cons_of_mem _ ?_⟩
    have hnumber := List.mem_map_of_mem (f := ErrorCode.number) hc
    cases i <;> exact hnumber
  | @ok r events u v hr _ _ =>
    rw [code_done]
    refine ⟨?_, List.mem_cons_self⟩
    cases r with
    | false => exact .inl (by rw [done_status]; decide)
    | true => exact .inr ⟨by rw [done_status]; decide, hr rfl⟩

/-- Settles O15: by the endings, only result registers and STATUS differ from the state before. -/
theorem commandsWriteOnlyTheirRegisters : Obligations.CommandsWriteOnlyTheirRegisters := by
  intro i s t h
  have hends := exec_ends h
  obtain ⟨-, hdenied, hqueue, hread⟩ := hends.frame
  exact ⟨fun r hr => hends.get_eq hr, hdenied, hqueue, hread⟩

end Sys2Proof.Machine
end

section
/-! The invariant (spec R24, R32, R33, R40, R74, R248): reset meets it, and so does the state after each action. -/

namespace Sys2Proof.Machine

/-- The invariant speaks of memory, CMD, STATUS, K and NBYTES only. -/
theorem State.Inv.of_fields {s t : State} (h : s.Inv) (hmem : Memory.wf t.mem = true) (hcmd : t.cmd = s.cmd)
    (hstatus : t.status = s.status) (hk : t.k = s.k) (hn : t.nbytes = s.nbytes) : t.Inv where
  memory := hmem
  status := hstatus ▸ h.status
  illegal := by rw [State.code, hstatus, hcmd]; exact h.illegal
  result := by rw [State.result, hstatus, hcmd]; exact h.result
  probes := hk ▸ h.probes
  size := hn ▸ h.size

/-- CMD = 0 is NOP's word, and STATUS, K and NBYTES are 0 (spec R44). -/
theorem resetEngine_inv {s : State} (h : Memory.wf s.mem = true) : (resetEngine s).Inv where
  memory := h
  status := by rw [resetEngine_status]; decide
  illegal := ⟨fun hc => absurd hc (by simp [State.code]), fun hc => absurd (by rw [resetEngine_cmd]; decide) (hc .nop)⟩
  result hr := absurd hr (by simp [State.result])
  probes := Nat.zero_le _
  size := .inl rfl

/-- Settles O58: the reset state is a reset of itself. -/
theorem resetMeetsTheInvariant : Obligations.ResetMeetsTheInvariant := resetEngine_inv (s := State.reset) (by decide)

/-! ## Issue -/

/-- A command leaves a legal STATUS other than IllegalCommand's, with a true RESULT after TEST and TESTBIT only. -/
theorem exec_status {i : Instr} {s t : State} (h : exec i s = .next t) :
    legalStatus t.status = true ∧ t.code ≠ 7#4 ∧ (t.result = true → i = .test ∨ i = .testbit) := by
  obtain ⟨hstatus, -⟩ := everyEndingLeavesALegalStatus i s t h
  unfold State.code State.result
  rcases hstatus with hstatus | ⟨hstatus, hi⟩
  · generalize t.status = w at hstatus ⊢
    fin_cases hstatus <;> exact ⟨by decide, by decide, fun hr => absurd hr (by decide)⟩
  · rw [hstatus]
    exact ⟨by decide, by decide, fun _ => hi⟩

theorem exec_inv {i : Instr} {s t : State} (h : exec i s = .next t) (hmem : Memory.wf s.mem = true)
    (hcmd : decode s.cmd = .ok i) (hk : s.k.toNat ≤ 12728253410859590615)
    (hn : s.nbytes = 0#64 ∨ (21 ≤ s.nbytes.toNat ∧ s.nbytes.toNat ≤ 20 + (2 ^ 61 - 1))) : t.Inv := by
  obtain ⟨hcmd', -, -, -⟩ := (exec_ends h).frame
  obtain ⟨events, -, hreplay, hspace⟩ := (exec_ends h).accesses
  obtain ⟨hk', hn'⟩ := (exec_ends h).ranges
  obtain ⟨hlegal, hcode, hresult⟩ := exec_status h
  have hdecode : decode t.cmd = .ok i := hcmd' ▸ hcmd
  exact {
    memory := apply_of_replay hreplay ▸ apply_wf hmem hspace
    status := hlegal
    illegal := ⟨fun hc => absurd hc hcode, fun hc => absurd hdecode (hc i)⟩
    result := fun hr => (hresult hr).elim (fun hi => .inr (hi ▸ hdecode)) fun hi => .inl (hi ▸ hdecode)
    probes := hk'.elim (fun he => he ▸ hk) id
    size := hn'.elim (fun he => he ▸ hn) .inr }

theorem issue_inv {s t : State} {w : Half} (hs : s.Inv) (h : issue s w = .next t) : t.Inv := by
  cases hw : decode w with
  | ok i =>
    rw [issue_ok hw] at h
    exact exec_inv h hs.memory hw hs.probes hs.size
  | error e =>
    rw [issue_illegal hw] at h
    cases h
    exact {
      memory := hs.memory
      status := by rw [raise_status]; decide
      illegal := ⟨fun _ i hi => (nomatch hw.symm.trans hi), fun _ => code_raise _ _⟩
      result := fun hr => by rw [result_raise] at hr; cases hr
      probes := hs.probes
      size := hs.size }

/-- The writes of an issued command lie in the address space (spec R60, R62). -/
theorem issue_writesInSpace {s t : State} {w : Half} (h : issue s w = .next t) : WritesInSpace t.trace := by
  cases hw : decode w with
  | ok i =>
    rw [issue_ok hw] at h
    obtain ⟨events, htrace, -, hspace⟩ := (exec_ends h).accesses
    rw [htrace, startCommand_trace, List.nil_append]
    exact hspace
  | error e =>
    rw [issue_illegal hw] at h
    cases h
    exact fun a v hv => nomatch hv

theorem mem_of_mem_performed {s : State} {events : List PortEvent} {cut : Nat} {e : PortEvent}
    (h : e ∈ s.performed events cut) : e ∈ events :=
  List.takeWhile_subset _ (List.mem_of_mem_take h)

/-- A reset in the middle of a command leaves a memory that some of the command's writes lead to (spec R282). -/
theorem resetDuring_inv {s t : State} {w : Half} {cut : Nat} (hs : s.Inv) (h : resetDuring s w cut = .next t) : t.Inv := by
  unfold resetDuring at h
  split at h
  · rename_i u hu
    cases h
    exact resetEngine_inv (apply_wf hs.memory ((issue_writesInSpace hu).subset fun _ => mem_of_mem_performed))
  · cases h
  · cases h

/-! ## The host's other actions -/

theorem set_hostWritable (s : State) {r : RegName} (v : Word) (hw : r.hostWritable = true) (hr : r ≠ .cmd) :
    (s.set r v).cmd = s.cmd ∧ (s.set r v).status = s.status ∧ (s.set r v).k = s.k ∧ (s.set r v).nbytes = s.nbytes := by
  cases r <;> simp [RegName.hostWritable, State.set] at hw hr ⊢

theorem writeSlot_inv {s : State} {slot : Nat} (hs : s.Inv) (h0 : slot ≠ 0) (v : Word) : (writeSlot s slot v).Inv := by
  obtain h | ⟨r, hw, hr, h⟩ := writeSlot_cases s h0 v
  · rw [h]
    exact hs
  · obtain ⟨hcmd, hstatus, hk, hn⟩ := set_hostWritable s v hw hr
    rw [h]
    exact hs.of_fields ((set_mem s r v).symm ▸ hs.memory) hcmd hstatus hk hn

theorem hostAct_inv {s t : State} {a : HostAction} (hs : s.Inv) (h : hostAct s a = .next t) : t.Inv := by
  cases a with
  | writeSlot slot v =>
    rw [hostAct] at h
    split at h
    · exact issue_inv hs h
    · rename_i h0
      cases h
      exact writeSlot_inv hs h0 v
  | readSlot slot => cases h; exact hs.of_fields hs.memory rfl rfl rfl rfl
  | writeByte b v => cases h; exact hs.of_fields (write_wf _ hs.memory _ _ b.isLt) rfl rfl rfl rfl
  | readByte b => cases h; exact hs.of_fields hs.memory rfl rfl rfl rfl
  | reset => cases h; exact resetEngine_inv hs.memory
  | resetDuring v cut => exact resetDuring_inv hs h

/-- Settles O59: by the action taken; a command keeps the invariant by its endings. -/
theorem everyStepKeepsTheInvariant : Obligations.EveryStepKeepsTheInvariant := by
  intro s t hs h
  cases hq : s.hostQueue with
  | nil => rw [step_idle hq] at h; cases h; exact hs
  | cons a rest =>
    rw [step_action hq] at h
    exact hostAct_inv (s := { s with hostQueue := rest }) (hs.of_fields hs.memory rfl rfl rfl rfl) h

end Sys2Proof.Machine
end

section
/-! Setting a register and running a command (spec R21, R36): the operations of the port commute with setting any register,
and a command with setting one it does not read. -/

namespace Sys2Proof.Machine

/-! ## The operands after another register is set -/

theorem set_seed (s : State) {r : RegName} (v : Word) (h : r ≠ .seed) : (s.set r v).seed = s.seed :=
  get_set_other s r .seed v h.symm

theorem set_capacity (s : State) {r : RegName} (v : Word) (h : r ≠ .capacity) : (s.set r v).capacity = s.capacity :=
  get_set_other s r .capacity v h.symm

theorem set_m (s : State) {r : RegName} (v : Word) (h : r ≠ .m) : (s.set r v).m = s.m := get_set_other s r .m v h.symm

theorem set_bitlen (s : State) {r : RegName} (v : Word) (h : r ≠ .bitlen) : (s.set r v).bitlen = s.bitlen :=
  get_set_other s r .bitlen v h.symm

theorem set_pos (s : State) {r : RegName} (v : Word) (h : r ≠ .pos) : (s.set r v).pos = s.pos :=
  get_set_other s r .pos v h.symm

theorem set_errorRate (s : State) {r : RegName} (v : Word) (h : r ≠ .errorRate) : (s.set r v).errorRate = s.errorRate := by
  cases r <;> simp [State.set] at h ⊢

theorem set_idx (s : State) {r : RegName} (v : Word) (h : r ≠ .idx) : (s.set r v).idx = s.idx := by
  cases r <;> simp [State.set] at h ⊢

theorem set_buf0 (s : State) {r : RegName} (v : Word) (hb : r ≠ .buf0Base) (hl : r ≠ .buf0Len) :
    (s.set r v).buf0 = s.buf0 :=
  congrArg₂ (fun base len : Word => Descriptor.mk base.toNat len.toNat) (get_set_other s r .buf0Base v hb.symm)
    (get_set_other s r .buf0Len v hl.symm)

theorem set_buf1 (s : State) {r : RegName} (v : Word) (hb : r ≠ .buf1Base) (hl : r ≠ .buf1Len) :
    (s.set r v).buf1 = s.buf1 :=
  congrArg₂ (fun base len : Word => Descriptor.mk base.toNat len.toNat) (get_set_other s r .buf1Base v hb.symm)
    (get_set_other s r .buf1Len v hl.symm)

theorem set_elem (s : State) {r : RegName} (v : Word) (hb : r ≠ .elemBase) (hl : r ≠ .elemLen) :
    (s.set r v).elem = s.elem :=
  congrArg₂ (fun base len : Word => Descriptor.mk base.toNat len.toNat) (get_set_other s r .elemBase v hb.symm)
    (get_set_other s r .elemLen v hl.symm)

/-! ## The parts of commands read no register -/

/-- A sequence of parts that each carry a change of state through. -/
theorem map_bind_of_forall {α α' β β' : Type} {g : α → α'} {h : β → β'} {f : α → Except Fault β}
    {f' : α' → Except Fault β'} (x : Except Fault α) (hf : ∀ a, f' (g a) = (f a).map h) :
    (x.map g >>= f') = (x >>= f).map h := by
  cases x with
  | error e => rfl
  | ok a => exact hf a

/-- Sets a register in the state of a part's result. -/
def setSnd {β : Type} (r : RegName) (v : Word) (x : β × State) : β × State := (x.1, x.2.set r v)

theorem log_set (s : State) (e : PortEvent) (r : RegName) (v : Word) : (s.set r v).log e = (s.log e).set r v := by
  cases r <;> rfl

theorem store_set (s : State) (a : Nat) (b : Byte) (r : RegName) (v : Word) :
    (s.set r v).store a b = (s.store a b).set r v := by cases r <;> rfl

theorem portCheck_set (kind : AccessKind) (a : Nat) (s : State) (r : RegName) (v : Word) :
    portCheck kind a (s.set r v) = portCheck kind a s := by simp [portCheck, State.admits]

theorem portRead_set (a : Nat) (s : State) (r : RegName) (v : Word) :
    portRead a (s.set r v) = (portRead a s).map (setSnd r v) := by
  unfold portRead
  rw [portCheck_set, set_mem, log_set]
  cases portCheck .read a s <;> rfl

theorem portWrite_set (a : Nat) (b : Byte) (s : State) (r : RegName) (v : Word) :
    portWrite a b (s.set r v) = (portWrite a b s).map (State.set · r v) := by
  unfold portWrite
  rw [portCheck_set, store_set, log_set]
  cases portCheck .write a s <;> rfl

theorem readBytes_set (n a : Nat) (s : State) (r : RegName) (v : Word) :
    readBytes n a (s.set r v) = (readBytes n a s).map (setSnd r v) := by
  induction n generalizing a s with
  | zero => rfl
  | succ n ih =>
    simp only [readBytes]
    rw [portRead_set]
    refine map_bind_of_forall _ fun x => ?_
    simp only [setSnd]
    rw [ih]
    exact map_bind_of_forall _ fun y => rfl

theorem writeBytes_set (bs : List Byte) (a : Nat) (s : State) (r : RegName) (v : Word) :
    writeBytes bs a (s.set r v) = (writeBytes bs a s).map (State.set · r v) := by
  induction bs generalizing a s with
  | nil => rfl
  | cons b bs ih =>
    simp only [writeBytes]
    rw [portWrite_set]
    exact map_bind_of_forall _ fun u => ih (a + 1) u

theorem setBit_set (arr bitLength : Nat) (pos : Word) (s : State) (r : RegName) (v : Word) :
    setBit arr bitLength pos (s.set r v) = (setBit arr bitLength pos s).map (State.set · r v) := by
  unfold setBit
  rw [portRead_set]
  exact map_bind_of_forall _ fun x => portWrite_set _ _ x.2 r v

theorem testBit_set (arr bitLength : Nat) (pos : Word) (s : State) (r : RegName) (v : Word) :
    testBit arr bitLength pos (s.set r v) = (testBit arr bitLength pos s).map (setSnd r v) := by
  unfold testBit
  rw [portRead_set]
  exact map_bind_of_forall _ fun x => rfl

theorem validateFilter_set (P : Params) (d : Descriptor) (s : State) (r : RegName) (v : Word) :
    validateFilter P d (s.set r v) = (validateFilter P d s).map (setSnd r v) := by
  unfold validateFilter loadHeader
  split
  · rfl
  · rw [readBytes_set]
    cases readBytes headerBytes d.base s <;> rfl

theorem addProbes_set (P : Params) (e : List Byte) (seed : Word) (arr bitLength : Nat) (entries : List Int) (s : State)
    (r : RegName) (v : Word) : addProbes P e seed arr bitLength entries (s.set r v) =
      (addProbes P e seed arr bitLength entries s).map (State.set · r v) := by
  induction entries generalizing s with
  | nil => rfl
  | cons c cs ih =>
    simp only [addProbes, probeHash]
    rw [log_set, setBit_set]
    exact map_bind_of_forall _ ih

theorem testProbes_set (P : Params) (e : List Byte) (seed : Word) (arr bitLength : Nat) (entries : List Int) (s : State)
    (r : RegName) (v : Word) : testProbes P e seed arr bitLength entries (s.set r v) =
      (testProbes P e seed arr bitLength entries s).map (setSnd r v) := by
  induction entries generalizing s with
  | nil => rfl
  | cons c cs ih =>
    simp only [testProbes, probeHash]
    rw [log_set, testBit_set]
    refine map_bind_of_forall _ fun x => ?_
    obtain ⟨b, u⟩ := x
    cases b with
    | true => exact ih u
    | false => rfl

theorem mergeBytes_set (n src dst : Nat) (s : State) (r : RegName) (v : Word) :
    mergeBytes n src dst (s.set r v) = (mergeBytes n src dst s).map (State.set · r v) := by
  induction n generalizing src dst s with
  | zero => rfl
  | succ n ih =>
    simp only [mergeBytes]
    rw [portRead_set]
    refine map_bind_of_forall _ fun x => ?_
    simp only [setSnd]
    rw [portRead_set]
    refine map_bind_of_forall _ fun y => ?_
    simp only [setSnd]
    rw [portWrite_set]
    exact map_bind_of_forall _ fun u => ih (src + 1) (dst + 1) u

/-! ## The endings -/

/-- What becomes of a register that a command does not read, set before the command: overwritten by an ending that writes
it, carried through by every other one (spec R36). -/
def carried (i : Instr) (r : RegName) (v : Word) (t : State) : State :=
  if r ∈ writtenBy i ∧ (r = .status ∨ t.code = 0#4) then t else t.set r v

theorem number_ne_zero (c : ErrorCode) : c.number ≠ 0#4 := by cases c <;> decide

/-- Writes several registers, one after the other. -/
def State.setAll (s : State) : List (RegName × Word) → State
  | [] => s
  | (r, v) :: more => (s.set r v).setAll more

theorem set_set_same (s : State) (r : RegName) (v w : Word) : (s.set r v).set r w = s.set r w := by cases r <;> rfl

theorem set_set_comm (s : State) {r r' : RegName} (v w : Word) (h : r ≠ r') :
    (s.set r v).set r' w = (s.set r' w).set r v := by
  cases r <;> cases r' <;> simp [State.set] at h ⊢

theorem setAll_set_of_not_mem {s : State} {r : RegName} {v : Word} {results : List (RegName × Word)}
    (h : r ∉ results.map Prod.fst) : (s.set r v).setAll results = (s.setAll results).set r v := by
  induction results generalizing s with
  | nil => rfl
  | cons x more ih =>
    rw [List.map_cons, List.mem_cons, not_or] at h
    rw [State.setAll, State.setAll, set_set_comm s v x.2 h.1, ih h.2]

theorem setAll_set_of_mem {s : State} {r : RegName} {v : Word} {results : List (RegName × Word)}
    (h : r ∈ results.map Prod.fst) : (s.set r v).setAll results = s.setAll results := by
  induction results generalizing s with
  | nil => cases h
  | cons x more ih =>
    rw [State.setAll, State.setAll]
    by_cases hx : r = x.1
    · rw [hx, set_set_same]
    · rw [set_set_comm s v x.2 hx, ih ((List.mem_cons.mp h).resolve_left hx)]

theorem status_mem_writtenBy (i : Instr) : RegName.status ∈ writtenBy i := by cases i <;> decide

theorem set_with_status (s : State) {r : RegName} (v : Word) (w : Half) (h : r ≠ .status) :
    { s.set r v with status := w } = State.set { s with status := w } r v := by
  cases r <;> simp [State.set] at h ⊢

/-- An ending that writes only STATUS carries a register through, unless it is an ending OK of a command that writes it. -/
theorem status_ending_set {i : Instr} {r : RegName} (s : State) (v : Word) (w : Half)
    (h : r ∈ writtenBy i → r ≠ .status → State.code { s with status := w } ≠ 0#4) :
    { s.set r v with status := w } = carried i r v { s with status := w } := by
  unfold carried
  by_cases hr : r = .status
  · rw [if_pos ⟨hr ▸ status_mem_writtenBy i, .inl hr⟩, hr]
    rfl
  · rw [if_neg fun hc => h hc.1 hr (hc.2.resolve_left hr), set_with_status s v w hr]

theorem raise_set (i : Instr) (c : ErrorCode) (s : State) (r : RegName) (v : Word) :
    raise c (s.set r v) = carried i r v (raise c s) :=
  status_ending_set s v _ fun _ _ => (code_raise c s).symm ▸ number_ne_zero c

/-- An ending OK that writes all the result registers of its command overwrites them and carries every other one through. -/
theorem done_setAll_set {i : Instr} {results : List (RegName × Word)} (h : writtenBy i = .status :: results.map Prod.fst)
    (b : Bool) (s : State) (r : RegName) (v : Word) :
    done b ((s.set r v).setAll results) = carried i r v (done b (s.setAll results)) := by
  by_cases hr : r ∈ results.map Prod.fst
  · rw [setAll_set_of_mem hr, carried, if_pos ⟨h ▸ List.mem_cons_of_mem _ hr, .inr (code_done b _)⟩]
  · rw [setAll_set_of_not_mem hr]
    exact status_ending_set _ v _ fun hw hne => absurd (h ▸ hw) (by simp [hne, hr])

theorem done_set {i : Instr} (h : writtenBy i = [.status]) (b : Bool) (s : State) (r : RegName) (v : Word) :
    done b (s.set r v) = carried i r v (done b s) := done_setAll_set (results := []) h b s r v

theorem raise_set_run (i : Instr) (c : ErrorCode) (s : State) (r : RegName) (v : Word) :
    (pure (raise c (s.set r v)) : Run) = Except.map (carried i r v) (pure (raise c s)) :=
  congrArg Except.ok (raise_set i c s r v)

/-- The ending OK of a command that writes STATUS only, after the command's last part. -/
theorem done_set_run {i : Instr} (h : writtenBy i = [.status]) (x : Run) (b : Bool) (r : RegName) (v : Word) :
    (x.map (State.set · r v) >>= fun u => pure (done b u)) =
      Except.map (carried i r v) (x >>= fun u => pure (done b u)) :=
  map_bind_of_forall x fun u => congrArg Except.ok (done_set h b u r v)

/-! ## The commands -/

theorem optbitsCommand_set (P : Params) (s : State) {r : RegName} (v : Word) (hr : r ∉ readBy .optbits) :
    optbitsCommand P (s.set r v) = carried .optbits r v (optbitsCommand P s) := by
  simp only [readBy, List.mem_cons, List.not_mem_nil, or_false, not_or] at hr
  obtain ⟨hcapacity, hrate⟩ := hr
  have hbits : deriveBits P.constants (s.set r v).capacity.toNat (s.set r v).errorRate =
      deriveBits P.constants s.capacity.toNat s.errorRate := by rw [set_capacity s v hcapacity, set_errorRate s v hrate]
  unfold optbitsCommand
  rw [hbits]
  cases deriveBits P.constants s.capacity.toNat s.errorRate with
  | none => exact raise_set _ _ s r v
  | some m => exact done_setAll_set (results := [(.m, BitVec.ofNat 64 m)]) rfl false s r v

theorem optprobesCommand_set (P : Params) (s : State) {r : RegName} (v : Word) (hr : r ∉ readBy .optprobes) :
    optprobesCommand P (s.set r v) = carried .optprobes r v (optprobesCommand P s) := by
  simp only [readBy, List.mem_cons, List.not_mem_nil, or_false, not_or] at hr
  obtain ⟨hcapacity, hm⟩ := hr
  have hcheck : ((s.set r v).capacity.toNat = 0 ∨ (s.set r v).m.toNat = 0) ↔ (s.capacity.toNat = 0 ∨ s.m.toNat = 0) := by
    rw [set_capacity s v hcapacity, set_m s v hm]
  have hprobes : optimalProbes P.constants (s.set r v).m.toNat (s.set r v).capacity.toNat =
      optimalProbes P.constants s.m.toNat s.capacity.toNat := by rw [set_capacity s v hcapacity, set_m s v hm]
  unfold optprobesCommand
  simp only [hcheck, hprobes]
  split
  · exact raise_set _ _ s r v
  · exact done_setAll_set (results := [(.k, BitVec.ofNat 64 (optimalProbes P.constants s.m.toNat s.capacity.toNat))])
      rfl false s r v

theorem deriveCommand_set (P : Params) (s : State) {r : RegName} (v : Word) (hr : r ∉ readBy .derive) :
    deriveCommand P (s.set r v) = carried .derive r v (deriveCommand P s) := by
  simp only [readBy, List.mem_cons, List.not_mem_nil, or_false, not_or] at hr
  obtain ⟨hcapacity, hrate⟩ := hr
  have hderive : derive P.constants (s.set r v).capacity.toNat (s.set r v).errorRate =
      derive P.constants s.capacity.toNat s.errorRate := by rw [set_capacity s v hcapacity, set_errorRate s v hrate]
  unfold deriveCommand
  rw [hderive]
  rcases derive P.constants s.capacity.toNat s.errorRate with _ | ⟨m, k⟩
  · exact raise_set _ _ s r v
  · dsimp only
    split
    · exact raise_set _ _ s r v
    · exact done_setAll_set (results := [(.m, BitVec.ofNat 64 m), (.k, BitVec.ofNat 64 k),
        (.nbytes, BitVec.ofNat 64 (headerBytes + arrayBytes m))]) rfl false s r v

theorem probeCommand_set (P : Params) (s : State) {r : RegName} (v : Word) (hr : r ∉ readBy .probe) :
    probeCommand P (s.set r v) = (probeCommand P s).map (carried .probe r v) := by
  simp only [readBy, List.mem_cons, List.not_mem_nil, or_false, not_or] at hr
  obtain ⟨hbase, hlen, hseed, hidx⟩ := hr
  unfold probeCommand readElement
  rw [set_elem s v hbase hlen, set_idx s v hidx, readBytes_set]
  split
  · exact raise_set_run _ _ s r v
  · split
    · exact raise_set_run _ _ s r v
    · refine map_bind_of_forall _ fun x => congrArg Except.ok ?_
      obtain ⟨e, s1⟩ := x
      have hword : seedWord (seedEntry P (s1.set r v).idx.toNat) (s1.set r v).seed =
          seedWord (seedEntry P s1.idx.toNat) s1.seed := by rw [set_idx s1 v hidx, set_seed s1 v hseed]
      dsimp only [setSnd, probeHash]
      rw [hword, log_set]
      generalize seedWord (seedEntry P s1.idx.toNat) s1.seed = w
      exact done_setAll_set (results := [(.hashLo, lowHalf (P.h128 e w)), (.hashHi, highHalf (P.h128 e w))]) rfl false
        (s1.log (.hash w)) r v

theorem bareArrayError_set (s : State) {r : RegName} (v : Word) (hbase : r ≠ .buf0Base) (hlen : r ≠ .buf0Len)
    (hbitlen : r ≠ .bitlen) : bareArrayError (s.set r v) = bareArrayError s := by
  unfold bareArrayError
  rw [set_buf0 s v hbase hlen, set_bitlen s v hbitlen]

theorem setbitCommand_set (s : State) {r : RegName} (v : Word) (hr : r ∉ readBy .setbit) :
    setbitCommand (s.set r v) = (setbitCommand s).map (carried .setbit r v) := by
  simp only [readBy, List.mem_cons, List.not_mem_nil, or_false, not_or] at hr
  obtain ⟨hbase, hlen, hbitlen, hpos⟩ := hr
  unfold setbitCommand
  rw [bareArrayError_set s v hbase hlen hbitlen, set_buf0 s v hbase hlen, set_bitlen s v hbitlen,
    set_pos s v hpos, setBit_set]
  cases bareArrayError s with
  | some c => exact raise_set_run _ c s r v
  | none => exact done_set_run rfl _ false r v

theorem testbitCommand_set (s : State) {r : RegName} (v : Word) (hr : r ∉ readBy .testbit) :
    testbitCommand (s.set r v) = (testbitCommand s).map (carried .testbit r v) := by
  simp only [readBy, List.mem_cons, List.not_mem_nil, or_false, not_or] at hr
  obtain ⟨hbase, hlen, hbitlen, hpos⟩ := hr
  unfold testbitCommand
  rw [bareArrayError_set s v hbase hlen hbitlen, set_buf0 s v hbase hlen, set_bitlen s v hbitlen,
    set_pos s v hpos, testBit_set]
  cases bareArrayError s with
  | some c => exact raise_set_run _ c s r v
  | none => exact map_bind_of_forall _ fun x => congrArg Except.ok (done_set rfl x.1 x.2 r v)

theorem initCommand_set (P : Params) (s : State) {r : RegName} (v : Word) (hr : r ∉ readBy .init) :
    initCommand P (s.set r v) = (initCommand P s).map (carried .init r v) := by
  simp only [readBy, List.mem_cons, List.not_mem_nil, or_false, not_or] at hr
  obtain ⟨hbase, hlen, hseed, hcapacity, hrate⟩ := hr
  unfold initCommand initCheck State.newHeader
  rw [set_buf0 s v hbase hlen, set_seed s v hseed, set_capacity s v hcapacity, set_errorRate s v hrate, writeBytes_set]
  split
  · exact raise_set_run _ _ s r v
  · refine map_bind_of_forall _ fun u => ?_
    rw [writeBytes_set]
    exact done_set_run rfl _ false r v

theorem addCommand_set (P : Params) (s : State) {r : RegName} (v : Word) (hr : r ∉ readBy .add) :
    addCommand P (s.set r v) = (addCommand P s).map (carried .add r v) := by
  simp only [readBy, List.mem_cons, List.not_mem_nil, or_false, not_or] at hr
  obtain ⟨hbase, hlen, helem, helemLen⟩ := hr
  unfold addCommand readElement
  rw [set_buf0 s v hbase hlen, set_elem s v helem helemLen, validateFilter_set]
  split
  · exact raise_set_run _ _ s r v
  · split
    · exact raise_set_run _ _ s r v
    · refine map_bind_of_forall _ fun x => ?_
      obtain ⟨c | f, s1⟩ := x
      · exact raise_set_run _ c s1 r v
      · simp only [setSnd]
        rw [set_elem s1 v helem helemLen, readBytes_set]
        refine map_bind_of_forall _ fun y => ?_
        simp only [setSnd]
        rw [addProbes_set]
        exact done_set_run rfl _ false r v

theorem testCommand_set (P : Params) (s : State) {r : RegName} (v : Word) (hr : r ∉ readBy .test) :
    testCommand P (s.set r v) = (testCommand P s).map (carried .test r v) := by
  simp only [readBy, List.mem_cons, List.not_mem_nil, or_false, not_or] at hr
  obtain ⟨hbase, hlen, helem, helemLen⟩ := hr
  unfold testCommand readElement
  rw [set_buf0 s v hbase hlen, set_elem s v helem helemLen, validateFilter_set]
  split
  · exact raise_set_run _ _ s r v
  · split
    · exact raise_set_run _ _ s r v
    · refine map_bind_of_forall _ fun x => ?_
      obtain ⟨c | f, s1⟩ := x
      · exact raise_set_run _ c s1 r v
      · simp only [setSnd]
        rw [set_elem s1 v helem helemLen, readBytes_set]
        refine map_bind_of_forall _ fun y => ?_
        simp only [setSnd]
        rw [testProbes_set]
        exact map_bind_of_forall _ fun z => congrArg Except.ok (done_set rfl z.1 z.2 r v)

theorem mergeCommand_set (P : Params) (s : State) {r : RegName} (v : Word) (hr : r ∉ readBy .merge) :
    mergeCommand P (s.set r v) = (mergeCommand P s).map (carried .merge r v) := by
  simp only [readBy, List.mem_cons, List.not_mem_nil, or_false, not_or] at hr
  obtain ⟨hbase, hlen, hbase1, hlen1⟩ := hr
  unfold mergeCommand
  rw [set_buf0 s v hbase hlen, set_buf1 s v hbase1 hlen1, validateFilter_set]
  split
  · exact raise_set_run _ _ s r v
  · split
    · exact raise_set_run _ _ s r v
    · refine map_bind_of_forall _ fun x => ?_
      obtain ⟨c | f0, s1⟩ := x
      · exact raise_set_run _ c s1 r v
      · simp only [setSnd]
        rw [validateFilter_set]
        refine map_bind_of_forall _ fun y => ?_
        obtain ⟨c | f1, s2⟩ := y
        · exact raise_set_run _ c s2 r v
        · simp only [setSnd]
          split
          · exact raise_set_run _ _ s2 r v
          · rw [mergeBytes_set]
            exact done_set_run rfl _ false r v

theorem finish_map (f : State → State) (x : Run) : finish (x.map f) = mapNext f (finish x) := by cases x <;> rfl

/-- A register a command does not read is carried through it. -/
theorem exec_set (i : Instr) (s : State) {r : RegName} (v : Word) (hr : r ∉ readBy i) :
    exec i (s.set r v) = mapNext (carried i r v) (exec i s) := by
  cases i with
  | nop => exact congrArg _ (done_set rfl false s r v)
  | optbits => exact congrArg _ (optbitsCommand_set _ s v hr)
  | optprobes => exact congrArg _ (optprobesCommand_set _ s v hr)
  | derive => exact congrArg _ (deriveCommand_set _ s v hr)
  | probe => exact (congrArg finish (probeCommand_set _ s v hr)).trans (finish_map _ _)
  | setbit => exact (congrArg finish (setbitCommand_set s v hr)).trans (finish_map _ _)
  | testbit => exact (congrArg finish (testbitCommand_set s v hr)).trans (finish_map _ _)
  | init => exact (congrArg finish (initCommand_set _ s v hr)).trans (finish_map _ _)
  | add => exact (congrArg finish (addCommand_set _ s v hr)).trans (finish_map _ _)
  | test => exact (congrArg finish (testCommand_set _ s v hr)).trans (finish_map _ _)
  | merge => exact (congrArg finish (mergeCommand_set _ s v hr)).trans (finish_map _ _)

/-- Settles O18: a command carries through what it does not read. -/
theorem unreadRegistersHaveNoInfluence : Obligations.UnreadRegistersHaveNoInfluence :=
  fun i s _ v hr => exec_set i s v hr

end Sys2Proof.Machine
end

section
/-! What the traces of the operations are made of, and writes that only set bits (spec R70, R172, R205, R218). -/

namespace Sys2Proof.Machine

theorem inRange_iff {base n a : Nat} : inRange base n a = true ↔ base ≤ a ∧ a < base + n := by simp [inRange]

/-! ## The entries of the traces -/

theorem mem_readEvents {s : State} {n a : Nat} {e : PortEvent} (h : e ∈ s.readEvents n a) :
    ∃ b, inRange a n b = true ∧ e = .read b (s.byteAt b) := by
  induction n generalizing a with
  | zero => cases h
  | succ n ih =>
    rcases List.mem_cons.mp h with rfl | h
    · exact ⟨a, inRange_iff.mpr (by omega), rfl⟩
    · obtain ⟨b, hb, rfl⟩ := ih h
      refine ⟨b, ?_, rfl⟩
      rw [inRange_iff] at hb ⊢
      omega

theorem mem_writeEvents {bs : List Byte} {a : Nat} {e : PortEvent} (h : e ∈ writeEvents bs a) :
    ∃ b v, inRange a bs.length b = true ∧ e = .write b v := by
  induction bs generalizing a with
  | nil => cases h
  | cons b bs ih =>
    rcases List.mem_cons.mp h with rfl | h
    · exact ⟨a, b, inRange_iff.mpr (by simp), rfl⟩
    · obtain ⟨c, v, hc, rfl⟩ := ih h
      refine ⟨c, v, ?_, rfl⟩
      rw [inRange_iff] at hc ⊢
      rw [List.length_cons]
      omega

theorem mem_validateEvents {s : State} {d : Descriptor} {e : PortEvent} (h : e ∈ validateEvents s d) :
    ∃ b, inRange d.base d.len b = true ∧ e = .read b (s.byteAt b) := by
  unfold validateEvents at h
  split at h
  · cases h
  · obtain ⟨b, hb, rfl⟩ := mem_readEvents h
    refine ⟨b, ?_, rfl⟩
    rw [inRange_iff] at hb ⊢
    omega

theorem mem_addEvents {P : Params} {e : List Byte} {seed : Word} {arr bitLength : Nat} {entries : List Int} {s : State}
    {event : PortEvent} (h : event ∈ addEvents P e seed arr bitLength entries s) :
    (∃ w, event = .hash w) ∨ ∃ q ∈ entries.map (probeBit P e seed bitLength), ∃ v,
      event = .read (bitAddress arr q) v ∨ event = .write (bitAddress arr q) v := by
  induction entries generalizing s with
  | nil => cases h
  | cons c cs ih =>
    simp only [addEvents, setBitEvents, List.cons_append, List.nil_append, List.mem_cons] at h
    obtain h | h | h | h := h
    · exact .inl ⟨_, h⟩
    · exact .inr ⟨_, List.mem_cons_self, _, .inl h⟩
    · exact .inr ⟨_, List.mem_cons_self, _, .inr h⟩
    · exact (ih h).imp_right fun ⟨q, hq, hevent⟩ => ⟨q, List.mem_cons_of_mem _ hq, hevent⟩

theorem mem_testEvents {P : Params} {e : List Byte} {seed : Word} {arr bitLength : Nat} {entries : List Int} {s : State}
    {event : PortEvent} (h : event ∈ testEvents P e seed arr bitLength s entries) :
    (∃ w, event = .hash w) ∨ ∃ q ∈ entries.map (probeBit P e seed bitLength), ∃ v,
      event = .read (bitAddress arr q) v := by
  induction entries with
  | nil => cases h
  | cons c cs ih =>
    simp only [testEvents, List.mem_cons] at h
    obtain h | h | h := h
    · exact .inl ⟨_, h⟩
    · exact .inr ⟨_, List.mem_cons_self, _, h⟩
    · split at h
      · exact (ih h).imp_right fun ⟨q, hq, hevent⟩ => ⟨q, List.mem_cons_of_mem _ hq, hevent⟩
      · cases h

theorem mem_mergeEvents {s : State} {n src dst : Nat} {e : PortEvent} (h : e ∈ mergeEvents s n src dst) :
    ∃ i < n, ∃ v, e = .read (src + i) v ∨ e = .read (dst + i) v ∨ e = .write (dst + i) v := by
  induction n generalizing s src dst with
  | zero => cases h
  | succ n ih =>
    simp only [mergeEvents, List.mem_cons] at h
    obtain h | h | h | h := h
    · exact ⟨0, by omega, _, .inl h⟩
    · exact ⟨0, by omega, _, .inr (.inl h)⟩
    · exact ⟨0, by omega, _, .inr (.inr h)⟩
    · obtain ⟨i, hi, hevent⟩ := ih h
      simp only [Nat.add_assoc, Nat.add_comm 1 i] at hevent
      exact ⟨i + 1, by omega, hevent⟩

/-! ## Writes that only add bits -/

/-- Every write of the trace, performed on this memory, keeps the bits that are 1 in its byte (spec R70). -/
def SetsBits : Memory → List PortEvent → Prop
  | _, [] => True
  | mem, .read _ _ :: more => SetsBits mem more
  | mem, .write a v :: more =>
    (∀ j, (Memory.read mem a).getLsbD j = true → v.getLsbD j = true) ∧ SetsBits (Memory.write mem a v) more
  | mem, .hash _ :: more => SetsBits mem more

theorem setsBits_append {mem : Memory} {x y : List PortEvent} :
    SetsBits mem (x ++ y) ↔ SetsBits mem x ∧ SetsBits (Memory.apply mem x) y := by
  induction x generalizing mem with
  | nil => simp [SetsBits, Memory.apply]
  | cons e x ih => cases e <;> simp [SetsBits, Memory.apply, ih, and_assoc]

theorem or_keeps_bits (b c : Byte) (j : Nat) (h : b.getLsbD j = true) : (b ||| c).getLsbD j = true := by simp [h]

theorem setsBits_of_no_write {mem : Memory} {events : List PortEvent} (h : ∀ a v, PortEvent.write a v ∉ events) :
    SetsBits mem events := by
  induction events generalizing mem with
  | nil => trivial
  | cons e events ih =>
    have hrest : ∀ a v, PortEvent.write a v ∉ events := fun a v hw => h a v (List.mem_cons_of_mem _ hw)
    cases e with
    | read a v => exact ih hrest
    | write a v => exact absurd List.mem_cons_self (h a v)
    | hash w => exact ih hrest

theorem setsBits_setBitEvents (s : State) (arr q : Nat) : SetsBits s.mem (setBitEvents s arr q) :=
  ⟨or_keeps_bits _ _, trivial⟩

theorem setsBits_addEvents (P : Params) (e : List Byte) (seed : Word) (arr bitLength : Nat) (entries : List Int)
    (s : State) : SetsBits s.mem (addEvents P e seed arr bitLength entries s) := by
  induction entries generalizing s with
  | nil => trivial
  | cons c cs ih => exact ⟨or_keeps_bits _ _, ih (storeBit s arr (probeBit P e seed bitLength c))⟩

theorem setsBits_mergeEvents (s : State) (n src dst : Nat) : SetsBits s.mem (mergeEvents s n src dst) := by
  induction n generalizing s src dst with
  | zero => trivial
  | succ n ih => exact ⟨or_keeps_bits _ _, ih (s.store dst (s.byteAt dst ||| s.byteAt src)) _ _⟩

/-- Bits that are 1 stay 1 through such a trace (spec R70). -/
theorem SetsBits.read_apply {mem : Memory} {events : List PortEvent} (h : SetsBits mem events)
    (hwf : Memory.wf mem = true) (hspace : WritesInSpace events) {a j : Nat}
    (hj : (Memory.read mem a).getLsbD j = true) : (Memory.read (Memory.apply mem events) a).getLsbD j = true := by
  induction events generalizing mem with
  | nil => exact hj
  | cons e events ih =>
    have hrest : WritesInSpace events := hspace.subset fun _ he => List.mem_cons_of_mem _ he
    cases e with
    | read b v => exact ih h hwf hrest hj
    | hash w => exact ih h hwf hrest hj
    | write b v =>
      obtain ⟨hv, h⟩ := h
      refine ih h (write_wf mem hwf b v (hspace b v List.mem_cons_self)) hrest ?_
      rw [read_write mem 0 hwf]
      split
      · rename_i hb
        exact hv j (hb ▸ hj)
      · exact hj

end Sys2Proof.Machine
end

section
/-! The footprint of a command (spec R66, R70, R76): which accesses it makes, and that ADD, SETBIT and MERGE only set bits.
One walk through the endings of the commands serves both. -/

namespace Sys2Proof.Machine

/-- The addresses a command may read (spec R76). -/
def ReadsFrom (i : Instr) (s : State) (a : Nat) : Prop :=
  match i with
  | .probe => inRange s.elem.base s.elem.len a = true
  | .setbit | .testbit => inRange s.buf0.base s.buf0.len a = true
  | .add | .test => inRange s.elem.base s.elem.len a = true ∨ inRange s.buf0.base s.buf0.len a = true
  | .merge => inRange s.buf0.base s.buf0.len a = true ∨ inRange s.buf1.base s.buf1.len a = true
  | _ => False

/-- The addresses a command may write (spec R66, R76, R220). -/
def StoresTo (i : Instr) (s : State) (a : Nat) : Prop :=
  match i with
  | .setbit => bareArrayError s = none ∧ a = bitAddress s.buf0.base (fold s.pos s.bitlen.toNat)
  | .init => inRange s.buf0.base s.buf0.len a = true
  | .add => ∃ f, s.filterAt s.buf0 = .ok f ∧
      ∃ q ∈ probeBits s.elementBytes f, a = bitAddress (s.buf0.base + headerBytes) q
  | .merge => inRange (s.buf0.base + headerBytes) (s.buf0.len - headerBytes) a = true
  | _ => False

/-- The accesses and hash evaluations a command may make (spec R76, R300). -/
def InFootprint (i : Instr) (s : State) : PortEvent → Prop
  | .read a _ => ReadsFrom i s a
  | .write a _ => StoresTo i s a
  | .hash _ => i ∈ [Instr.probe, .add, .test]

/-- These events are of the command's footprint and, where it is ADD, SETBIT or MERGE, only set bits (spec R70, R76). -/
structure AccessesOf (i : Instr) (s : State) (events : List PortEvent) : Prop where
  footprint : ∀ e ∈ events, InFootprint i s e
  setsBits : i ∈ [Instr.add, .setbit, .merge] → SetsBits s.mem events

theorem AccessesOf.nil (i : Instr) (s : State) : AccessesOf i s [] := ⟨nofun, fun _ => trivial⟩

theorem accesses_of_trace_eq {i : Instr} {s t : State} (h : t.trace = s.trace) :
    ∃ events, t.trace = s.trace ++ events ∧ AccessesOf i s events := ⟨[], by rw [h, List.append_nil], .nil i s⟩

/-- Accesses that leave the state as it was come before others. -/
theorem AccessesOf.append {i : Instr} {s : State} {x y : List PortEvent} (h : AccessesOf i s x) (hp : s.Performs x s)
    (h' : AccessesOf i s y) : AccessesOf i s (x ++ y) where
  footprint e he := (List.mem_append.mp he).elim (h.footprint e) (h'.footprint e)
  setsBits hi := setsBits_append.mpr ⟨h.setsBits hi, (apply_of_replay hp.replays).symm ▸ h'.setsBits hi⟩

/-- Reads and hash evaluations. -/
theorem AccessesOf.of_no_write {i : Instr} {s : State} {events : List PortEvent}
    (hw : ∀ a v, PortEvent.write a v ∉ events) (h : ∀ e ∈ events, InFootprint i s e) : AccessesOf i s events :=
  ⟨h, fun _ => setsBits_of_no_write hw⟩

theorem AccessesOf.readEvents {i : Instr} {s : State} {n a : Nat} (h : ∀ b, inRange a n b = true → ReadsFrom i s b) :
    AccessesOf i s (s.readEvents n a) := by
  refine .of_no_write (fun b v hw => ?_) fun e he => ?_
  · obtain ⟨_, -, heq⟩ := mem_readEvents hw
    cases heq
  · obtain ⟨b, hb, rfl⟩ := mem_readEvents he
    exact h b hb

theorem AccessesOf.validateEvents {i : Instr} {s : State} {d : Descriptor}
    (h : ∀ b, inRange d.base d.len b = true → ReadsFrom i s b) : AccessesOf i s (validateEvents s d) := by
  refine .of_no_write (fun b v hw => ?_) fun e he => ?_
  · obtain ⟨_, -, heq⟩ := mem_validateEvents hw
    cases heq
  · obtain ⟨b, hb, rfl⟩ := mem_validateEvents he
    exact h b hb

/-- A bit of a bare array lies in one of its bytes (spec R173). -/
theorem bareArray_inRange {s : State} (h : bareArrayError s = none) :
    inRange s.buf0.base s.buf0.len (bitAddress s.buf0.base (fold s.pos s.bitlen.toNat)) = true := by
  obtain ⟨-, hpos, hlen⟩ := bareArrayError_none h
  have hlt := bitAddress_lt (arr := s.buf0.base) (lt_of_lt_of_le (fold_lt s.pos hpos) hlen)
  exact inRange_iff.mpr ⟨Nat.le_add_right _ _, hlt⟩

/-- A probed bit lies in the bit array, behind the header (spec R66, R204). -/
theorem probeBits_inRange {s : State} {d : Descriptor} {e : List Byte} {f : Filter} {q : Nat} (hf : s.filterAt d = .ok f)
    (hq : q ∈ probeBits e f) :
    inRange (d.base + headerBytes) (d.len - headerBytes) (bitAddress (d.base + headerBytes) q) = true := by
  obtain ⟨-, -, hlen, -⟩ := filterAt_ok hf
  have hpos := filterAt_arrayLen_pos hf
  obtain ⟨c, -, rfl⟩ := List.mem_map.mp hq
  have hlt := bitAddress_lt (arr := d.base + headerBytes)
    (fold_lt (probePos Config.engine e c f.header.seed) (bitLength := f.bitLength) (by unfold Filter.bitLength; omega))
  exact inRange_iff.mpr ⟨Nat.le_add_right _ _, hlen ▸ hlt⟩

/-- The bit array is a part of the filter (spec R66). -/
theorem inRange_of_array {base len a : Nat} (h : inRange (base + headerBytes) (len - headerBytes) a = true) :
    inRange base len a = true := by
  rw [inRange_iff] at h ⊢
  omega

/-- INIT's checks pass only where the buffer has the length of the filter (spec R200). -/
theorem initCheck_len {P : Params} {s : State} {n : Nat} (h : initCheck P s = .ok n) : s.buf0.len = headerBytes + n := by
  unfold initCheck at h
  split at h
  · cases h
  · split at h
    · cases h
    · split at h
      · cases h
      · split at h
        · cases h
        · rename_i hlen
          cases h
          exact not_not.mp hlen

/-- Compatible filters have bit arrays of one length (spec R217). -/
theorem compatible_arrayLen {f g : Filter} (h : f.compatible g = true) : f.arrayLen = g.arrayLen := by
  simp only [Filter.compatible, Bool.and_eq_true, beq_iff_eq] at h
  obtain ⟨⟨⟨hlen, -⟩, -⟩, -⟩ := h
  exact hlen

/-! ## The accesses of each command -/

theorem probeCommand_accesses {s t : State} (h : probeCommand Config.engine s = .ok t) :
    ∃ events, t.trace = s.trace ++ events ∧ AccessesOf .probe s events := by
  obtain ⟨-, rfl⟩ | ⟨-, -, rfl⟩ | ⟨-, -, rfl⟩ := probeCommand_next h
  · exact accesses_of_trace_eq rfl
  · exact accesses_of_trace_eq rfl
  · refine ⟨_, rfl, .append (.readEvents fun b hb => hb) (performs_readEvents s _ _) (.of_no_write ?_ ?_)⟩
    · simp
    · simp [InFootprint]

theorem setbitCommand_accesses {s t : State} (h : setbitCommand s = .ok t) :
    ∃ events, t.trace = s.trace ++ events ∧ AccessesOf .setbit s events := by
  obtain ⟨c, -, rfl⟩ | ⟨hc, rfl⟩ := setbitCommand_next h
  · exact accesses_of_trace_eq rfl
  · refine ⟨_, rfl, ?_, fun _ => setsBits_setBitEvents s _ _⟩
    simp only [setBitEvents, List.forall_mem_cons, List.not_mem_nil, false_implies, implies_true, and_true]
    exact ⟨bareArray_inRange hc, hc, rfl⟩

theorem testbitCommand_accesses {s t : State} (h : testbitCommand s = .ok t) :
    ∃ events, t.trace = s.trace ++ events ∧ AccessesOf .testbit s events := by
  obtain ⟨c, -, rfl⟩ | ⟨hc, rfl⟩ := testbitCommand_next h
  · exact accesses_of_trace_eq rfl
  · refine ⟨_, rfl, .of_no_write (by simp) ?_⟩
    rw [List.forall_mem_singleton]
    exact bareArray_inRange hc

theorem initCommand_accesses {s t : State} (h : initCommand Config.engine s = .ok t) :
    ∃ events, t.trace = s.trace ++ events ∧ AccessesOf .init s events := by
  obtain ⟨c, -, rfl⟩ | ⟨n, hn, rfl⟩ := initCommand_next h
  · exact accesses_of_trace_eq rfl
  · refine ⟨_, by rw [done_trace, traced_trace, traced_storeBytes_trace], fun e he => ?_,
      fun hi => absurd hi (by decide)⟩
    obtain ⟨b, v, hb, rfl⟩ := mem_writeEvents he
    rwa [List.length_append, header_bytes_length, List.length_replicate, ← initCheck_len hn] at hb

theorem addCommand_accesses {s t : State} (h : addCommand Config.engine s = .ok t) :
    ∃ events, t.trace = s.trace ++ events ∧ AccessesOf .add s events := by
  have hvalidate : AccessesOf .add s (validateEvents s s.buf0) := .validateEvents fun b hb => .inr hb
  obtain ⟨-, rfl⟩ | ⟨c, -, -, -, rfl⟩ | ⟨f, -, -, hf, rfl⟩ := addCommand_next h
  · exact accesses_of_trace_eq rfl
  · exact ⟨_, rfl, hvalidate⟩
  · refine ⟨_, by rw [done_trace, traced_trace, storeBits_trace], .append (hvalidate.append (performs_validateEvents s _)
      (.readEvents fun b hb => .inl hb)) ((performs_validateEvents s _).append (performs_readEvents s _ _))
      ⟨fun e he => ?_, fun _ => setsBits_addEvents _ _ _ _ _ _ s⟩⟩
    obtain ⟨w, rfl⟩ | ⟨q, hq, v, rfl | rfl⟩ := mem_addEvents he
    · simp [InFootprint]
    · exact .inr (inRange_of_array (probeBits_inRange hf hq))
    · exact ⟨f, hf, q, hq, rfl⟩

theorem testCommand_accesses {s t : State} (h : testCommand Config.engine s = .ok t) :
    ∃ events, t.trace = s.trace ++ events ∧ AccessesOf .test s events := by
  have hvalidate : AccessesOf .test s (validateEvents s s.buf0) := .validateEvents fun b hb => .inr hb
  obtain ⟨-, rfl⟩ | ⟨c, -, -, -, rfl⟩ | ⟨f, -, -, hf, rfl⟩ := testCommand_next h
  · exact accesses_of_trace_eq rfl
  · exact ⟨_, rfl, hvalidate⟩
  · refine ⟨_, rfl, .append (hvalidate.append (performs_validateEvents s _)
      (.readEvents fun b hb => .inl hb)) ((performs_validateEvents s _).append (performs_readEvents s _ _))
      ⟨fun e he => ?_, fun hi => absurd hi (by decide)⟩⟩
    obtain ⟨w, rfl⟩ | ⟨q, hq, v, rfl⟩ := mem_testEvents he
    · simp [InFootprint]
    · exact .inr (inRange_of_array (probeBits_inRange hf hq))

theorem mergeCommand_accesses {s t : State} (h : mergeCommand Config.engine s = .ok t) :
    ∃ events, t.trace = s.trace ++ events ∧ AccessesOf .merge s events := by
  have hfirst : AccessesOf .merge s (validateEvents s s.buf0) := .validateEvents fun b hb => .inl hb
  have hboth : AccessesOf .merge s (validateEvents s s.buf0 ++ validateEvents s s.buf1) :=
    hfirst.append (performs_validateEvents s _) (.validateEvents fun b hb => .inr hb)
  obtain ⟨-, rfl⟩ | ⟨-, -, -, ⟨c, -, rfl⟩ | ⟨f0, hf0, ⟨c, -, rfl⟩ | ⟨f1, hf1, ⟨-, rfl⟩ | ⟨hc, rfl⟩⟩⟩⟩ :=
    mergeCommand_next h
  · exact accesses_of_trace_eq rfl
  · exact ⟨_, rfl, hfirst⟩
  · exact ⟨_, rfl, hboth⟩
  · exact ⟨_, rfl, hboth⟩
  · refine ⟨_, by rw [done_trace, traced_trace, storeMerge_trace],
      hboth.append ((performs_validateEvents s _).append (performs_validateEvents s _))
        ⟨fun e he => ?_, fun _ => setsBits_mergeEvents s _ _ _⟩⟩
    obtain ⟨-, -, hlen0, -⟩ := filterAt_ok hf0
    obtain ⟨-, -, hlen1, -⟩ := filterAt_ok hf1
    have hlen := compatible_arrayLen hc
    obtain ⟨i, hi, v, rfl | rfl | rfl⟩ := mem_mergeEvents he
    · exact .inr (inRange_of_array (by rw [inRange_iff]; omega))
    · exact .inl (inRange_of_array (by rw [inRange_iff]; omega))
    · exact inRange_iff.mpr (by omega)

/-- A command that answers adds to the trace accesses of its footprint (spec R76). -/
theorem exec_accesses {i : Instr} {s t : State} (h : exec i s = .next t) :
    ∃ events, t.trace = s.trace ++ events ∧ AccessesOf i s events := by
  cases i with
  | nop => cases h; exact accesses_of_trace_eq rfl
  | optbits =>
    obtain ⟨-, htrace, -⟩ := optbitsCommand_fields Config.engine s
    cases h
    exact accesses_of_trace_eq htrace
  | optprobes =>
    obtain ⟨-, htrace, -⟩ := optprobesCommand_fields Config.engine s
    cases h
    exact accesses_of_trace_eq htrace
  | derive =>
    obtain ⟨-, htrace, -⟩ := deriveCommand_fields Config.engine s
    cases h
    exact accesses_of_trace_eq htrace
  | probe => exact probeCommand_accesses (finish_eq_next h)
  | setbit => exact setbitCommand_accesses (finish_eq_next h)
  | testbit => exact testbitCommand_accesses (finish_eq_next h)
  | init => exact initCommand_accesses (finish_eq_next h)
  | add => exact addCommand_accesses (finish_eq_next h)
  | test => exact testCommand_accesses (finish_eq_next h)
  | merge => exact mergeCommand_accesses (finish_eq_next h)

/-- The events of a command: they are of its footprint and lead from the memory before to the memory after. -/
theorem exec_events {i : Instr} {s t : State} (h : exec i s = .next t) :
    ∃ events, t.trace = s.trace ++ events ∧ AccessesOf i s events ∧ replay s.mem events = some t.mem ∧
      WritesInSpace events := by
  obtain ⟨events, htrace, haccesses⟩ := exec_accesses h
  obtain ⟨events', htrace', hreplay, hspace⟩ := (exec_ends h).accesses
  obtain rfl := List.append_cancel_left (htrace.symm.trans htrace')
  exact ⟨events, htrace, haccesses, hreplay, hspace⟩

/-! ## What a command leaves unchanged -/

/-- A byte that a trace does not write stays as it was. -/
theorem read_apply_of_not_written {mem : Memory} {events : List PortEvent} {a : Nat} (hwf : Memory.wf mem = true)
    (hspace : WritesInSpace events) (h : ∀ v, PortEvent.write a v ∉ events) :
    Memory.read (Memory.apply mem events) a = Memory.read mem a := by
  induction events generalizing mem with
  | nil => rfl
  | cons e events ih =>
    have hrest : WritesInSpace events := hspace.subset fun _ he => List.mem_cons_of_mem _ he
    have hnot : ∀ v, PortEvent.write a v ∉ events := fun v hv => h v (List.mem_cons_of_mem _ hv)
    cases e with
    | read b v => exact ih hwf hrest hnot
    | hash w => exact ih hwf hrest hnot
    | write b v =>
      have hne : b ≠ a := by
        rintro rfl
        exact h v List.mem_cons_self
      calc Memory.read (Memory.apply (Memory.write mem b v) events) a
          = Memory.read (Memory.write mem b v) a :=
            ih (write_wf mem hwf b v (hspace b v List.mem_cons_self)) hrest hnot
        _ = Memory.read mem a := read_write_other mem hwf b a v hne

theorem apply_of_no_write {mem : Memory} {events : List PortEvent} (h : ∀ a v, PortEvent.write a v ∉ events) :
    Memory.apply mem events = mem := by
  induction events generalizing mem with
  | nil => rfl
  | cons e events ih =>
    have hrest : ∀ a v, PortEvent.write a v ∉ events := fun a v hw => h a v (List.mem_cons_of_mem _ hw)
    cases e with
    | read a v => exact ih hrest
    | write a v => exact absurd List.mem_cons_self (h a v)
    | hash w => exact ih hrest

/-- A command changes no byte outside those it may write (spec R66, R76). -/
theorem exec_byteAt_eq {i : Instr} {s t : State} (hwf : Memory.wf s.mem = true) (h : exec i s = .next t) {a : Nat}
    (ha : ¬StoresTo i s a) : t.byteAt a = s.byteAt a := by
  obtain ⟨events, -, haccesses, hreplay, hspace⟩ := exec_events h
  rw [State.byteAt, ← apply_of_replay hreplay]
  exact read_apply_of_not_written hwf hspace fun v hv => ha (haccesses.footprint _ hv)

/-- Settles O56: by the endings of the commands. -/
theorem accessesReplayToTheNewMemory : Obligations.AccessesReplayToTheNewMemory := by
  intro i s t h
  obtain ⟨events, htrace, -, hreplay, -⟩ := exec_events h
  exact ⟨events, htrace, hreplay⟩

/-- Settles O55: the footprint of each command lies in its row of R76's table. -/
theorem accessesStayInTheFootprint : Obligations.AccessesStayInTheFootprint := by
  intro i s t events h htrace e he
  obtain ⟨events', htrace', haccesses⟩ := exec_accesses h
  obtain rfl := List.append_cancel_left (htrace.symm.trans htrace')
  have hfoot := haccesses.footprint e he
  cases e with
  | read a v =>
    cases i with
    | probe => exact .inl ⟨by decide, hfoot⟩
    | setbit | testbit => exact .inr (.inl ⟨by decide, hfoot⟩)
    | add | test => exact hfoot.elim (fun h => .inl ⟨by decide, h⟩) fun h => .inr (.inl ⟨by decide, h⟩)
    | merge => exact hfoot.elim (fun h => .inr (.inl ⟨by decide, h⟩)) fun h => .inr (.inr ⟨rfl, h⟩)
    | nop | optbits | optprobes | derive | init => exact hfoot.elim
  | hash w => exact hfoot
  | write a v =>
    cases i with
    | setbit =>
      obtain ⟨hc, rfl⟩ := hfoot
      exact .inl ⟨by decide, bareArray_inRange hc⟩
    | init => exact .inl ⟨by decide, hfoot⟩
    | add =>
      obtain ⟨f, hf, q, hq, rfl⟩ := hfoot
      exact .inr ⟨by decide, probeBits_inRange hf hq⟩
    | merge => exact .inr ⟨by decide, hfoot⟩
    | nop | optbits | optprobes | derive | probe | testbit | test => exact hfoot.elim

/-- Settles O16: no write is of the footprint of these commands. -/
theorem nonStoringCommandsKeepMemory : Obligations.NonStoringCommandsKeepMemory := by
  intro i s t hi h
  obtain ⟨events, -, haccesses, hreplay, -⟩ := exec_events h
  have hnone : ∀ a v, PortEvent.write a v ∉ events := by
    intro a v hw
    have hstores : StoresTo i s a := haccesses.footprint _ hw
    cases i with
    | nop | optbits | optprobes | derive | probe | testbit | test => exact hstores
    | setbit | init | add | merge => exact absurd hi (by decide)
  have hmem : t.mem = s.mem := (apply_of_replay hreplay).symm.trans (apply_of_no_write hnone)
  exact ⟨hmem, fun a => congrArg (Memory.read · a) hmem⟩

/-- Settles O17: a byte outside the footprint's writes is as before. -/
theorem storingCommandsFrame : Obligations.StoringCommandsFrame := by
  intro s t hwf
  refine ⟨fun h a ha => exec_byteAt_eq hwf h ?_, fun h a ha => exec_byteAt_eq hwf h ?_,
    fun h f hf a ha => exec_byteAt_eq hwf h ?_, fun h a ha => exec_byteAt_eq hwf h ?_⟩
  · rintro ⟨-, hstore⟩
    exact ha hstore
  · exact fun hstore => ha (inRange_iff.mp hstore)
  · rintro ⟨g, hg, q, hq, hstore⟩
    obtain rfl : f = g := Except.ok.inj (hf.symm.trans hg)
    exact ha q hq hstore
  · intro hstore
    obtain ⟨hlow, -⟩ := inRange_iff.mp hstore
    obtain ⟨-, hhigh⟩ := inRange_iff.mp (inRange_of_array hstore)
    exact ha ⟨hlow, hhigh⟩

/-- Settles O57: every write of these commands keeps the bits of its byte, so every initial part of their accesses does. -/
theorem everyPrefixOnlySetsBits : Obligations.EveryPrefixOnlySetsBits := by
  intro i s t before after mem hi hwf h htrace hreplay a j hj
  obtain ⟨events, htrace', haccesses, -, hspace⟩ := exec_events h
  obtain rfl := List.append_cancel_left (htrace.symm.trans htrace')
  obtain ⟨hbefore, -⟩ := setsBits_append.mp (haccesses.setsBits hi)
  rw [← apply_of_replay hreplay]
  exact hbefore.read_apply hwf (hspace.subset fun _ he => List.mem_append_left _ he) hj

end Sys2Proof.Machine
end

section
/-! Stops (spec R62, R77, R205): a command stops only at an access the platform refuses, at an address of the address
space. -/

namespace Sys2Proof.Machine

/-- A run from `s` either answers or stops at an access the platform refuses, inside the address space. -/
def StopsAtRefusal {α : Type} (r : Except Fault α) (s : State) : Prop :=
  ∀ fault, r = .error fault → ∃ kind a, fault = .portRefused kind a ∧ a < addressSpace ∧ s.admits kind a = false

theorem StopsAtRefusal.ok {α : Type} (s : State) (x : α) : StopsAtRefusal (.ok x) s := nofun

theorem StopsAtRefusal.bind {α β : Type} {s : State} {r : Except Fault α} {g : α → Except Fault β}
    (h : StopsAtRefusal r s) (hg : ∀ x, r = .ok x → StopsAtRefusal (g x) s) : StopsAtRefusal (r >>= g) s := by
  cases r with
  | ok x => exact hg x rfl
  | error fault =>
    intro fault' hfault
    obtain rfl : fault = fault' := Except.error.inj hfault
    exact h fault rfl

/-! ## The port and the parts of the commands -/

theorem portCheck_refused {kind : AccessKind} {a : Nat} {s : State} (ha : a < addressSpace)
    (h : s.admits kind a = false) : portCheck kind a s = .error (.portRefused kind a) := by
  simp [portCheck, Nat.not_le.mpr ha, h]

theorem setBit_read_refused {arr bitLength : Nat} {pos : Word} {s : State}
    (ha : bitAddress arr (fold pos bitLength) < addressSpace)
    (h : s.admits .read (bitAddress arr (fold pos bitLength)) = false) :
    setBit arr bitLength pos s = .error (.portRefused .read (bitAddress arr (fold pos bitLength))) := by
  rw [setBit, portRead, portCheck_refused ha h]
  rfl

theorem setBit_write_refused {arr bitLength : Nat} {pos : Word} {s : State}
    (ha : bitAddress arr (fold pos bitLength) < addressSpace)
    (hr : s.admits .read (bitAddress arr (fold pos bitLength)) = true)
    (hw : s.admits .write (bitAddress arr (fold pos bitLength)) = false) :
    setBit arr bitLength pos s = .error (.portRefused .write (bitAddress arr (fold pos bitLength))) := by
  rw [setBit, portRead_admitted ha hr]
  simp only [except_bind_ok]
  rw [portWrite, portCheck_refused (s := s.log _) ha hw]
  rfl

theorem portCheck_stops {a : Nat} (kind : AccessKind) (s : State) (ha : a < addressSpace) :
    StopsAtRefusal (portCheck kind a s) s := by
  cases h : s.admits kind a with
  | true => rw [portCheck_eq_ok.mpr ⟨ha, h⟩]; exact .ok s ()
  | false =>
    rw [portCheck_refused ha h]
    intro fault hfault
    exact ⟨kind, a, (Except.error.inj hfault).symm, ha, h⟩

theorem portRead_stops {a : Nat} (s : State) (ha : a < addressSpace) : StopsAtRefusal (portRead a s) s :=
  (portCheck_stops .read s ha).bind fun _ _ => .ok s _

theorem portWrite_stops {a : Nat} (v : Byte) (s : State) (ha : a < addressSpace) : StopsAtRefusal (portWrite a v s) s :=
  (portCheck_stops .write s ha).bind fun _ _ => .ok s _

theorem readBytes_stops {n a : Nat} (s : State) (ha : a + n ≤ addressSpace) : StopsAtRefusal (readBytes n a s) s := by
  induction n generalizing a s with
  | zero => exact .ok s _
  | succ n ih =>
    refine (portRead_stops s (by omega)).bind fun ⟨b, s1⟩ h1 => ?_
    obtain ⟨-, rfl, -⟩ := portRead_next h1
    exact .bind (ih _ (by omega)) fun _ _ => .ok s _

theorem writeBytes_stops {bs : List Byte} {a : Nat} (s : State) (ha : a + bs.length ≤ addressSpace) :
    StopsAtRefusal (writeBytes bs a s) s := by
  induction bs generalizing a s with
  | nil => exact .ok s s
  | cons b bs ih =>
    rw [List.length_cons] at ha
    refine (portWrite_stops b s (by omega)).bind fun s1 h1 => ?_
    obtain ⟨rfl, -⟩ := portWrite_next h1
    exact ih _ (by omega)

theorem setBit_stops {arr bitLength : Nat} {pos : Word} (s : State)
    (ha : bitAddress arr (fold pos bitLength) < addressSpace) : StopsAtRefusal (setBit arr bitLength pos s) s := by
  refine (portRead_stops s ha).bind fun ⟨old, s1⟩ h1 => ?_
  obtain ⟨-, rfl, -⟩ := portRead_next h1
  exact portWrite_stops _ _ ha

theorem testBit_stops {arr bitLength : Nat} {pos : Word} (s : State)
    (ha : bitAddress arr (fold pos bitLength) < addressSpace) : StopsAtRefusal (testBit arr bitLength pos s) s :=
  (portRead_stops s ha).bind fun _ _ => .ok s _

theorem validateFilter_stops {d : Descriptor} (s : State) (hw : d.wellFormed = true) :
    StopsAtRefusal (validateFilter Config.engine d s) s := by
  have hspace := wellFormed_space hw
  unfold validateFilter
  split
  · exact .ok s _
  · exact ((readBytes_stops s (by omega)).bind fun _ _ => .ok s _).bind fun _ _ => .ok s _

theorem addProbes_stops {P : Params} {e : List Byte} {seed : Word} {arr bitLength : Nat} {entries : List Int} (s : State)
    (ha : ∀ q ∈ entries.map (probeBit P e seed bitLength), bitAddress arr q < addressSpace) :
    StopsAtRefusal (addProbes P e seed arr bitLength entries s) s := by
  induction entries generalizing s with
  | nil => exact .ok s s
  | cons c cs ih =>
    rw [List.map_cons, List.forall_mem_cons] at ha
    obtain ⟨hfirst, hmore⟩ := ha
    refine .bind (setBit_stops _ hfirst) fun s2 h2 => ?_
    obtain ⟨rfl, -⟩ := setBit_next h2
    exact ih _ hmore

theorem testProbes_stops {P : Params} {e : List Byte} {seed : Word} {arr bitLength : Nat} {entries : List Int} (s : State)
    (ha : ∀ q ∈ entries.map (probeBit P e seed bitLength), bitAddress arr q < addressSpace) :
    StopsAtRefusal (testProbes P e seed arr bitLength entries s) s := by
  induction entries generalizing s with
  | nil => exact .ok s _
  | cons c cs ih =>
    rw [List.map_cons, List.forall_mem_cons] at ha
    obtain ⟨hfirst, hmore⟩ := ha
    refine .bind (testBit_stops _ hfirst) fun ⟨b, s2⟩ h2 => ?_
    obtain ⟨-, rfl, -⟩ := testBit_next h2
    cases b with
    | true => exact ih _ hmore
    | false => exact .ok s _

theorem mergeBytes_stops {n src dst : Nat} (s : State) (hs : src + n ≤ addressSpace) (hd : dst + n ≤ addressSpace) :
    StopsAtRefusal (mergeBytes n src dst s) s := by
  induction n generalizing s src dst with
  | zero => exact .ok s s
  | succ n ih =>
    refine (portRead_stops s (by omega)).bind fun ⟨x, s1⟩ h1 => ?_
    obtain ⟨-, rfl, -⟩ := portRead_next h1
    refine .bind (portRead_stops _ (by omega)) fun ⟨d, s2⟩ h2 => ?_
    obtain ⟨-, rfl, -⟩ := portRead_next h2
    refine .bind (portWrite_stops _ _ (by omega)) fun s3 h3 => ?_
    obtain ⟨rfl, -⟩ := portWrite_next h3
    exact ih _ (by omega) (by omega)

/-! ## The commands -/

theorem probeCommand_stops (s : State) : StopsAtRefusal (probeCommand Config.engine s) s := by
  unfold probeCommand
  split
  · exact .ok s _
  · rename_i hw
    split
    · exact .ok s _
    · exact (readBytes_stops s (wellFormed_space (by simpa using hw))).bind fun _ _ => .ok s _

theorem setbitCommand_stops (s : State) : StopsAtRefusal (setbitCommand s) s := by
  unfold setbitCommand
  split
  · exact .ok s _
  · rename_i hc
    exact (setBit_stops s (bareArray_bit hc)).bind fun _ _ => .ok s _

theorem testbitCommand_stops (s : State) : StopsAtRefusal (testbitCommand s) s := by
  unfold testbitCommand
  split
  · exact .ok s _
  · rename_i hc
    exact (testBit_stops s (bareArray_bit hc)).bind fun _ _ => .ok s _

theorem initCommand_stops (s : State) : StopsAtRefusal (initCommand Config.engine s) s := by
  unfold initCommand
  split
  · exact .ok s _
  · rename_i n hn
    have hspace := initCheck_space hn
    refine (writeBytes_stops s (by rw [header_bytes_length]; omega)).bind fun s1 h1 => ?_
    obtain ⟨rfl, -⟩ := writeBytes_next h1
    refine .bind (fun fault hfault => ?_) fun _ _ => .ok s _
    have hstop := writeBytes_stops _ (by rw [List.length_replicate]; omega) fault hfault
    simpa only [traced_admits, storeBytes_admits] using hstop

theorem addCommand_stops (s : State) : StopsAtRefusal (addCommand Config.engine s) s := by
  unfold addCommand
  split
  · exact .ok s _
  · rename_i hb
    split
    · exact .ok s _
    · rename_i he
      rw [Bool.not_eq_true, Bool.not_eq_false'] at hb he
      refine (validateFilter_stops s hb).bind fun ⟨v, s1⟩ h1 => ?_
      obtain ⟨hv, rfl, -⟩ := validateFilter_next h1
      cases v with
      | error c => exact .ok s _
      | ok f =>
        refine .bind (readBytes_stops _ (wellFormed_space he)) fun ⟨e, s2⟩ h2 => ?_
        obtain ⟨-, rfl, -⟩ := readBytes_next h2
        have hspace := probeBits_space (e := e) hb hv.symm (filterAt_arrayLen_pos hv.symm)
        exact .bind (addProbes_stops _ hspace) fun _ _ => .ok s _

theorem testCommand_stops (s : State) : StopsAtRefusal (testCommand Config.engine s) s := by
  unfold testCommand
  split
  · exact .ok s _
  · rename_i hb
    split
    · exact .ok s _
    · rename_i he
      rw [Bool.not_eq_true, Bool.not_eq_false'] at hb he
      refine (validateFilter_stops s hb).bind fun ⟨v, s1⟩ h1 => ?_
      obtain ⟨hv, rfl, -⟩ := validateFilter_next h1
      cases v with
      | error c => exact .ok s _
      | ok f =>
        refine .bind (readBytes_stops _ (wellFormed_space he)) fun ⟨e, s2⟩ h2 => ?_
        obtain ⟨-, rfl, -⟩ := readBytes_next h2
        have hspace := probeBits_space (e := e) hb hv.symm (filterAt_arrayLen_pos hv.symm)
        exact .bind (testProbes_stops _ hspace) fun _ _ => .ok s _

theorem mergeCommand_stops (s : State) : StopsAtRefusal (mergeCommand Config.engine s) s := by
  unfold mergeCommand
  split
  · exact .ok s _
  · rename_i hw
    simp only [Bool.or_eq_true, Bool.not_eq_true', not_or, Bool.not_eq_false] at hw
    obtain ⟨hb0, hb1⟩ := hw
    split
    · exact .ok s _
    · refine (validateFilter_stops s hb0).bind fun ⟨v0, s1⟩ h1 => ?_
      obtain ⟨hv0, rfl, -⟩ := validateFilter_next h1
      cases v0 with
      | error c => exact .ok s _
      | ok f0 =>
        refine .bind (validateFilter_stops _ hb1) fun ⟨v1, s2⟩ h2 => ?_
        obtain ⟨hv1, rfl, -⟩ := validateFilter_next h2
        cases v1 with
        | error c => exact .ok s _
        | ok f1 =>
          dsimp only
          split
          · exact .ok s _
          · rename_i hc
            have hlen : f0.arrayLen = f1.arrayLen := compatible_arrayLen (by simpa using hc)
            exact .bind (mergeBytes_stops _ (hlen ▸ filterAt_space hb1 hv1.symm) (filterAt_space hb0 hv0.symm))
              fun _ _ => .ok s _

/-- Every command is the outcome of a run of this form. -/
theorem exec_stops (i : Instr) (s : State) : ∃ r, exec i s = finish r ∧ StopsAtRefusal r s := by
  cases i with
  | nop => exact ⟨_, rfl, .ok s (nopCommand s)⟩
  | optbits => exact ⟨_, rfl, .ok s (optbitsCommand Config.engine s)⟩
  | optprobes => exact ⟨_, rfl, .ok s (optprobesCommand Config.engine s)⟩
  | derive => exact ⟨_, rfl, .ok s (deriveCommand Config.engine s)⟩
  | probe => exact ⟨_, rfl, probeCommand_stops s⟩
  | setbit => exact ⟨_, rfl, setbitCommand_stops s⟩
  | testbit => exact ⟨_, rfl, testbitCommand_stops s⟩
  | init => exact ⟨_, rfl, initCommand_stops s⟩
  | add => exact ⟨_, rfl, addCommand_stops s⟩
  | test => exact ⟨_, rfl, testCommand_stops s⟩
  | merge => exact ⟨_, rfl, mergeCommand_stops s⟩

/-- The two outcomes of a command (spec R62, R77). -/
theorem exec_cases (i : Instr) (s : State) :
    (∃ t, exec i s = .next t) ∨
      ∃ kind a, exec i s = .fault (.portRefused kind a) ∧ a < addressSpace ∧ s.admits kind a = false := by
  obtain ⟨r, hexec, hstops⟩ := exec_stops i s
  cases r with
  | ok t => exact .inl ⟨t, hexec⟩
  | error fault =>
    obtain ⟨kind, a, rfl, ha, hrefused⟩ := hstops fault rfl
    exact .inr ⟨kind, a, hexec, ha, hrefused⟩

/-- Where nothing is refused, every command answers. -/
theorem exec_answers {i : Instr} {s : State} (h : s.denied = []) : ∃ t, exec i s = .next t := by
  obtain hnext | ⟨kind, a, -, -, hrefused⟩ := exec_cases i s
  · exact hnext
  · rw [admits_of_nothing_denied h] at hrefused
    cases hrefused

theorem issue_cases (s : State) (w : Half) :
    (∃ t, issue s w = .next t) ∨
      ∃ kind a, issue s w = .fault (.portRefused kind a) ∧ a < addressSpace ∧ s.admits kind a = false := by
  cases hw : decode w with
  | ok i => rw [issue_ok hw]; exact exec_cases i (startCommand s w)
  | error e => exact .inl ⟨_, issue_illegal hw⟩

theorem issue_answers {s : State} (h : s.denied = []) (w : Half) : ∃ t, issue s w = .next t := by
  cases hw : decode w with
  | ok i => rw [issue_ok hw]; exact exec_answers h
  | error e => exact ⟨_, issue_illegal hw⟩

/-- A reset in the middle of a command always leads on (spec R282). -/
theorem resetDuring_next (s : State) (w : Half) (cut : Nat) :
    ∃ u, issue s.unrestricted w = .next u ∧ resetDuring s w cut = .next (resetEngine { s with
      mem := Memory.apply s.mem (s.performed u.trace cut), trace := s.performed u.trace cut }) := by
  obtain ⟨u, hu⟩ := issue_answers (unrestricted_denied s) w
  exact ⟨u, hu, by simp only [resetDuring, hu]⟩

/-- Settles O13: by the action taken; a command's addresses lie in the ranges it checked. -/
theorem onlyARefusedAccessStops : Obligations.OnlyARefusedAccessStops := by
  intro s
  cases hq : s.hostQueue with
  | nil => exact .inl ⟨s, step_idle hq⟩
  | cons action rest =>
    rw [step_action hq]
    cases action with
    | writeSlot slot v =>
      rw [hostAct]
      split
      · exact issue_cases { s with hostQueue := rest } (v.setWidth 32)
      · exact .inl ⟨_, rfl⟩
    | resetDuring v cut =>
      obtain ⟨u, -, hnext⟩ := resetDuring_next { s with hostQueue := rest } (v.setWidth 32) cut
      exact .inl ⟨_, hnext⟩
    | readSlot slot | writeByte a v | readByte a | reset => exact .inl ⟨_, rfl⟩

/-- Settles O14: SETBIT's checks pass, and its read or its write is refused. -/
theorem refusedAccessLeavesNoStep : Obligations.RefusedAccessLeavesNoStep := by
  intro s hspace hpos hlen
  have hc : bareArrayError s = none := by
    have hw : s.buf0.wellFormed = true := decide_eq_true hspace
    have hfits : ¬8 * s.buf0.len < s.bitlen.toNat := not_lt_of_ge hlen
    rw [bareArrayError, hw, if_neg (by simp), if_neg (by omega), if_neg hfits]
  have ha := bareArray_bit hc
  have hexec : exec .setbit s = finish (setBit s.buf0.base s.bitlen.toNat s.pos s >>= fun t => pure (done false t)) := by
    simp only [exec, execSetbit, setbitCommand, hc]
  refine ⟨fun hread => ?_, fun hread hwrite => ?_⟩
  · rw [hexec, setBit_read_refused ha hread]
    rfl
  · rw [hexec, setBit_write_refused ha hread hwrite]
    rfl

end Sys2Proof.Machine
end

section
/-! A reset in the middle of a command (spec R77, R282). -/

namespace Sys2Proof.Machine

/-- What is performed before the reset is an initial part of the trace. -/
theorem performed_prefix (s : State) (events : List PortEvent) (cut : Nat) :
    ∃ more, events = s.performed events cut ++ more := by
  obtain ⟨more, h⟩ := (List.take_prefix cut _).trans (List.takeWhile_prefix s.admitsEvent (l := events))
  exact ⟨more, h.symm⟩

theorem performed_nil (s : State) (cut : Nat) : s.performed [] cut = [] := by simp [State.performed]

theorem performed_of_admitted {s : State} {events : List PortEvent} (cut : Nat)
    (h : ∀ e ∈ events, s.admitsEvent e = true) : s.performed events cut = events.take cut := by
  rw [State.performed, List.takeWhile_eq_self_iff.mpr h]

theorem performed_of_refused {s : State} {events more : List PortEvent} {e : PortEvent} (cut : Nat)
    (h : ∀ e' ∈ events, s.admitsEvent e' = true) (he : s.admitsEvent e = false) :
    s.performed (events ++ e :: more) cut = events.take cut := by
  rw [State.performed, List.takeWhile_append_of_pos h, List.takeWhile_cons_of_neg (by simp [he]), List.append_nil]

/-- A trace that replays does so up to the reset. -/
theorem replay_performed {s : State} {mem mem' : Memory} {events : List PortEvent} (cut : Nat)
    (h : replay mem events = some mem') :
    replay mem (s.performed events cut) = some (Memory.apply mem (s.performed events cut)) := by
  obtain ⟨more, hmore⟩ := performed_prefix s events cut
  rw [hmore, replay_append, Option.bind_eq_some_iff] at h
  obtain ⟨mid, hmid, -⟩ := h
  rw [apply_of_replay hmid, hmid]

theorem issue_replay {s t : State} {w : Half} (h : issue s w = .next t) : replay s.mem t.trace = some t.mem := by
  cases hw : decode w with
  | ok i =>
    rw [issue_ok hw] at h
    obtain ⟨events, htrace, -, hreplay, -⟩ := exec_events h
    rw [htrace]
    exact hreplay
  | error e =>
    rw [issue_illegal hw] at h
    cases h
    rfl

section
variable {i : Instr} {s u : State} (htrace : s.trace = []) (hu : exec i s.unrestricted = .next u)
include htrace hu

/-- Of a command that answers, the first `cut` entries are performed. -/
theorem performed_of_answer {t : State} (cut : Nat) (h : exec i s = .next t) :
    s.performed u.trace cut = t.trace.take cut := by
  obtain ⟨hnext, events, hevents, hadmitted⟩ := exec_unrestricted_next h
  obtain rfl : u = t.unrestricted := Host.Outcome.next.inj (hu.symm.trans hnext)
  rw [htrace, List.nil_append] at hevents
  rw [unrestricted_trace, hevents]
  exact performed_of_admitted cut hadmitted

/-- Of a command that is stuck, nothing from the refused access on is performed. -/
theorem performed_of_stuck {kind : AccessKind} {a : Nat} (cut : Nat) (h : exec i s = .fault (.portRefused kind a)) :
    ∃ n e, u.trace[n]? = some e ∧ e.isAccess kind a ∧ (∀ e' ∈ u.trace.take n, s.admitsEvent e' = true) ∧
      s.performed u.trace cut = (u.trace.take n).take cut := by
  obtain ⟨events, e, more, hevents, hadmitted, hrefused, haccess⟩ := exec_unrestricted_refused h hu
  rw [htrace, List.nil_append] at hevents
  refine ⟨events.length, e, ?_⟩
  rw [hevents, List.take_left]
  exact ⟨by simp, haccess, hadmitted, performed_of_refused cut hadmitted hrefused⟩

/-- What ADD, SETBIT and MERGE have performed before a reset has only set bits (spec R70, R282). -/
theorem performed_onlySetsBits (cut : Nat) (hi : i ∈ [Instr.add, .setbit, .merge]) (hwf : Memory.wf s.mem = true)
    {a j : Nat} (hj : (s.byteAt a).getLsbD j = true) :
    (Memory.read (Memory.apply s.mem (s.performed u.trace cut)) a).getLsbD j = true := by
  obtain ⟨more, hmore⟩ := performed_prefix s u.trace cut
  obtain ⟨events, hevents, -, hreplay, -⟩ := exec_events hu
  rw [unrestricted_trace, htrace, List.nil_append] at hevents
  refine everyPrefixOnlySetsBits i s.unrestricted u _ more _ hi hwf hu ?_ (replay_performed cut (hevents ▸ hreplay)) a j hj
  rw [← hmore, unrestricted_trace, htrace, List.nil_append]

end

/-- Settles O9: the trace of the command where nothing is refused, its admitted part, and its first `cut` entries. -/
theorem resetDuringACommandLeavesAPrefix : Obligations.ResetDuringACommandLeavesAPrefix := by
  intro s rest v cut hwf hq
  obtain ⟨u, hissue, hnext⟩ := resetDuring_next { s with hostQueue := rest } (v.setWidth 32) cut
  have hreplay := issue_replay hissue
  refine ⟨_, (step_action hq).trans hnext, fun f hf => ?_, rfl, rfl, rfl, replay_performed cut hreplay,
    fun e he => ?_, fun i start hi hstart => ?_⟩
  · obtain ⟨r, rfl⟩ := mem_registerWindow hf
    exact resetEngine_get _ r
  · rw [issue_illegal he] at hissue
    cases hissue
    have hnone := performed_nil { s with hostQueue := rest } cut
    exact ⟨congrArg (Memory.apply s.mem) hnone, hnone⟩
  · have hexec : exec i start.unrestricted = .next u := by
      rw [hstart, ← hissue, issue_ok hi]
      rfl
    have htrace : start.trace = [] := by rw [hstart]
    subst hstart
    refine ⟨fun t ht => performed_of_answer htrace hexec cut ht, fun kind a hfault => ?_,
      fun hmem a j hj => performed_onlySetsBits htrace hexec cut hmem hwf hj⟩
    obtain ⟨n, e, hstuck⟩ := performed_of_stuck htrace hexec cut hfault
    exact ⟨u, n, e, hexec, hstuck⟩

end Sys2Proof.Machine
end

section
/-! The header in memory and INIT (spec R64, R65, R67, R200), and the sizes of a derived filter (spec R69, R135, R143). -/

namespace Sys2Proof.Machine

/-! ## Little-endian fields -/

theorem bytesAt_add (s : State) (n k a : Nat) : s.bytesAt (n + k) a = s.bytesAt n a ++ s.bytesAt k (a + n) := by
  induction n generalizing a with
  | zero => simp [State.bytesAt]
  | succ n ih => simp [State.bytesAt, Nat.succ_add, ih, Nat.add_assoc]

/-- The number the `n` bytes at `a` denote (spec R67). -/
theorem leNat_bytesAt (s : State) (n a : Nat) :
    leNat (s.bytesAt n a) = ∑ i ∈ Finset.range n, (s.byteAt (a + i)).toNat * 2 ^ (8 * i) := by
  induction n generalizing a with
  | zero => rfl
  | succ n ih =>
    rw [Finset.sum_range_succ', State.bytesAt, leNat, ih, Finset.mul_sum, Nat.add_comm]
    congr 1
    · refine Finset.sum_congr rfl fun i _ => ?_
      rw [Nat.add_assoc, Nat.add_comm 1 i, Nat.mul_add, Nat.pow_add]
      ring
    · simp

theorem leNat_lt (bs : List Byte) : leNat bs < 256 ^ bs.length := by
  induction bs with
  | nil => simp [leNat]
  | cons b bs ih =>
    have hb := b.isLt
    rw [leNat, List.length_cons, Nat.pow_succ]
    omega

/-- A header field of `n` bytes holds the number those bytes denote (spec R67). -/
theorem toNat_field (s : State) (n a : Nat) :
    (BitVec.ofNat (8 * n) (leNat (s.bytesAt n a))).toNat =
      ∑ i ∈ Finset.range n, (s.byteAt (a + i)).toNat * 2 ^ (8 * i) := by
  have hlt := leNat_lt (s.bytesAt n a)
  rw [bytesAt_length, show (256 : Nat) = 2 ^ 8 from rfl, ← Nat.pow_mul] at hlt
  rw [BitVec.toNat_ofNat, Nat.mod_eq_of_lt hlt, leNat_bytesAt]

/-- The header's fields as bytes of memory (spec R64). -/
theorem headerAt_eq (s : State) (base : Nat) :
    s.headerAt base = ⟨BitVec.ofNat 64 (leNat (s.bytesAt 8 base)), BitVec.ofNat 32 (leNat (s.bytesAt 4 (base + 8))),
      BitVec.ofNat 64 (leNat (s.bytesAt 8 (base + 12)))⟩ := by
  have hsplit : s.bytesAt headerBytes base =
      s.bytesAt 8 base ++ (s.bytesAt 4 (base + 8) ++ s.bytesAt 8 (base + 12)) := by
    rw [show headerBytes = 8 + (4 + 8) from rfl, bytesAt_add, bytesAt_add, Nat.add_assoc]
  simp [State.headerAt, hsplit, headerOf, List.drop_append, List.take_of_length_le, List.drop_of_length_le]

/-- Settles O29: each field is its slice of the header's bytes. -/
theorem headerFieldsAreLittleEndian : Obligations.HeaderFieldsAreLittleEndian := by
  intro s base
  rw [headerAt_eq]
  exact ⟨toNat_field s 8 base, toNat_field s 4 (base + 8), toNat_field s 8 (base + 12)⟩

/-! ## INIT -/

/-- A written byte string stands where it was written. -/
theorem storeBytes_byteAt {s : State} {bs : List Byte} {a i : Nat} {v : Byte} (hwf : Memory.wf s.mem = true)
    (ha : a + bs.length ≤ addressSpace) (h : bs[i]? = some v) : (storeBytes s bs a).byteAt (a + i) = v := by
  obtain ⟨-, hbytes⟩ := storeBytes_spec s bs a hwf fun _ => ha
  obtain ⟨hi, rfl⟩ := List.getElem?_eq_some_iff.mp h
  rw [hbytes, dif_pos ⟨Nat.le_add_right a i, by omega⟩]
  simp

theorem bytesAt_eq {s : State} {bs : List Byte} {a : Nat} (h : ∀ i v, bs[i]? = some v → s.byteAt (a + i) = v) :
    s.bytesAt bs.length a = bs := by
  induction bs generalizing a with
  | nil => rfl
  | cons b bs ih =>
    have hrest : s.bytesAt bs.length (a + 1) = bs := ih fun i v hv => by
      rw [Nat.add_assoc, Nat.add_comm 1 i]
      exact h (i + 1) v hv
    have hfirst : s.byteAt a = b := h 0 b rfl
    rw [List.length_cons, State.bytesAt, hrest, hfirst]

/-- The bytes of a number written little-endian (spec R67). -/
theorem leBytes_getElem? {n j : Nat} (v : Nat) (h : j < n) : (leBytes n v)[j]? = some (BitVec.ofNat 8 (v / 256 ^ j)) := by
  induction n generalizing v j with
  | zero => omega
  | succ n ih =>
    cases j with
    | zero => simp [leBytes, ← BitVec.toNat_inj]
    | succ j =>
      rw [leBytes, List.getElem?_cons_succ, ih (v / 256) (by omega), Nat.div_div_eq_div_mul, Nat.pow_succ, Nat.mul_comm]

/-- The bytes of a register written little-endian are its slices of 8 bits. -/
theorem leBytes_register {w n j : Nat} (x : BitVec w) (h : j < n) :
    (leBytes n x.toNat)[j]? = some (x.extractLsb' (8 * j) 8) := by
  rw [leBytes_getElem? _ h, Option.some.injEq]
  apply BitVec.eq_of_toNat_eq
  rw [BitVec.toNat_ofNat, BitVec.extractLsb'_toNat, Nat.shiftRight_eq_div_pow, Nat.pow_mul]

theorem writeBytes_append (xs ys : List Byte) (a : Nat) (s : State) :
    writeBytes (xs ++ ys) a s = writeBytes xs a s >>= writeBytes ys (a + xs.length) := by
  induction xs generalizing a s with
  | nil => rfl
  | cons x xs ih =>
    simp only [List.cons_append, writeBytes]
    cases portWrite a x s with
    | error f => rfl
    | ok t => simp only [except_bind_ok, ih, List.length_cons, Nat.add_assoc, Nat.add_comm 1 xs.length]

/-- The bytes INIT writes to the buffer (spec R64, R200). -/
def State.newFilterBytes (s : State) (arrayLen : Nat) : List Byte := s.newHeader.bytes ++ List.replicate arrayLen 0x00#8

theorem newFilterBytes_length (s : State) (arrayLen : Nat) :
    (s.newFilterBytes arrayLen).length = headerBytes + arrayLen := by
  rw [State.newFilterBytes, List.length_append, header_bytes_length, List.length_replicate]

/-- The new filter: SEED at offset 0, ERROR_RATE at 8, CAPACITY at 12, zeros from 20 on (spec R64, R200). -/
theorem newFilterBytes_getElem? (s : State) (arrayLen : Nat) :
    (∀ j < 8, (s.newFilterBytes arrayLen)[j]? = some (s.seed.extractLsb' (8 * j) 8)) ∧
      (∀ j < 4, (s.newFilterBytes arrayLen)[8 + j]? = some (s.errorRate.extractLsb' (8 * j) 8)) ∧
      (∀ j < 8, (s.newFilterBytes arrayLen)[12 + j]? = some (s.capacity.extractLsb' (8 * j) 8)) ∧
      ∀ j < arrayLen, (s.newFilterBytes arrayLen)[20 + j]? = some 0x00#8 := by
  have hseed := leBytes_length 8 s.seed.toNat
  have hrate := leBytes_length 4 s.errorRate.toNat
  have hcapacity := leBytes_length 8 s.capacity.toNat
  unfold State.newFilterBytes Header.bytes State.newHeader
  simp only [List.append_assoc]
  refine ⟨fun j hj => ?_, fun j hj => ?_, fun j hj => ?_, fun j hj => ?_⟩
  · rw [List.getElem?_append_left (by omega)]
    exact leBytes_register _ hj
  · rw [List.getElem?_append_right (by omega), List.getElem?_append_left (by omega), hseed, Nat.add_sub_cancel_left]
    exact leBytes_register _ hj
  · rw [List.getElem?_append_right (by omega), List.getElem?_append_right (by omega),
      List.getElem?_append_left (by omega), hseed, hrate, Nat.sub_sub, Nat.add_sub_cancel_left]
    exact leBytes_register _ hj
  · rw [List.getElem?_append_right (by omega), List.getElem?_append_right (by omega),
      List.getElem?_append_right (by omega), hseed, hrate, hcapacity, Nat.sub_sub, Nat.sub_sub, Nat.add_sub_cancel_left,
      List.getElem?_replicate, if_pos hj]

/-- Where its checks pass and its writes are admitted, INIT answers with the new filter's bytes in the buffer, each written
once in ascending order (spec R200). -/
theorem exec_init_admitted {s : State} {n : Nat} (hwf : Memory.wf s.mem = true)
    (hn : initCheck Config.engine s = .ok n) (hw : s.Admitted .write s.buf0.base s.buf0.len) :
    ∃ t, exec .init s = .next t ∧ t.status = 0x000#32 ∧
      t.trace = s.trace ++ writeEvents (s.newFilterBytes n) s.buf0.base ∧
      ∀ i v, (s.newFilterBytes n)[i]? = some v → t.byteAt (s.buf0.base + i) = v := by
  have hlength := newFilterBytes_length s n
  have hspace : s.buf0.base + (s.newFilterBytes n).length ≤ addressSpace := hlength ▸ initCheck_space hn
  have hwrite : writeBytes (s.newFilterBytes n) s.buf0.base s = _ :=
    writeBytes_admitted (by rwa [hlength, ← initCheck_len hn]) fun _ => hspace
  rw [State.newFilterBytes, writeBytes_append, header_bytes_length, ← State.newFilterBytes] at hwrite
  obtain ⟨u, hheader, hzeros⟩ := except_bind_eq_ok hwrite
  refine ⟨done false ((storeBytes s (s.newFilterBytes n) s.buf0.base).traced
    (writeEvents (s.newFilterBytes n) s.buf0.base)), ?_, ?_, ?_, fun i v hv => ?_⟩
  · simp only [exec, execInit, initCommand, hn, hheader, hzeros, except_bind_ok, except_pure, finish_ok]
  · rw [done_status]
    decide
  · rw [done_trace, traced_trace, traced_storeBytes_trace]
  · rw [done_byteAt, traced_byteAt]
    exact storeBytes_byteAt hwf hspace hv

/-- INIT's checks pass on good operands (spec R200). -/
theorem initCheck_ok {s : State} {m k : Nat} (hw : s.buf0.wellFormed = true)
    (hderive : derive .literal s.capacity.toNat s.errorRate = some (m, k)) (hk : k ≤ seedTableLen)
    (hlen : s.buf0.len = headerBytes + arrayBytes m) : initCheck Config.engine s = .ok (arrayBytes m) := by
  have hderive' : derive Config.engine.constants s.capacity.toNat s.errorRate = some (m, k) := hderive
  simp [initCheck, hw, hderive', Nat.not_lt.mpr hk, hlen]

/-- Arguments of the deriver's domain (spec R138, R139). -/
theorem derive_of_legal {n : Nat} {b : Half} (hn : n ≠ 0) (hb : legalErrorRate b = true)
    (hmax : optimalBits .literal n b ≤ maxBits) :
    derive .literal n b = some (optimalBits .literal n b, optimalProbes .literal (optimalBits .literal n b) n) := by
  simp [derive, deriveBits, hn, hb, Nat.not_lt.mpr hmax]

/-- Settles O28: the checks pass, and the new filter's bytes stand in the buffer. -/
theorem initEffect : Obligations.InitEffect := by
  intro s m k hwf hspace hm hk hn hlo hhi hmax hk100 hlen hadmitted
  have hb : legalErrorRate s.errorRate = true := decide_eq_true ⟨hlo, hhi⟩
  have hderive : derive .literal s.capacity.toNat s.errorRate = some (m, k) := by
    rw [derive_of_legal hn hb (hm ▸ hmax), ← hm, hk]
    rfl
  have hcheck : initCheck Config.engine s = .ok (arrayBytes m) :=
    initCheck_ok (decide_eq_true hspace) hderive hk100 hlen
  obtain ⟨t, hexec, hstatus, htrace, hbyte⟩ := exec_init_admitted hwf hcheck hadmitted
  obtain ⟨hget, hdenied, hqueue, hread⟩ := commandsWriteOnlyTheirRegisters .init s t hexec
  obtain ⟨hseed, hrate, hcapacity, hzero⟩ := newFilterBytes_getElem? s (arrayBytes m)
  refine ⟨t, hexec, hstatus, ⟨fun r hr => hget r (by simpa [writtenBy] using hr), hdenied, hqueue, hread⟩,
    fun j hj => hbyte _ _ (hseed j hj), fun j hj => ?_, fun j hj => ?_, fun j hj => ?_, fun a ha => ?_, ?_⟩
  · rw [Nat.add_assoc]
    exact hbyte _ _ (hrate j hj)
  · rw [Nat.add_assoc]
    exact hbyte _ _ (hcapacity j hj)
  · rw [Nat.add_assoc]
    exact hbyte _ _ (hzero j hj)
  · refine exec_byteAt_eq hwf hexec fun hstores => ?_
    obtain ⟨hlow, hhigh⟩ := inRange_iff.mp hstores
    exact ha.elim (Nat.not_lt.mpr hlow) (Nat.not_le.mpr hhigh)
  · have hbytes := bytesAt_eq hbyte
    rw [newFilterBytes_length, ← initCheck_len hcheck] at hbytes
    rw [htrace, ← hbytes]
    rfl

/-- Settles O41: m is at least 1, and the sizes follow from it. -/
theorem derivedSizesFitTheRegisters : Obligations.DerivedSizesFitTheRegisters := by
  intro n b m L hn hb hm hmax hL
  have hpos : 1 ≤ m := hm ▸ optimalBitsLiteral_pos (Nat.ne_of_gt hn) hb
  omega

end Sys2Proof.Machine
end

section
/-! The decoder (spec R90 to R94): the two fields of a word, the opcode map and its inverse, the reserved words. -/

namespace Sys2Proof

theorem fieldsOf_rsv_toNat (w : Half) : (fieldsOf w).rsv.toNat = w.toNat / 16 := by
  have hlt : w.toNat < 2 ^ 32 := w.isLt
  rw [fieldsOf, BitVec.extractLsb'_toNat, Nat.shiftRight_eq_div_pow]
  omega

theorem fieldsOf_opc_toNat (w : Half) : (fieldsOf w).opc.toNat = w.toNat % 16 := by
  rw [fieldsOf, BitVec.extractLsb'_toNat, Nat.shiftRight_zero]

theorem reservedZero_fieldsOf (w : Half) : (fieldsOf w).reservedZero = true ↔ w.toNat < 16 := by
  rw [CommandWord.reservedZero, beq_iff_eq, ← BitVec.toNat_inj, fieldsOf_rsv_toNat]
  exact Nat.div_eq_zero_iff_lt (by decide)

/-- A word with its reserved bits zero is its opcode (spec R90, R91). -/
theorem setWidth_opc_fieldsOf {w : Half} (h : w.toNat < 16) : (fieldsOf w).opc.setWidth 32 = w := by
  apply BitVec.eq_of_toNat_eq
  rw [BitVec.toNat_setWidth, fieldsOf_opc_toNat]
  omega

theorem decode_of_lt {w : Half} (h : w.toNat < 16) : decode w = decodeOpcode (fieldsOf w).opc :=
  if_pos ((reservedZero_fieldsOf w).mpr h)

theorem decode_of_ge {w : Half} (h : 16 ≤ w.toNat) : decode w = .error .reservedBits :=
  if_neg fun hz => Nat.not_lt.mpr h ((reservedZero_fieldsOf w).mp hz)

/-- The opcode map is the column "word" of R92 read backwards. -/
theorem decodeOpcode_eq_ok (opc : BitVec 4) (i : Instr) : decodeOpcode opc = .ok i ↔ opc.setWidth 32 = encode i := by
  revert opc
  cases i <;> decide

theorem decodeOpcode_eq_error (opc : BitVec 4) (e : Illegal) :
    decodeOpcode opc = .error e ↔ e = .reservedOpcode ∧ (opc.toNat = 0x7 ∨ 0xC ≤ opc.toNat) := by
  revert opc
  cases e <;> decide

@[simp] theorem decode_encode (i : Instr) : decode (encode i) = .ok i := by cases i <;> rfl

/-- Settles O1: the words are those the commands encode to. -/
theorem wordsOfTheOpcodeMapDecode : Obligations.WordsOfTheOpcodeMapDecode :=
  ⟨decode_encode .nop, decode_encode .optbits, decode_encode .optprobes, decode_encode .derive, decode_encode .probe,
    decode_encode .setbit, decode_encode .testbit, decode_encode .init, decode_encode .add, decode_encode .test,
    decode_encode .merge⟩

/-- Settles O2: a word that decodes has its reserved bits zero, so it is its opcode, and the opcode map inverts `encode`. -/
theorem decodeAndEncodeAgree : Obligations.DecodeAndEncodeAgree := by
  refine fun w i => ⟨fun h => ?_, fun h => h ▸ decode_encode i⟩
  rcases lt_or_ge w.toNat 16 with hlt | hge
  · rw [decode_of_lt hlt, decodeOpcode_eq_ok] at h
    exact (setWidth_opc_fieldsOf hlt).symm.trans h
  · rw [decode_of_ge hge] at h
    cases h

/-- Settles O3: below 16 only the opcode map rejects, from 16 on a reserved bit is set. -/
theorem rejectedWordsAreTheReservedOnes : Obligations.RejectedWordsAreTheReservedOnes := by
  intro w
  rcases lt_or_ge w.toNat 16 with hlt | hge
  · rw [decode_of_lt hlt, decodeOpcode_eq_error, decodeOpcode_eq_error, fieldsOf_opc_toNat, Nat.mod_eq_of_lt hlt,
      Nat.div_eq_of_lt hlt]
    exact ⟨by simp, by simp; omega⟩
  · rw [decode_of_ge hge]
    simp only [Except.error.injEq, reduceCtorEq, true_iff, false_iff]
    omega

end Sys2Proof
end

section
/-! The host commands (spec R96 to R98): a run through writes of operand slots and the mnemonic line behind them. -/

namespace Sys2Proof.Machine

/-- The host actions that write these words to the slots of these registers, in order (spec R97). -/
def operandWrites (operands : List (RegName × Word)) : List HostAction := operands.map fun p => .writeSlot p.1.slot p.2

/-- The state with these registers set, in order. -/
def State.withOperands (s : State) (operands : List (RegName × Word)) : State :=
  operands.foldl (fun t p => t.set p.1 p.2) s

/-- The state with these actions pending. -/
def State.withQueue (s : State) (queue : List HostAction) : State := { s with hostQueue := queue }

@[simp] theorem withQueue_withQueue (s : State) (queue queue' : List HostAction) :
    (s.withQueue queue).withQueue queue' = s.withQueue queue' := rfl

theorem set_withQueue (s : State) (queue : List HostAction) (r : RegName) (v : Word) :
    (s.withQueue queue).set r v = (s.set r v).withQueue queue := by cases r <;> rfl

theorem core_step : core.step = step := rfl

theorem run_one (s : State) : core.run 1 s = step s := by
  simp only [Host.Core.run, core_step]
  cases step s <;> rfl

theorem run_of_step {s t : State} (n : Nat) (h : step s = .next t) : core.run (n + 1) s = core.run n t := by
  simp only [Host.Core.run, core_step, h]

/-- A write of a register the host may write, CMD apart, sets it (spec R37). -/
theorem step_writeSlot {s : State} {r : RegName} {v : Word} {rest : List HostAction} (hw : r.hostWritable = true)
    (hr : r ≠ .cmd) (hq : s.hostQueue = .writeSlot r.slot v :: rest) :
    step s = .next ((s.set r v).withQueue rest) := by
  have hslot : r.slot ≠ 0 := fun h => hr (slot_injective h)
  rw [step_action hq, hostAct, if_neg hslot, writeSlot_slot, if_pos hw]
  exact congrArg _ (set_withQueue ..)

/-- A mnemonic line is the command at the state in which it starts (spec R23, R96). -/
theorem step_issueAction {s : State} {i : Instr} {rest : List HostAction} (hq : s.hostQueue = issueAction i :: rest) :
    step s = exec i (startCommand (s.withQueue rest) (encode i)) := by
  have hword : ((encode i).setWidth 64).setWidth 32 = encode i := by simp
  rw [stepRunsTheDecodedCommand s rest _ i hq (by rw [hword, decode_encode]), hword]
  rfl

/-- Operand registers are written one step each, then the command runs on them. -/
theorem run_operandWrites_issue {s : State} {i : Instr} {rest : List HostAction} (operands : List (RegName × Word))
    (hw : ∀ p ∈ operands, p.1.hostWritable = true ∧ p.1 ≠ .cmd)
    (hq : s.hostQueue = operandWrites operands ++ issueAction i :: rest) :
    core.run (operands.length + 1) s = exec i (startCommand ((s.withQueue rest).withOperands operands) (encode i)) := by
  induction operands generalizing s with
  | nil => exact (run_one s).trans (step_issueAction hq)
  | cons p operands ih =>
    obtain ⟨⟨hwritable, hcmd⟩, hrest⟩ := List.forall_mem_cons.mp hw
    rw [List.length_cons, run_of_step _ (step_writeSlot hwritable hcmd hq), ih hrest rfl, withQueue_withQueue,
      ← set_withQueue]
    rfl

/-- ERROR_RATE takes a 32-bit pattern as it is (spec R28, R37). -/
theorem set_errorRate_setWidth (s : State) (b : Half) : s.set .errorRate (b.setWidth 64) = { s with errorRate := b } := by
  simp [State.set]

/-- Settles O60: each expansion is writes of operand registers and then a mnemonic line. -/
theorem hostCommandsRunTheirCommand : Obligations.HostCommandsRunTheirCommand := by
  refine fun s rest a b c d capacity errorRate => ⟨fun hq => ?add, fun hq => ?test, fun hq => ?merge, fun hq => ?derive,
    fun hq => ?init⟩
  case add =>
    exact run_operandWrites_issue [(.buf0Base, a), (.buf0Len, b), (.elemBase, c), (.elemLen, d)]
      (by simp [RegName.hostWritable]) hq
  case test =>
    exact run_operandWrites_issue [(.buf0Base, a), (.buf0Len, b), (.elemBase, c), (.elemLen, d)]
      (by simp [RegName.hostWritable]) hq
  case merge =>
    exact run_operandWrites_issue [(.buf0Base, a), (.buf0Len, b), (.buf1Base, c), (.buf1Len, d)]
      (by simp [RegName.hostWritable]) hq
  case derive =>
    have hrun := run_operandWrites_issue (i := .derive) (rest := .readSlot 14 :: rest)
      [(.capacity, capacity.getD defaultCapacity), (.errorRate, (errorRate.getD defaultErrorRate).setWidth 64), (.seed, a)]
      (by simp [RegName.hostWritable]) hq
    simp only [State.withOperands, List.foldl_cons, List.foldl_nil, set_errorRate_setWidth] at hrun
    exact hrun
  case init => exact run_operandWrites_issue [(.buf0Base, a), (.buf0Len, b)] (by simp [RegName.hostWritable]) hq

end Sys2Proof.Machine
end

section
/-! The hash family (spec R113, R116, R119): seed words as sums modulo 2^64, and PROBE's answer on each of its paths. -/

namespace Sys2Proof.Machine

/-! ## Seed words -/

/-- R113 with the seed read as unsigned. -/
theorem seedWord_toNat (c : Int) (seed : Word) : ((seedWord c seed).toNat : Int) = (c + seed.toNat) % 2 ^ 64 := by
  rw [seedWord, BitVec.toNat_ofInt]
  omega

/-- The signed and the unsigned reading of a seed are congruent modulo 2^64, so they give the same sum (spec R26). -/
theorem add_toInt_emod (c : Int) (seed : Word) : (c + seed.toInt) % 2 ^ 64 = (c + seed.toNat) % 2 ^ 64 := by
  have hmod : seed.toInt % 2 ^ 64 = (seed.toNat : Int) % 2 ^ 64 := by
    rw [BitVec.toInt_eq_toNat_bmod]
    exact Int.bmod_emod
  omega

theorem entry_inRange {table : SeedTable} {i : Nat} {c : Int} (h : table.entries[i]? = some c) :
    -2 ^ 31 ≤ c ∧ c ≤ 2 ^ 32 - 1 := table.inRange c (List.mem_of_getElem? h)

/-- Table entries differ by less than 2^64, so adding one seed modulo 2^64 keeps them apart (spec R119). -/
theorem seedWord_inj {table : SeedTable} {seed : Word} {i j : Nat} {c d : Int} (hi : table.entries[i]? = some c)
    (hj : table.entries[j]? = some d) (h : seedWord c seed = seedWord d seed) : c = d := by
  have hsum : (c + seed.toNat) % 2 ^ 64 = (d + seed.toNat) % 2 ^ 64 := by rw [← seedWord_toNat, ← seedWord_toNat, h]
  have hc := entry_inRange hi
  have hd := entry_inRange hj
  omega

theorem entry_index_inj {table : SeedTable} {i j : Nat} {c : Int} (hi : table.entries[i]? = some c)
    (hj : table.entries[j]? = some c) : i = j :=
  (List.getElem?_inj (List.getElem?_eq_some_iff.mp hi).1 table.distinct).mp (hi.trans hj.symm)

/-- Settles O44: both readings of the seed give one sum, and equal seed words come from one entry, so from one index. -/
theorem seedWordsAreSumsAndDistinct : Obligations.SeedWordsAreSumsAndDistinct := by
  refine ⟨fun c seed => ⟨seedWord_toNat c seed, ?_⟩, fun table seed => ⟨table.length_eq, ?_⟩⟩
  · rw [seedWord_toNat, add_toInt_emod]
  · intro i j c d hi hj hne heq
    obtain rfl := seedWord_inj hi hj heq
    exact hne (entry_index_inj hi hj)

/-! ## PROBE -/

theorem probeCommand_badDescriptor {P : Params} {s : State} (hw : s.elem.wellFormed = false) :
    probeCommand P s = .ok (raise .badDescriptor s) := by
  simp [probeCommand, hw]

theorem probeCommand_exhausted {P : Params} {s : State} (hw : s.elem.wellFormed = true)
    (hidx : seedTableLen ≤ s.idx.toNat) : probeCommand P s = .ok (raise .probeTableExhausted s) := by
  simp [probeCommand, hw, hidx]

/-- Where its checks pass and its reads are admitted, PROBE reads the element and evaluates the hash once (spec R116). -/
theorem probeCommand_admitted {P : Params} {s : State} (hw : s.elem.wellFormed = true)
    (hidx : s.idx.toNat < seedTableLen) (hread : s.Admitted .read s.elem.base s.elem.len) {w : Word}
    (hword : w = seedWord (seedEntry P s.idx.toNat) s.seed) :
    probeCommand P s = .ok (done false { s.traced (s.readEvents s.elem.len s.elem.base ++ [.hash w]) with
      hashLo := lowHalf (P.h128 s.elementBytes w), hashHi := highHalf (P.h128 s.elementBytes w) }) := by
  have helement : readElement s = .ok (s.elementBytes, s.traced (s.readEvents s.elem.len s.elem.base)) :=
    readBytes_admitted hread fun _ => wellFormed_space hw
  subst hword
  simp only [probeCommand, hw, Nat.not_le.mpr hidx, helement, except_bind_ok, probeHash, log_eq_traced, traced_traced,
    Bool.not_true, Bool.false_eq_true, if_false]
  rfl

/-- Settles O23: the two checks in their order, then the one hash evaluation. -/
theorem probeEffect : Obligations.ProbeEffect := by
  refine fun s => ⟨fun hwrap => ?_, fun hspace hidx => ?_, fun hspace hidx hread => ?_⟩
  · exact congrArg finish (probeCommand_badDescriptor (decide_eq_false (Nat.not_le.mpr hwrap)))
  · exact congrArg finish (probeCommand_exhausted (decide_eq_true hspace) hidx)
  · exact ⟨_, _, _, seedEntry_eq Config.engine hidx, seedWord_toNat _ _, rfl,
      congrArg finish (probeCommand_admitted (decide_eq_true hspace) hidx hread rfl)⟩

end Sys2Proof.Machine
end

section
/-! The binary32 patterns as real numbers (spec R131, R132): the fields of a pattern, and its magnitude as a number of units
of 2^-149, strictly increasing in the pattern. -/

namespace Sys2Proof.Machine

/-! ## The fields -/

theorem sign_eq_decide (b : Half) : b.getLsbD 31 = decide (2 ^ 31 ≤ b.toNat) := BitVec.msb_eq_decide b

/-- The fields of a pattern are its digits in the mixed base (2, 256, 2^23). -/
theorem fields_of_toNat {b : Half} {S E F : Nat} (hb : b.toNat = S * 2 ^ 31 + E * 2 ^ 23 + F) (hS : S < 2) (hE : E < 256)
    (hF : F < 2 ^ 23) :
    b.getLsbD 31 = decide (S = 1) ∧ (b.extractLsb' 23 8).toNat = E ∧ (b.extractLsb' 0 23).toNat = F := by
  rw [sign_eq_decide, expo_toNat, frac_toNat, decide_eq_decide]
  omega

theorem sign_factor {S : Nat} (hS : S < 2) : (if S = 1 then (-1 : ℝ) else 1) = (-1) ^ S := by
  interval_cases S <;> norm_num

/-- Settles O36: the table of R131 row by row. -/
theorem patternDenotesItsBinary32Value : Obligations.PatternDenotesItsBinary32Value := by
  intro b S E F hb hS hE hF
  obtain ⟨hsign, hexpo, hfrac⟩ := fields_of_toNat hb hS hE hF
  simp only [f32val, hsign, hexpo, hfrac]
  refine ⟨fun hzero => ?_, fun hlo hhi => ?_, fun hmax => ?_⟩
  · rw [if_pos hzero]
    by_cases hF0 : F = 0
    · simp [hF0, Float32Value.real]
    · simp [hF0, Float32Value.real, sign_factor hS]
  · rw [if_neg (by omega), if_neg (by omega)]
    simp only [Float32Value.real, decide_eq_true_eq, sign_factor hS]
    rw [Nat.cast_add, Nat.cast_pow, Nat.cast_ofNat]
  · rw [if_neg (by omega), if_pos hmax]
    by_cases hF0 : F = 0 <;> simp [hF0, Float32Value.real]

/-! ## The magnitude -/

/-- The magnitude of the finite pattern whose bits 30:0 are `x`, in units of 2^-149 (spec R131). -/
def magnitude (x : Nat) : Nat :=
  if x / 2 ^ 23 = 0 then x % 2 ^ 23 else (2 ^ 23 + x % 2 ^ 23) * 2 ^ (x / 2 ^ 23 - 1)

theorem magnitude_subnormal {F : Nat} (hF : F < 2 ^ 23) : magnitude F = F := by
  rw [magnitude, Nat.div_eq_of_lt hF, if_pos rfl, Nat.mod_eq_of_lt hF]

theorem magnitude_normal {E F : Nat} (hF : F < 2 ^ 23) :
    magnitude ((E + 1) * 2 ^ 23 + F) = (2 ^ 23 + F) * 2 ^ E := by
  have hdiv : ((E + 1) * 2 ^ 23 + F) / 2 ^ 23 = E + 1 := by omega
  have hmod : ((E + 1) * 2 ^ 23 + F) % 2 ^ 23 = F := by omega
  rw [magnitude, hdiv, hmod, if_neg (Nat.succ_ne_zero E), Nat.add_sub_cancel]

/-- The next pattern denotes the next number, across a change of exponent too. -/
theorem magnitude_strictMono : StrictMono magnitude := by
  refine strictMono_nat_of_lt_succ fun x => ?_
  obtain ⟨E, F, hF, rfl⟩ : ∃ E F, F < 2 ^ 23 ∧ x = E * 2 ^ 23 + F :=
    ⟨x / 2 ^ 23, x % 2 ^ 23, Nat.mod_lt _ (by norm_num), (Nat.div_add_mod' x _).symm⟩
  rcases Nat.lt_or_ge (F + 1) (2 ^ 23) with hnext | hlast
  · cases E with
    | zero => simp [magnitude_subnormal hF, magnitude_subnormal hnext]
    | succ E =>
      rw [Nat.add_assoc, magnitude_normal hF, magnitude_normal hnext]
      exact Nat.mul_lt_mul_of_pos_right (by omega) (by positivity)
  · obtain rfl : F = 2 ^ 23 - 1 := by omega
    cases E with
    | zero => decide
    | succ E =>
      have hroll : (E + 1) * 2 ^ 23 + (2 ^ 23 - 1) + 1 = (E + 1 + 1) * 2 ^ 23 + 0 := by omega
      rw [hroll, magnitude_normal hF, magnitude_normal (by norm_num), Nat.pow_succ]
      have := Nat.two_pow_pos E
      omega

/-- A finite pattern denotes its magnitude with its sign (spec R131). -/
theorem real_of_finite {b : Half} {S x : Nat} (hb : b.toNat = S * 2 ^ 31 + x) (hS : S < 2) (hx : x < 255 * 2 ^ 23) :
    (f32val b).real = some ((-1) ^ S * magnitude x * (2 : ℝ) ^ (-149 : Int)) := by
  obtain ⟨E, F, hF, rfl⟩ : ∃ E F, F < 2 ^ 23 ∧ x = E * 2 ^ 23 + F :=
    ⟨x / 2 ^ 23, x % 2 ^ 23, Nat.mod_lt _ (by norm_num), (Nat.div_add_mod' x _).symm⟩
  obtain ⟨hsub, hnorm, -⟩ :=
    patternDenotesItsBinary32Value b S E F (hb.trans (Nat.add_assoc ..).symm) hS (by omega) hF
  cases E with
  | zero => rw [hsub rfl, Nat.zero_mul, Nat.zero_add, magnitude_subnormal hF]
  | succ E =>
    have hexp : ((E + 1 : Nat) : Int) - 150 = E + (-149) := by push_cast; ring
    rw [hnorm (by omega) (by omega), magnitude_normal hF, hexp, zpow_add₀ two_ne_zero, zpow_natCast]
    push_cast
    ring_nf

theorem real_of_not_finite {b : Half} {S F : Nat} (hb : b.toNat = S * 2 ^ 31 + (255 * 2 ^ 23 + F)) (hS : S < 2)
    (hF : F < 2 ^ 23) : (f32val b).real = none := by
  obtain ⟨-, -, hmax⟩ :=
    patternDenotesItsBinary32Value b S 255 F (hb.trans (Nat.add_assoc ..).symm) hS (by decide) hF
  exact (hmax rfl).1

/-- A legal error rate is its magnitude in units of 2^-149 (spec R131, R132). -/
theorem real_of_legal {b : Half} (h : legalErrorRate b = true) :
    (f32val b).real = some (magnitude b.toNat * (2 : ℝ) ^ (-149 : Int)) := by
  obtain ⟨-, hhi⟩ := of_decide_eq_true h
  rw [real_of_finite (S := 0) (x := b.toNat) (by omega) (by omega) (by omega), pow_zero, one_mul]

/-- The patterns 0x00000000 and 0x3F800000 denote 0 and 1, and magnitudes increase in between (spec R132). -/
theorem magnitude_between (x : Nat) :
    (0 < (magnitude x : ℝ) * 2 ^ (-149 : Int) ∧ (magnitude x : ℝ) * 2 ^ (-149 : Int) < 1) ↔
      0x00000001 ≤ x ∧ x ≤ 0x3F7FFFFF := by
  have hzero : magnitude 0 = 0 := rfl
  have hone : magnitude 0x3F800000 = 2 ^ 149 := by decide
  have hlo : 0 < magnitude x ↔ 0 < x := hzero ▸ magnitude_strictMono.lt_iff_lt (a := 0)
  have hhi : magnitude x < 2 ^ 149 ↔ x < 0x3F800000 := hone ▸ magnitude_strictMono.lt_iff_lt (b := 0x3F800000)
  have hlo' : 0 < (magnitude x : ℝ) * 2 ^ (-149 : Int) ↔ 0 < magnitude x := by
    rw [mul_pos_iff_of_pos_right (by positivity), Nat.cast_pos]
  have hhi' : (magnitude x : ℝ) * 2 ^ (-149 : Int) < 1 ↔ magnitude x < 2 ^ 149 := by
    rw [zpow_neg, ← div_eq_mul_inv, div_lt_one (by positivity)]
    exact_mod_cast Iff.rfl
  rw [hlo', hhi', hlo, hhi]
  omega

/-- Settles O37: a number strictly between 0 and 1 is finite and not negative, so it is a magnitude. -/
theorem legalErrorRatesAreBetweenZeroAndOne : Obligations.LegalErrorRatesAreBetweenZeroAndOne := by
  refine fun b => ⟨⟨fun h => ?_, ?_⟩, decide_eq_true_iff⟩
  · exact ⟨_, real_of_legal h, (magnitude_between _).mpr (of_decide_eq_true h)⟩
  rintro ⟨p, hp, h0, h1⟩
  obtain ⟨S, x, hS, hx, hb⟩ : ∃ S x, S < 2 ∧ x < 2 ^ 31 ∧ b.toNat = S * 2 ^ 31 + x :=
    ⟨b.toNat / 2 ^ 31, b.toNat % 2 ^ 31, by omega, by omega, by omega⟩
  rcases Nat.lt_or_ge x (255 * 2 ^ 23) with hfin | hinf
  · obtain rfl := Option.some.inj ((real_of_finite hb hS hfin).symm.trans hp)
    obtain rfl | rfl : S = 0 ∨ S = 1 := by omega
    · rw [pow_zero, one_mul] at h0 h1
      exact decide_eq_true (by rw [hb, Nat.zero_mul, Nat.zero_add]; exact (magnitude_between x).mp ⟨h0, h1⟩)
    · have : 0 ≤ (magnitude x : ℝ) * 2 ^ (-149 : Int) := by positivity
      linarith
  · obtain ⟨F, rfl⟩ := Nat.exists_eq_add_of_le hinf
    rw [real_of_not_finite hb hS (by omega)] at hp
    cases hp

end Sys2Proof.Machine
end

section
/-! The two deriver functions under the literal constants (spec R133, R136, R137, R144, R149): exact ceilings of
36/25 x n x log2(1/p) and of 69/100 x m / n, their monotonicity and the range of their composition. -/

namespace Sys2Proof.Machine

/-! ## OptimalBits -/

theorem f32val_eq_finite {b : Half} {neg : Bool} {sig : Nat} {exp : Int} (h : f32val b = .finite neg sig exp) :
    neg = b.getLsbD 31 := by
  simp only [f32val] at h
  split_ifs at h <;> cases h <;> rfl

/-- The significand and the scale of a legal error rate give the number it denotes (spec R131). -/
theorem real_of_significand {b : Half} (h : legalErrorRate b = true) :
    (f32val b).real = some (significand b * (2 : ℝ) ^ (-(scale b : Int))) := by
  obtain ⟨neg, sig, sc, hval, -, -⟩ := f32val_legal h
  obtain ⟨-, hhi⟩ := of_decide_eq_true h
  have hneg : neg = false := by
    rw [f32val_eq_finite hval, sign_eq_decide]
    exact decide_eq_false (by omega)
  simp [significand, scale, hval, hneg, Float32Value.real]

/-- log2(1/p) = scale - log2(significand) (spec R134). -/
theorem logb_inv_rate {b : Half} {p : ℝ} (h : legalErrorRate b = true) (hp : (f32val b).real = some p) :
    Real.logb 2 (1 / p) = scale b - Real.logb 2 (significand b) := by
  obtain rfl := Option.some.inj ((real_of_significand h).symm.trans hp)
  have hsig : (significand b : ℝ) ≠ 0 := Nat.cast_ne_zero.mpr (significand_bounds h).1.ne'
  rw [one_div, Real.logb_inv, Real.logb_mul hsig (by positivity), zpow_neg, zpow_natCast, Real.logb_inv, Real.logb_pow,
    Real.logb_self_eq_one (by norm_num)]
  ring

/-- OptimalBits as the formula of R133. -/
theorem optimalBits_eq_ceil (n : Nat) {b : Half} {p : ℝ} (h : legalErrorRate b = true)
    (hp : (f32val b).real = some p) :
    optimalBits .literal n b = ⌈(36 / 25 : ℝ) * n * Real.logb 2 (1 / p)⌉₊ := by
  obtain ⟨h0, hlt⟩ := significand_bounds h
  rw [logb_inv_rate h hp]
  exact optimalBitsAt_eq_ceil n _ _ h0 hlt precisions

/-- Settles O38: the model's bit count is the exact ceiling whatever precisions are tried, and log2(1/p) is its
`scale - log2(significand)`. -/
theorem optimalBitsIsTheExactCeiling : Obligations.OptimalBitsIsTheExactCeiling :=
  fun n _ _ hn h hp => ⟨optimalBits_eq_ceil n h hp, optimalBitsLiteral_pos (Nat.ne_of_gt hn) h⟩

/-! ## OptimalProbes -/

theorem ceilDiv_eq_ceil_rat (a b : Nat) (hb : 0 < b) : ceilDiv a b = ⌈(a / b : ℚ)⌉₊ := by
  refine eq_of_forall_ge_iff fun c => ?_
  rw [ceilDiv_spec a b hb, Nat.ceil_le, div_le_iff₀' (Nat.cast_pos.mpr hb)]
  exact_mod_cast Iff.rfl

theorem optimalProbes_eq_ceilDiv (m n : Nat) : optimalProbes .literal m n = ceilDiv (69 * m) (100 * n) := rfl

/-- The count is at most `k` exactly when 69 m <= 100 n k (spec R136). -/
theorem optimalProbes_le_iff {n : Nat} (hn : 1 ≤ n) (m k : Nat) :
    optimalProbes .literal m n ≤ k ↔ 69 * m ≤ 100 * n * k := ceilDiv_spec _ _ (by omega) k

theorem optimalProbes_pos {m n : Nat} (hm : 1 ≤ m) (hn : 1 ≤ n) : 1 ≤ optimalProbes .literal m n := by
  refine Nat.pos_of_ne_zero fun h0 => ?_
  have := (optimalProbes_le_iff hn m 0).mp h0.le
  omega

/-- OptimalProbes as the formula of R136. -/
theorem optimalProbes_eq_ceil (m : Nat) {n : Nat} (hn : 1 ≤ n) :
    optimalProbes .literal m n = ⌈(69 / 100 : ℚ) * m / n⌉₊ := by
  have hquot : ((69 * m : Nat) : ℚ) / (100 * n : Nat) = 69 / 100 * m / n := by
    push_cast
    ring
  rw [optimalProbes_eq_ceilDiv, ceilDiv_eq_ceil_rat _ _ (by omega), hquot]

/-- Settles O39: the integer form rounds the quotient up. -/
theorem optimalProbesIsTheExactCeiling : Obligations.OptimalProbesIsTheExactCeiling :=
  fun m _ hm hn => ⟨optimalProbes_eq_ceil m hn, rfl, optimalProbes_pos hm hn, fun h => optimalProbes_le h (Nat.ne_of_gt hn)⟩

/-! ## Monotonicity -/

theorem optimalProbes_mono {m m' n : Nat} (hn : 1 ≤ n) (h : m ≤ m') :
    optimalProbes .literal m n ≤ optimalProbes .literal m' n := by
  rw [optimalProbes_le_iff hn]
  have := (optimalProbes_le_iff hn m' _).mp le_rfl
  omega

theorem optimalProbes_anti {m n n' : Nat} (hn : 1 ≤ n) (h : n ≤ n') :
    optimalProbes .literal m n' ≤ optimalProbes .literal m n := by
  rw [optimalProbes_le_iff (hn.trans h)]
  calc 69 * m ≤ 100 * n * optimalProbes .literal m n := (optimalProbes_le_iff hn m _).mp le_rfl
    _ ≤ 100 * n' * optimalProbes .literal m n := by gcongr

theorem logb_inv_rate_nonneg {b : Half} {p : ℝ} (h : legalErrorRate b = true) (hp : (f32val b).real = some p) :
    0 ≤ Real.logb 2 (1 / p) := by
  obtain rfl := Option.some.inj ((real_of_legal h).symm.trans hp)
  obtain ⟨h0, h1⟩ := (magnitude_between _).mpr (of_decide_eq_true h)
  exact Real.logb_nonneg (by norm_num) ((one_le_div h0).mpr h1.le)

/-- A larger pattern denotes a larger number, whose log2(1/p) is smaller (spec R144). -/
theorem logb_inv_rate_anti {b b' : Half} {p p' : ℝ} (h : legalErrorRate b = true) (h' : legalErrorRate b' = true)
    (hp : (f32val b).real = some p) (hp' : (f32val b').real = some p') (hle : b.toNat ≤ b'.toNat) :
    Real.logb 2 (1 / p') ≤ Real.logb 2 (1 / p) := by
  obtain rfl := Option.some.inj ((real_of_legal h).symm.trans hp)
  obtain rfl := Option.some.inj ((real_of_legal h').symm.trans hp')
  obtain ⟨h0, -⟩ := (magnitude_between _).mpr (of_decide_eq_true h)
  obtain ⟨h0', -⟩ := (magnitude_between _).mpr (of_decide_eq_true h')
  have hmag : (magnitude b.toNat : ℝ) ≤ magnitude b'.toNat :=
    Nat.cast_le.mpr (magnitude_strictMono.monotone hle)
  exact Real.logb_le_logb_of_le (by norm_num) (by positivity) (one_div_le_one_div_of_le h0 (by gcongr))

theorem optimalBits_mono {n n' : Nat} {b : Half} (h : legalErrorRate b = true) (hn : n ≤ n') :
    optimalBits .literal n b ≤ optimalBits .literal n' b := by
  have hlog := logb_inv_rate_nonneg h (real_of_legal h)
  rw [optimalBits_eq_ceil n h (real_of_legal h), optimalBits_eq_ceil n' h (real_of_legal h)]
  gcongr

theorem optimalBits_anti (n : Nat) {b b' : Half} (h : legalErrorRate b = true) (h' : legalErrorRate b' = true)
    (hle : b.toNat ≤ b'.toNat) : optimalBits .literal n b' ≤ optimalBits .literal n b := by
  have hlog := logb_inv_rate_anti h h' (real_of_legal h) (real_of_legal h') hle
  rw [optimalBits_eq_ceil n h (real_of_legal h), optimalBits_eq_ceil n h' (real_of_legal h')]
  gcongr

/-- Settles O40: ceilings keep the order of the exact values; the composition's four values are computed. -/
theorem deriverIsMonotone : Obligations.DeriverIsMonotone :=
  ⟨fun _ _ _ _ hn h => optimalBits_mono h hn, fun n _ _ _ h h' hle => optimalBits_anti n h h' hle,
    fun _ _ _ _ hn h => optimalProbes_mono hn h, fun _ _ _ _ hn h => optimalProbes_anti hn h, by decide +kernel,
    by decide +kernel, by decide +kernel, by decide +kernel⟩

/-! ## The composition -/

/-- log2(1/p) is at most 149, its value at the least pattern (spec R135). -/
theorem logb_inv_rate_le {b : Half} {p : ℝ} (h : legalErrorRate b = true) (hp : (f32val b).real = some p) :
    Real.logb 2 (1 / p) ≤ 149 := by
  obtain ⟨hlo, -⟩ := of_decide_eq_true h
  have hleast : legalErrorRate 0x00000001#32 = true := by decide
  have hone : magnitude (0x00000001#32 : Half).toNat = 1 := rfl
  refine (logb_inv_rate_anti hleast h (real_of_legal hleast) hp hlo).trans_eq ?_
  rw [hone, Nat.cast_one, one_mul, one_div, zpow_neg, inv_inv, zpow_ofNat, Real.logb_pow,
    Real.logb_self_eq_one (by norm_num)]
  norm_num

/-- Before m is rounded up it is at most 36/25 x 149 x n, and 69/100 of that and of one bit more is below 149 n
(spec R137). -/
theorem composedProbes_le {n : Nat} {b : Half} (hn : 1 ≤ n) (h : legalErrorRate b = true) :
    optimalProbes .literal (optimalBits .literal n b) n ≤ 149 := by
  have hlog := logb_inv_rate_le h (real_of_legal h)
  have hlog0 := logb_inv_rate_nonneg h (real_of_legal h)
  have hn' : (1 : ℝ) ≤ n := Nat.one_le_cast.mpr hn
  have hceil : (optimalBits .literal n b : ℝ) < 36 / 25 * n * 149 + 1 := by
    rw [optimalBits_eq_ceil n h (real_of_legal h)]
    refine (Nat.ceil_lt_add_one (by positivity)).trans_le ?_
    gcongr
  rw [optimalProbes_le_iff hn]
  have : (69 : ℝ) * optimalBits .literal n b ≤ 100 * n * 149 := by linarith
  exact_mod_cast this

/-- Settles O42: the bounds of the two ceilings, and R149's criterion is the bound on the count at 100. -/
theorem composedProbeCountRange : Obligations.ComposedProbeCountRange := by
  refine ⟨fun n b hn h => ⟨optimalProbes_pos (optimalBitsLiteral_pos (Nat.ne_of_gt hn) h) hn, composedProbes_le hn h⟩,
    by decide +kernel, by decide +kernel, fun m n hn => ?_⟩
  rw [← not_le, optimalProbes_le_iff hn]
  omega

end Sys2Proof.Machine
end

section
/-! The two deriver functions under the alternative constants (spec R147): a bracket with one ceiling decides the exact
ceiling. -/

namespace Sys2Proof.Machine

/-- The first term of the series alone is at least 1. -/
theorem lnTwoSum_pos {width n : Nat} (hwidth : 0 < width) (hn : 0 < n) : 0 < lnTwoSum width n := by
  induction n with
  | zero => omega
  | succ n ih =>
    rw [lnTwoSum]
    cases n with
    | zero => exact Nat.add_pos_right _ (Nat.div_pos (by simpa using Nat.pow_le_pow_right two_pos hwidth) (by decide))
    | succ n => exact Nat.add_pos_left (ih n.succ_pos) _

theorem lnTwoBelow_pos {width : Nat} (hwidth : 0 < width) : 0 < lnTwoBelow width := lnTwoSum_pos hwidth hwidth

theorem lnTwoAbove_pos (width : Nat) : 0 < lnTwoAbove width := Nat.succ_pos _

/-! ## OptimalBits -/

theorem optimalBitsLn2At_cons_decided {steps n : Nat} {b : Half} (more : List Nat) (h : bitsDecided steps n b) :
    optimalBitsLn2At n b (steps :: more) =
      ceilDiv (n * rateLogAbove steps (significand b) (scale b)) (lnTwoBelow steps) := if_pos h

theorem optimalBitsLn2At_cons_undecided {steps n : Nat} {b : Half} (more : List Nat) (h : ¬bitsDecided steps n b) :
    optimalBitsLn2At n b (steps :: more) = optimalBitsLn2At n b more := if_neg h

/-- What the bracket at `steps` gives for the bit count. -/
theorem bits_bracket {steps n : Nat} {b : Half} {p : ℝ} (hsteps : 0 < steps) (h : legalErrorRate b = true)
    (hp : (f32val b).real = some p) (hdecided : bitsDecided steps n b) :
    ceilDiv (n * rateLogAbove steps (significand b) (scale b)) (lnTwoBelow steps) =
      ⌈n * Real.logb 2 (1 / p) / Real.log 2⌉₊ := by
  obtain ⟨h0, hlt⟩ := significand_bounds h
  obtain ⟨hln, hln'⟩ := lnTwo_bracket steps
  have hbelow := rateLogBelow_le steps _ _ h0 hlt
  have habove := le_rateLogAbove steps _ _ h0 hlt
  have hlog := logb_inv_rate_nonneg h hp
  rw [← logb_inv_rate h hp] at hbelow habove
  have hln0 : (0 : ℝ) < lnTwoBelow steps := Nat.cast_pos.mpr (lnTwoBelow_pos hsteps)
  have hlog2 : 0 < Real.log 2 := Real.log_pos one_lt_two
  have hscaled : n * Real.logb 2 (1 / p) / Real.log 2 =
      n * (2 ^ steps * Real.logb 2 (1 / p)) / (2 ^ steps * Real.log 2) := by
    field_simp
  unfold bitsDecided at hdecided
  rw [ceilDiv_eq_ceil _ _ (lnTwoAbove_pos steps), ceilDiv_eq_ceil _ _ (lnTwoBelow_pos hsteps)] at hdecided
  rw [ceilDiv_eq_ceil _ _ (lnTwoBelow_pos hsteps), hscaled]
  exact (ceil_of_bracket (by push_cast; gcongr) (by push_cast; gcongr) hdecided).symm

/-- Whatever precisions are tried, one that decides gives the exact ceiling. -/
theorem optimalBitsLn2At_eq_ceil {n : Nat} {b : Half} {p : ℝ} (h : legalErrorRate b = true)
    (hp : (f32val b).real = some p) {tried : List Nat} (hpos : ∀ steps ∈ tried, 0 < steps)
    (hdecided : ∃ steps ∈ tried, bitsDecided steps n b) :
    optimalBitsLn2At n b tried = ⌈n * Real.logb 2 (1 / p) / Real.log 2⌉₊ := by
  induction tried with
  | nil => simp at hdecided
  | cons steps more ih =>
    obtain ⟨hsteps, hmore⟩ := List.forall_mem_cons.mp hpos
    by_cases hfirst : bitsDecided steps n b
    · rw [optimalBitsLn2At_cons_decided more hfirst, bits_bracket hsteps h hp hfirst]
    · rw [optimalBitsLn2At_cons_undecided more hfirst,
        ih hmore ((List.exists_mem_cons_iff ..).mp hdecided |>.resolve_left hfirst)]

theorem optimalBitsLn2At_open {n : Nat} {b : Half} {tried : List Nat} (hopen : ∀ steps ∈ tried, ¬bitsDecided steps n b) :
    optimalBitsLn2At n b tried = Config.ln2BitsOpen n b := by
  induction tried with
  | nil => rfl
  | cons steps more ih =>
    obtain ⟨hne, hmore⟩ := List.forall_mem_cons.mp hopen
    rw [optimalBitsLn2At_cons_undecided more hne, ih hmore]

/-! ## OptimalProbes -/

theorem optimalProbesLn2At_cons_decided {width m n : Nat} (more : List Nat) (h : probesDecided width m n) :
    optimalProbesLn2At m n (width :: more) = ceilDiv (lnTwoAbove width * m) (2 ^ width * n) := if_pos h

theorem optimalProbesLn2At_cons_undecided {width m n : Nat} (more : List Nat) (h : ¬probesDecided width m n) :
    optimalProbesLn2At m n (width :: more) = optimalProbesLn2At m n more := if_neg h

/-- What the bracket at `width` gives for the probe count. -/
theorem probes_bracket {width m n : Nat} (hn : 1 ≤ n) (hdecided : probesDecided width m n) :
    ceilDiv (lnTwoAbove width * m) (2 ^ width * n) = ⌈Real.log 2 * m / n⌉₊ := by
  obtain ⟨hln, hln'⟩ := lnTwo_bracket width
  have hden : 0 < 2 ^ width * n := by positivity
  have hscaled : Real.log 2 * m / n = 2 ^ width * Real.log 2 * m / (2 ^ width * n) := by
    field_simp
  unfold probesDecided at hdecided
  rw [ceilDiv_eq_ceil _ _ hden, ceilDiv_eq_ceil _ _ hden] at hdecided
  rw [ceilDiv_eq_ceil _ _ hden, hscaled]
  exact (ceil_of_bracket (by push_cast; gcongr) (by push_cast; gcongr) hdecided).symm

theorem optimalProbesLn2At_eq_ceil {m n : Nat} (hn : 1 ≤ n) {tried : List Nat}
    (hdecided : ∃ width ∈ tried, probesDecided width m n) :
    optimalProbesLn2At m n tried = ⌈Real.log 2 * m / n⌉₊ := by
  induction tried with
  | nil => simp at hdecided
  | cons width more ih =>
    by_cases hfirst : probesDecided width m n
    · rw [optimalProbesLn2At_cons_decided more hfirst, probes_bracket hn hfirst]
    · rw [optimalProbesLn2At_cons_undecided more hfirst,
        ih ((List.exists_mem_cons_iff ..).mp hdecided |>.resolve_left hfirst)]

theorem optimalProbesLn2At_open {m n : Nat} {tried : List Nat} (hopen : ∀ width ∈ tried, ¬probesDecided width m n) :
    optimalProbesLn2At m n tried = Config.ln2ProbesOpen m n := by
  induction tried with
  | nil => rfl
  | cons width more ih =>
    obtain ⟨hne, hmore⟩ := List.forall_mem_cons.mp hopen
    rw [optimalProbesLn2At_cons_undecided more hne, ih hmore]

/-! ## The values R147 lists -/

/-- A row of R147 whose two ceilings the first precision decides. -/
def Ln2Row (n : Nat) (b : Half) (m k : Nat) : Prop :=
  bitsDecided 96 n b ∧ probesDecided 96 m n ∧ optimalBits .ln2 n b = m ∧ optimalProbes .ln2 m n = k

theorem ln2Rows : ∀ row ∈ [(1000, 0x3C23D70A#32, 9586, 7), (1000000, 0x3C23D70A#32, 9585059, 7),
    (25, 0x3F000000#32, 37, 2), (1000, 0x0D800000#32, 144270, 101)], Ln2Row row.1 row.2.1 row.2.2.1 row.2.2.2 := by
  unfold Ln2Row bitsDecided probesDecided
  decide +kernel

/-- Settles O43: brackets of log2 and of ln 2 give brackets of both quotients; R147's values are computed. -/
theorem ln2ConfigurationIsSound : Obligations.Ln2ConfigurationIsSound := by
  refine ⟨fun n b p _ h hp => ⟨fun steps hsteps hdecided => ?_, optimalBitsLn2At_open⟩,
    fun m n _ hn => ⟨fun width hwidth hdecided => ?_, optimalProbesLn2At_open⟩, fun n b m k => ln2Rows (n, b, m, k)⟩
  · exact optimalBitsLn2At_eq_ceil h hp (by decide) ⟨steps, hsteps, hdecided⟩
  · exact optimalProbesLn2At_eq_ceil hn ⟨width, hwidth, hdecided⟩

end Sys2Proof.Machine
end

section
/-! The commands that derive (spec R138 to R143): the deriver's domain, OPTBITS, OPTPROBES and DERIVE on every state, and the
filter INIT leaves (spec R193, R200). -/

namespace Sys2Proof.Machine

/-! ## The domain of the deriver -/

theorem illegal_iff (b : Half) : (!legalErrorRate b) = true ↔ b.toNat < 0x00000001 ∨ 0x3F7FFFFF < b.toNat := by
  rw [legalErrorRate, Bool.not_eq_true', decide_eq_false_iff_not]
  omega

/-- The domain as one condition (spec R139). -/
theorem deriveBits_literal (n : Nat) (b : Half) :
    deriveBits .literal n b =
      if n = 0 ∨ b.toNat < 0x00000001 ∨ 0x3F7FFFFF < b.toNat ∨ 2 ^ 64 - 8 < optimalBits .literal n b then none
      else some (optimalBits .literal n b) := by
  simp only [deriveBits, illegal_iff, ite_or]

theorem derive_literal (n : Nat) (b : Half) :
    derive .literal n b =
      if n = 0 ∨ b.toNat < 0x00000001 ∨ 0x3F7FFFFF < b.toNat ∨ 2 ^ 64 - 8 < optimalBits .literal n b then none
      else some (optimalBits .literal n b, optimalProbes .literal (optimalBits .literal n b) n) := by
  rw [derive, deriveBits_literal]
  split_ifs <;> rfl

/-! ## The commands -/

/-- Settles O20: OPTBITS has a result exactly in the deriver's domain. -/
theorem optbitsEffect : Obligations.OptbitsEffect := by
  intro s
  have hbits : deriveBits Config.engine.constants s.capacity.toNat s.errorRate = _ := deriveBits_literal _ _
  rw [exec, execOptbits, optbitsCommand, hbits]
  split_ifs <;> rfl

/-- Settles O21: OPTPROBES is the formula of R136 behind its one check. -/
theorem optprobesEffect : Obligations.OptprobesEffect := by
  intro s
  rw [exec, execOptprobes, optprobesCommand]
  split <;> rfl

/-- Settles O22: the domain first, then the bound of the seed table. -/
theorem deriveEffect : Obligations.DeriveEffect := by
  rintro s m k rfl hk
  obtain rfl : k = optimalProbes .literal _ _ := hk
  have hderive : derive Config.engine.constants s.capacity.toNat s.errorRate = _ := derive_literal _ _
  rw [exec, execDerive, deriveCommand, hderive]
  split_ifs with hdomain hk
  · rfl
  · exact congrArg _ (if_pos hk)
  · exact congrArg _ (if_neg hk)

/-! ## INIT -/

/-- What a derived pair says of its arguments (spec R138). -/
theorem derive_eq_some {n m k : Nat} {b : Half} (h : derive .literal n b = some (m, k)) :
    n ≠ 0 ∧ 0x00000001 ≤ b.toNat ∧ b.toNat ≤ 0x3F7FFFFF ∧ m = optimalBits .literal n b ∧ m ≤ 2 ^ 64 - 8 ∧
      k = optimalProbes .literal m n := by
  rw [derive_literal, Option.ite_none_left_eq_some] at h
  obtain ⟨hdomain, hpair⟩ := h
  cases hpair
  simp only [not_or, not_lt] at hdomain
  obtain ⟨hn, hlo, hhi, hmax⟩ := hdomain
  exact ⟨hn, hlo, hhi, rfl, hmax, rfl⟩

/-- Where INIT's checks pass, the registers derive a filter of the buffer's size (spec R200). -/
theorem initCheck_derive {s : State} {n : Nat} (h : initCheck Config.engine s = .ok n) :
    ∃ m k, derive .literal s.capacity.toNat s.errorRate = some (m, k) ∧ n = arrayBytes m ∧ k ≤ seedTableLen := by
  unfold initCheck at h
  split at h
  · cases h
  · split at h
    · cases h
    · next m k hderive =>
      split at h
      · cases h
      · next hk =>
        split at h
        · cases h
        · cases h
          exact ⟨m, k, hderive, rfl, Nat.le_of_not_lt hk⟩

/-- An INIT that ends OK leaves the new filter's bytes in the buffer (spec R200). -/
theorem byteAt_of_init {s t : State} (hwf : Memory.wf s.mem = true) (h : exec .init s = .next t) (hcode : t.code = 0#4) :
    ∃ n, initCheck Config.engine s = .ok n ∧
      ∀ i v, (s.newFilterBytes n)[i]? = some v → t.byteAt (s.buf0.base + i) = v := by
  obtain ⟨c, -, rfl⟩ | ⟨n, hn, rfl⟩ := initCommand_next (finish_eq_next h)
  · exact absurd ((code_raise c s).symm.trans hcode) (number_ne_zero c)
  · refine ⟨n, hn, fun i v hv => ?_⟩
    rw [done_byteAt, traced_byteAt]
    exact storeBytes_byteAt hwf (newFilterBytes_length s n ▸ initCheck_space hn) hv

/-- A new filter's header reads back as the registers (spec R64, R65). -/
theorem headerAt_newFilter {s t : State} {n base : Nat}
    (h : ∀ i v, (s.newFilterBytes n)[i]? = some v → t.byteAt (base + i) = v) : t.headerAt base = s.newHeader := by
  have hbytes := bytesAt_eq h
  rw [newFilterBytes_length, bytesAt_add, State.newFilterBytes] at hbytes
  rw [State.headerAt, List.append_inj_left hbytes (by rw [bytesAt_length, header_bytes_length]), headerOf_bytes]

theorem bitAt_of_zero {s : State} {arr q : Nat} (h : s.byteAt (arr + q / 8) = 0x00#8) : s.bitAt arr q = false := by
  rw [State.bitAt, h, BitVec.getLsbD_zero]

/-- Settles O47: the buffer holds the new filter's bytes, and INIT's checks are R193's conditions on its header. -/
theorem initMakesAValidEmptyFilter : Obligations.InitMakesAValidEmptyFilter := by
  intro s t hwf hexec hcode
  obtain ⟨n, hcheck, hbyte⟩ := byteAt_of_init hwf hexec hcode
  obtain ⟨m, k, hderive, rfl, hk⟩ := initCheck_derive hcheck
  obtain ⟨hn, hlo, hhi, hm, hmax, hprobes⟩ := derive_eq_some hderive
  obtain ⟨-, -, -, hzero⟩ := newFilterBytes_getElem? s (arrayBytes m)
  have hheader : t.headerAt s.buf0Base.toNat = s.newHeader := headerAt_newFilter hbyte
  have hlen : s.buf0Len.toNat = 20 + arrayBytes m := initCheck_len hcheck
  refine ⟨hheader, ⟨m, k, ?_⟩, fun q hq => bitAt_of_zero ?_⟩
  · rw [State.HoldsFilter, hheader]
    exact ⟨by omega, hn, hlo, hhi, hm, hmax, by rw [hlen, Nat.add_sub_cancel_left]; rfl, hprobes, hk⟩
  · rw [Nat.add_assoc]
    exact hbyte _ _ (hzero (q / 8) (by omega))

end Sys2Proof.Machine
end

section
/-! The bit array codec (spec R170 to R178): SETBIT and TESTBIT on every path of their checks, the bits they set and read,
and the laws of repeated SETBITs. -/

namespace Sys2Proof.Machine

/-! ## The checks -/

/-- The three checks pass on good operands (spec R173). -/
theorem bareArrayError_eq_none {s : State} (hspace : s.buf0Base.toNat + s.buf0Len.toNat ≤ 2 ^ 64)
    (hpos : 0 < s.bitlen.toNat) (hlen : s.bitlen.toNat ≤ 8 * s.buf0Len.toNat) : bareArrayError s = none := by
  have hw : s.buf0.wellFormed = true := decide_eq_true hspace
  have hfits : ¬8 * s.buf0.len < s.bitlen.toNat := Nat.not_lt.mpr hlen
  rw [bareArrayError, hw, if_neg (by decide), if_neg (Nat.ne_of_gt hpos), if_neg hfits]

/-- SETBIT and TESTBIT raise the error of their checks, without an access (spec R173). -/
theorem exec_of_bareArrayError {i : Instr} {s : State} {c : ErrorCode} (hi : i ∈ [Instr.setbit, .testbit])
    (hc : bareArrayError s = some c) : exec i s = .next (raise c s) := by
  obtain rfl | rfl : i = .setbit ∨ i = .testbit := by simpa using hi
  · simp only [exec, execSetbit, setbitCommand, hc, except_pure, finish_ok]
  · simp only [exec, execTestbit, testbitCommand, hc, except_pure, finish_ok]

/-- Settles O24: by the three branches of the checks. -/
theorem bitCommandChecks : Obligations.BitCommandChecks := by
  intro i s hi
  refine ⟨fun hwrap => exec_of_bareArrayError (c := .badDescriptor) hi ?_,
    fun hspace hzero => exec_of_bareArrayError (c := .invalidArgument) hi ?_,
    fun hspace hpos hlong => exec_of_bareArrayError (c := .badDescriptor) hi ?_⟩
  · have hw : s.buf0.wellFormed = false := decide_eq_false (Nat.not_le.mpr hwrap)
    rw [bareArrayError, hw, if_pos (by decide)]
  · have hw : s.buf0.wellFormed = true := decide_eq_true hspace
    rw [bareArrayError, hw, if_neg (by decide), if_pos hzero]
  · have hw : s.buf0.wellFormed = true := decide_eq_true hspace
    have hexceeds : 8 * s.buf0.len < s.bitlen.toNat := hlong
    rw [bareArrayError, hw, if_neg (by decide), if_neg hpos, if_pos hexceeds]

/-! ## SETBIT and TESTBIT where the checks pass -/

/-- Where its checks pass and its accesses are admitted, SETBIT sets the folded bit (spec R174). -/
theorem exec_setbit_admitted {s : State} {q : Nat} (hc : bareArrayError s = none) (hq : q = fold s.pos s.bitlen.toNat)
    (hread : s.admits .read (bitAddress s.buf0.base q) = true)
    (hwrite : s.admits .write (bitAddress s.buf0.base q) = true) :
    exec .setbit s =
      .next (done false ((storeBit s s.buf0.base q).traced (setBitEvents s s.buf0.base q))) := by
  subst hq
  simp only [exec, execSetbit, setbitCommand, hc, setBit_admitted (bareArray_bit hc) hread hwrite, except_bind_ok,
    except_pure, finish_ok]

/-- Where its checks pass and its read is admitted, TESTBIT returns the folded bit (spec R176). -/
theorem exec_testbit_admitted {s : State} {q : Nat} (hc : bareArrayError s = none) (hq : q = fold s.pos s.bitlen.toNat)
    (hread : s.admits .read (bitAddress s.buf0.base q) = true) :
    exec .testbit s = .next (done (s.bitAt s.buf0.base q)
      (s.traced [.read (bitAddress s.buf0.base q) (s.byteAt (bitAddress s.buf0.base q))])) := by
  subst hq
  simp only [exec, execTestbit, testbitCommand, hc, testBit_admitted (bareArray_bit hc) hread, except_bind_ok,
    except_pure, finish_ok]

/-- A SETBIT that answers after its checks was admitted both accesses (spec R77, R172). -/
theorem admits_of_setbit {s t : State} (h : exec .setbit s = .next t) (hc : bareArrayError s = none) :
    s.admits .read (bitAddress s.buf0.base (fold s.pos s.bitlen.toNat)) = true ∧
      s.admits .write (bitAddress s.buf0.base (fold s.pos s.bitlen.toNat)) = true := by
  have hrun : setbitCommand s = .ok t := finish_eq_next h
  rw [setbitCommand, hc] at hrun
  obtain ⟨u, hset, -⟩ := except_bind_eq_ok hrun
  obtain ⟨-, -, hadmits⟩ := setBit_next hset
  exact hadmits

/-- STATUS after a bit was returned, the bit found by arithmetic on the byte (spec R175, R251). -/
theorem statusOfResult_testBit (b : Byte) (j : Nat) :
    statusOfResult (b.getLsbD j) = if b.toNat / 2 ^ j % 2 = 1 then 0x100#32 else 0x000#32 := by
  rw [← BitVec.testBit_toNat, Nat.testBit_eq_decide_div_mod_eq]
  split
  · next h => rw [decide_eq_true h]; rfl
  · next h => rw [decide_eq_false h]; rfl

/-- Settles O25: the checks pass, both accesses are admitted, and SetBit changes one byte. -/
theorem setbitEffect : Obligations.SetbitEffect := by
  intro s q a hwf hspace hpos hlen hq ha hread hwrite
  subst ha
  have hexec := exec_setbit_admitted (bareArrayError_eq_none hspace hpos hlen) hq hread hwrite
  obtain ⟨hget, hframe⟩ := commandsWriteOnlyTheirRegisters .setbit s _ hexec
  refine ⟨_, hexec, rfl, ⟨fun r hr => hget r (by simpa [writtenBy] using hr), hframe⟩, fun b => ?_, rfl⟩
  rw [done_byteAt, traced_byteAt, storeBit_byteAt s hwf]
  exact if_congr eq_comm rfl rfl

/-- Settles O26: the checks pass, the read is admitted, and RESULT is the bit read. -/
theorem testbitEffect : Obligations.TestbitEffect := by
  intro s q a hspace hpos hlen hq ha hread
  subst ha
  rw [exec_testbit_admitted (bareArrayError_eq_none hspace hpos hlen) hq hread, ← statusOfResult_testBit]
  rfl

/-! ## Laws -/

/-- Settles O45: TESTBIT reads the folded bit, in the array SETBIT has left and in the one before it. -/
theorem testbitAfterSetbit : Obligations.TestbitAfterSetbit := by
  intro s t pos' hwf hset hcode hread
  obtain ⟨c, -, rfl⟩ | ⟨hc, rfl⟩ := setbitCommand_next (finish_eq_next hset)
  · exact absurd ((code_raise c s).symm.trans hcode) (number_ne_zero c)
  · have hbit := storeBit_bitAt s hwf s.buf0.base (fold s.pos s.bitlen.toNat) (fold pos' s.bitlen.toNat)
    refine ⟨_, _, exec_testbit_admitted hc rfl hread, exec_testbit_admitted hc rfl hread, code_done _ _, code_done _ _,
      fun hsame => ?_, fun hother => ?_⟩
    · rw [decide_eq_true hsame, Bool.or_true] at hbit
      exact (result_done _ _).trans hbit
    · rw [decide_eq_false hother, Bool.or_false] at hbit
      exact (result_done _ _).trans (hbit.trans (result_done _ _).symm)

/-- The byte at each address after two SetBits of one array (spec R172). -/
theorem storeBit_storeBit_byteAt {s : State} (hwf : Memory.wf s.mem = true) {arr q : Nat}
    (hq : bitAddress arr q < addressSpace) (r a : Nat) :
    (storeBit (storeBit s arr q) arr r).byteAt a =
      s.byteAt a ||| (if bitAddress arr q = a then bitMask q else 0#8) |||
        (if bitAddress arr r = a then bitMask r else 0#8) := by
  rw [storeBit_byteAt _ (storeBit_wf s hwf arr q hq), storeBit_byteAt s hwf]
  split <;> split <;> simp

/-- SetBit of a set bit changes nothing (spec R178). -/
theorem storeBit_storeBit_self {s : State} (hwf : Memory.wf s.mem = true) {arr q : Nat}
    (hq : bitAddress arr q < addressSpace) : (storeBit (storeBit s arr q) arr q).mem = (storeBit s arr q).mem := by
  have hwf' := storeBit_wf s hwf arr q hq
  refine wf_ext _ _ (storeBit_wf _ hwf' arr q hq) hwf' fun a => ?_
  refine (storeBit_storeBit_byteAt hwf hq q a).trans (.trans ?_ (storeBit_byteAt s hwf arr q a).symm)
  split
  · rw [BitVec.or_assoc, BitVec.or_self]
  · rw [BitVec.or_zero, BitVec.or_zero]

/-- Two SetBits of one array commute (spec R178). -/
theorem storeBit_storeBit_comm {s : State} (hwf : Memory.wf s.mem = true) {arr q r : Nat}
    (hq : bitAddress arr q < addressSpace) (hr : bitAddress arr r < addressSpace) :
    (storeBit (storeBit s arr q) arr r).mem = (storeBit (storeBit s arr r) arr q).mem := by
  refine wf_ext _ _ (storeBit_wf _ (storeBit_wf s hwf arr q hq) arr r hr)
    (storeBit_wf _ (storeBit_wf s hwf arr r hr) arr q hq) fun a => ?_
  refine (storeBit_storeBit_byteAt hwf hq r a).trans (.trans ?_ (storeBit_storeBit_byteAt hwf hr q a).symm)
  rw [BitVec.or_assoc, BitVec.or_assoc, BitVec.or_comm (if bitAddress arr q = a then _ else _)]

/-- Settles O46: the checks and the admissions are those of the first SETBIT, and SetBit is idempotent and commutes. -/
theorem setbitIsIdempotentAndCommutes : Obligations.SetbitIsIdempotentAndCommutes := by
  refine ⟨fun s t hwf h => ?_, fun s t1 t2 pos' hwf h1 h2 => ?_⟩
  · obtain ⟨c, hc, rfl⟩ | ⟨hc, rfl⟩ := setbitCommand_next (finish_eq_next h)
    · exact ⟨_, exec_of_bareArrayError (by decide) hc, rfl⟩
    · obtain ⟨hread, hwrite⟩ := admits_of_setbit h hc
      exact ⟨_, exec_setbit_admitted hc rfl hread hwrite, storeBit_storeBit_self hwf (bareArray_bit hc)⟩
  · obtain ⟨c, hc, rfl⟩ | ⟨hc, rfl⟩ := setbitCommand_next (finish_eq_next h1)
    · have hc' : bareArrayError { s with pos := pos' } = some c := hc
      obtain rfl := Host.Outcome.next.inj ((exec_of_bareArrayError (i := .setbit) (by decide) hc').symm.trans h2)
      exact ⟨_, _, exec_of_bareArrayError (by decide) hc, exec_of_bareArrayError (by decide) hc, rfl⟩
    · have hc' : bareArrayError { s with pos := pos' } = none := hc
      obtain ⟨hread, hwrite⟩ := admits_of_setbit h1 hc
      obtain ⟨hread', hwrite'⟩ := admits_of_setbit h2 hc'
      obtain rfl := Host.Outcome.next.inj ((exec_setbit_admitted hc' rfl hread' hwrite').symm.trans h2)
      exact ⟨_, _, exec_setbit_admitted hc rfl hread' hwrite', exec_setbit_admitted hc rfl hread hwrite,
        storeBit_storeBit_comm hwf (bareArray_bit hc) (bareArray_bit hc')⟩

end Sys2Proof.Machine
end

section
/-! What every command keeps (spec R36, R66, R70, R76), in the form the laws of the filter commands use. -/

namespace Sys2Proof.Machine

theorem admits_congr {s t : State} (h : t.denied = s.denied) (kind : AccessKind) (a : Nat) :
    t.admits kind a = s.admits kind a := by simp only [State.admits, h]

theorem overlaps_eq_false {d e : Descriptor} (h : d.overlaps e = false) {a : Nat} (ha : inRange d.base d.len a = true) :
    ¬inRange e.base e.len a = true := by
  simp only [Descriptor.overlaps, decide_eq_false_iff_not] at h
  rw [inRange_iff] at ha ⊢
  omega

/-- ADD, SETBIT and MERGE clear no bit (spec R70). -/
theorem exec_onlySetsBits {i : Instr} {s t : State} (hi : i ∈ [Instr.add, .setbit, .merge]) (hwf : Memory.wf s.mem = true)
    (h : exec i s = .next t) {a j : Nat} (hj : (s.byteAt a).getLsbD j = true) : (t.byteAt a).getLsbD j = true := by
  obtain ⟨events, -, haccesses, hreplay, hspace⟩ := exec_events h
  have hbit := (haccesses.setsBits hi).read_apply hwf hspace hj
  rwa [apply_of_replay hreplay] at hbit

/-- Every command keeps the canonical form. -/
theorem exec_wf {i : Instr} {s t : State} (hwf : Memory.wf s.mem = true) (h : exec i s = .next t) :
    Memory.wf t.mem = true := by
  obtain ⟨events, -, -, hreplay, hspace⟩ := exec_events h
  exact apply_of_replay hreplay ▸ apply_wf hwf hspace

/-- ADD and MERGE write behind the header of BUF0 (spec R66). -/
theorem storesTo_array {i : Instr} {s : State} {a : Nat} (hi : i ∈ [Instr.add, .merge]) (h : StoresTo i s a) :
    inRange (s.buf0.base + headerBytes) (s.buf0.len - headerBytes) a = true := by
  obtain rfl | rfl : i = .add ∨ i = .merge := by simpa using hi
  · obtain ⟨f, hf, q, hq, rfl⟩ := h
    exact probeBits_inRange hf hq
  · exact h

/-- A command writes BUF0 only (spec R76). -/
theorem storesTo_buf0 {i : Instr} {s : State} {a : Nat} (h : StoresTo i s a) :
    inRange s.buf0.base s.buf0.len a = true := by
  cases i with
  | setbit =>
    obtain ⟨hc, rfl⟩ := h
    exact bareArray_inRange hc
  | init => exact h
  | add | merge => exact inRange_of_array (storesTo_array (by decide) h)
  | nop | optbits | optprobes | derive | probe | testbit | test => exact h.elim

/-- Every access a command that answered has made was admitted (spec R77). -/
theorem admitsEvent_of_trace {i : Instr} {s t : State} {events : List PortEvent} (h : exec i s = .next t)
    (htrace : t.trace = s.trace ++ events) : ∀ e ∈ events, s.admitsEvent e = true := by
  obtain ⟨-, events', htrace', hadmitted⟩ := exec_unrestricted_next h
  obtain rfl := List.append_cancel_left (htrace.symm.trans htrace')
  exact hadmitted

theorem read_mem_readEvents (s : State) {n a b : Nat} (hlo : a ≤ b) (hhi : b < a + n) :
    .read b (s.byteAt b) ∈ s.readEvents n a := by
  induction n generalizing a with
  | zero => omega
  | succ n ih =>
    obtain rfl | hlt := Nat.eq_or_lt_of_le hlo
    · exact List.mem_cons_self
    · exact List.mem_cons_of_mem _ (ih hlt (by omega))

theorem admitted_of_readEvents {s : State} {n a : Nat} (h : ∀ e ∈ s.readEvents n a, s.admitsEvent e = true) :
    s.Admitted .read a n := fun _ hlo hhi => h _ (read_mem_readEvents s hlo hhi)

theorem mem_addEvents_of_bit {P : Params} {e : List Byte} {seed : Word} {arr bitLength : Nat} {entries : List Int}
    {s : State} {q : Nat} (hq : q ∈ entries.map (probeBit P e seed bitLength)) :
    ∃ v w, .read (bitAddress arr q) v ∈ addEvents P e seed arr bitLength entries s ∧
      .write (bitAddress arr q) w ∈ addEvents P e seed arr bitLength entries s := by
  induction entries generalizing s with
  | nil => cases hq
  | cons c cs ih =>
    rw [List.map_cons, List.mem_cons] at hq
    simp only [addEvents, setBitEvents, List.cons_append, List.nil_append, List.mem_cons]
    obtain rfl | hq := hq
    · exact ⟨_, _, .inr (.inl rfl), .inr (.inr (.inl rfl))⟩
    · obtain ⟨v, w, hread, hwrite⟩ := ih hq
      exact ⟨v, w, .inr (.inr (.inr hread)), .inr (.inr (.inr hwrite))⟩

theorem read_mem_mergeEvents (s : State) {n src dst a : Nat} (hlo : dst ≤ a) (hhi : a < dst + n) :
    ∃ v, .read a v ∈ mergeEvents s n src dst := by
  induction n generalizing s src dst with
  | zero => omega
  | succ n ih =>
    simp only [mergeEvents, List.mem_cons]
    obtain rfl | hlt := Nat.eq_or_lt_of_le hlo
    · exact ⟨_, .inr (.inl rfl)⟩
    · obtain ⟨v, hv⟩ := ih (s.store dst (s.byteAt dst ||| s.byteAt src)) (src := src + 1) hlt (by omega)
      exact ⟨v, .inr (.inr (.inr hv))⟩

/-- A command that writes STATUS only leaves every other register alone (spec R36). -/
theorem sameRegs_of_exec {i : Instr} {s t : State} (hi : writtenBy i = [.status]) (h : exec i s = .next t) :
    s.SameRegs t := by
  obtain ⟨hget, hframe⟩ := commandsWriteOnlyTheirRegisters i s t h
  exact ⟨fun r hr => hget r (by simpa [hi] using hr), hframe⟩

/-- No command writes an operand of the filter commands (spec R36). -/
theorem exec_buf0 {i : Instr} {s t : State} (h : exec i s = .next t) : t.buf0 = s.buf0 :=
  congrArg₂ (fun base len : Word => Descriptor.mk base.toNat len.toNat)
    ((exec_ends h).get_eq (r := .buf0Base) (by cases i <;> decide))
    ((exec_ends h).get_eq (r := .buf0Len) (by cases i <;> decide))

theorem exec_elem {i : Instr} {s t : State} (h : exec i s = .next t) : t.elem = s.elem :=
  congrArg₂ (fun base len : Word => Descriptor.mk base.toNat len.toNat)
    ((exec_ends h).get_eq (r := .elemBase) (by cases i <;> decide))
    ((exec_ends h).get_eq (r := .elemLen) (by cases i <;> decide))

/-- An element that does not lie in BUF0 stays the same element (spec R76, R196). -/
theorem exec_elementBytes {i : Instr} {s t : State} (hwf : Memory.wf s.mem = true) (h : exec i s = .next t)
    (hapart : s.elem.overlaps s.buf0 = false) : t.elementBytes = s.elementBytes := by
  rw [State.elementBytes, exec_elem h]
  exact bytesAt_congr _ _ fun a hlo hhi => exec_byteAt_eq hwf h fun hstores =>
    overlaps_eq_false hapart (inRange_iff.mpr ⟨hlo, hhi⟩) (storesTo_buf0 hstores)

/-- ADD and MERGE leave a filter in BUF0 the filter it is, since they do not write its header (spec R66, R193). -/
theorem exec_filterAt {i : Instr} {s t : State} (hi : i ∈ [Instr.add, .merge]) (hwf : Memory.wf s.mem = true)
    (h : exec i s = .next t) : t.filterAt s.buf0 = s.filterAt s.buf0 := by
  refine filterAt_congr _ fun a hlo hhi => exec_byteAt_eq hwf h fun hstores => ?_
  obtain ⟨hbehind, -⟩ := inRange_iff.mp (storesTo_array hi hstores)
  omega

end Sys2Proof.Machine
end

section
/-! The checks on a filter (spec R190, R193, R195, R200): ValidateFilter's verdicts and INIT's checks inside and outside the
deriver's domain, and the filter of a range that meets R193's conditions. -/

namespace Sys2Proof.Machine

/-- Settles O19: NOP is the ending OK and nothing else. -/
theorem nopClearsStatusOnly : Obligations.NopClearsStatusOnly := fun _ => rfl

/-- The arguments for which the deriver answers `Invalid`, `m` being their bit count (spec R135, R138, R139). -/
def OutsideDomain (n : Nat) (b : Half) (m : Nat) : Prop :=
  n = 0 ∨ b.toNat < 0x00000001 ∨ 0x3F7FFFFF < b.toNat ∨ 2 ^ 64 - 8 < m

theorem derive_of_outside {n m : Nat} {b : Half} (hm : m = optimalBits .literal n b) (h : OutsideDomain n b m) :
    derive .literal n b = none := by
  subst hm
  exact (derive_literal n b).trans (if_pos h)

theorem derive_of_inside {n m : Nat} {b : Half} (hm : m = optimalBits .literal n b) (h : ¬OutsideDomain n b m) :
    derive .literal n b = some (m, optimalProbes .literal m n) := by
  subst hm
  exact (derive_literal n b).trans (if_neg h)

/-! ## ValidateFilter -/

theorem filterAt_of_short (s : State) {d : Descriptor} (h : d.len < headerBytes) :
    s.filterAt d = .error .corruptBuffer := if_pos h

section
variable {s : State} {d : Descriptor} {m : Nat}
  (hm : m = optimalBits .literal (s.headerAt d.base).capacity.toNat (s.headerAt d.base).errorRate)
include hm

theorem filterAt_of_outside
    (h : OutsideDomain (s.headerAt d.base).capacity.toNat (s.headerAt d.base).errorRate m) :
    s.filterAt d = .error .corruptBuffer := by
  have hderive : derive Config.engine.constants _ _ = none := derive_of_outside hm h
  rw [State.filterAt, judgeFilter, hderive]
  exact ite_self _

/-- With the deriver's domain met, the array's size is checked first and then the number of probes (spec R193, R195). -/
theorem filterAt_of_inside (hlen : headerBytes ≤ d.len)
    (h : ¬OutsideDomain (s.headerAt d.base).capacity.toNat (s.headerAt d.base).errorRate m) :
    s.filterAt d =
      if d.len - headerBytes ≠ arrayBytes m then .error .corruptBuffer
      else if seedTableLen < optimalProbes .literal m (s.headerAt d.base).capacity.toNat then .error .probeTableExhausted
      else .ok ⟨s.headerAt d.base, m, optimalProbes .literal m (s.headerAt d.base).capacity.toNat, d.len - headerBytes⟩ := by
  have hderive : derive Config.engine.constants _ _ = _ := derive_of_inside hm h
  rw [State.filterAt, if_neg (Nat.not_lt.mpr hlen), judgeFilter, hderive]

end

/-- A range that meets R193's conditions holds this filter. -/
theorem State.HoldsFilter.filterAt_eq {s : State} {d : Descriptor} {m k : Nat} (h : s.HoldsFilter d.base d.len m k) :
    s.filterAt d = .ok ⟨s.headerAt d.base, m, k, d.len - headerBytes⟩ := by
  obtain ⟨hlen, hn, hlo, hhi, hm, hmax, hsize, rfl, hk⟩ := h
  have hdomain : ¬OutsideDomain (s.headerAt d.base).capacity.toNat (s.headerAt d.base).errorRate m := by
    unfold OutsideDomain
    omega
  rw [filterAt_of_inside hm hlen hdomain]
  exact (if_neg (not_not.mpr hsize)).trans (if_neg (Nat.not_lt.mpr hk))

/-- Settles O30: by the room for a header, the deriver's domain, the array's size and the number of probes. -/
theorem validateFilterVerdicts : Obligations.ValidateFilterVerdicts := by
  intro s base total n m k b hn hb hm hk
  obtain rfl := hn.symm
  obtain rfl := hb.symm
  obtain rfl : k = optimalProbes .literal m _ := hk
  refine ⟨fun hshort => filterAt_of_short s hshort, fun hlen hbad => ?_, fun hlen hgood => ?_⟩
  · by_cases hdomain : OutsideDomain (s.headerAt base).capacity.toNat (s.headerAt base).errorRate m
    · exact filterAt_of_outside (d := ⟨base, total⟩) hm hdomain
    · have hbad' : OutsideDomain (s.headerAt base).capacity.toNat (s.headerAt base).errorRate m ∨
          total - 20 ≠ (m + 7) / 8 := by simpa only [OutsideDomain, or_assoc] using hbad
      exact (filterAt_of_inside (d := ⟨base, total⟩) hm hlen hdomain).trans (if_pos (hbad'.resolve_left hdomain))
  · simp only [not_or, not_lt, not_not] at hgood
    obtain ⟨hn, hlo, hhi, hmax, hsize⟩ := hgood
    have hdomain : ¬OutsideDomain (s.headerAt base).capacity.toNat (s.headerAt base).errorRate m := by
      unfold OutsideDomain
      omega
    refine ⟨fun hk => ?_, fun hk => ?_⟩
    · rw [filterAt_of_inside (d := ⟨base, total⟩) hm hlen hdomain]
      exact (if_neg (not_not.mpr hsize)).trans (if_pos hk)
    · have hholds : s.HoldsFilter base total m _ := ⟨hlen, hn, hlo, hhi, hm, hmax, hsize, rfl, hk⟩
      exact ⟨State.HoldsFilter.filterAt_eq (d := ⟨base, total⟩) hholds, hholds⟩

/-! ## INIT -/

theorem exec_init_of_error {s : State} {c : ErrorCode} (h : initCheck Config.engine s = .error c) :
    exec .init s = .next (raise c s) := by
  simp only [exec, execInit, initCommand, h, except_pure, finish_ok]

/-- Settles O27: by the wrap, the deriver's domain, the number of probes and the buffer's size. -/
theorem initChecks : Obligations.InitChecks := by
  rintro s m k hm hk
  obtain rfl : k = optimalProbes .literal m _ := hk
  refine ⟨fun hwrap => exec_init_of_error (c := .badDescriptor) ?_, fun hspace => ⟨fun hdomain =>
    exec_init_of_error (c := .invalidArgument) ?_, fun hdomain => ⟨fun hk =>
    exec_init_of_error (c := .probeTableExhausted) ?_, fun hk hlen => exec_init_of_error (c := .corruptBuffer) ?_⟩⟩⟩
  · have hw : s.buf0.wellFormed = false := decide_eq_false (Nat.not_le.mpr hwrap)
    rw [initCheck, hw, if_pos (by decide)]
  all_goals
    have hw : s.buf0.wellFormed = true := decide_eq_true hspace
    rw [initCheck, hw, if_neg (by decide)]
  · have hderive : derive Config.engine.constants _ _ = none := derive_of_outside hm hdomain
    rw [hderive]
  · have hderive : derive Config.engine.constants _ _ = _ := derive_of_inside hm hdomain
    rw [hderive]
    exact if_pos hk
  · have hderive : derive Config.engine.constants _ _ = _ := derive_of_inside hm hdomain
    rw [hderive]
    exact (if_neg (Nat.not_lt.mpr hk)).trans (if_pos hlen)

end Sys2Proof.Machine
end

section
/-! Running ADD and TEST on a valid filter (spec R205, R206, R210): where their checks pass and their accesses are admitted,
what they answer, and what an ADD that ended OK says of both. -/

namespace Sys2Proof.Machine

/-- ValidateFilter on a range that does not wrap (spec R193). -/
theorem validateFilter_eq {s : State} {d : Descriptor} (hw : d.wellFormed = true)
    (h : headerBytes ≤ d.len → s.Admitted .read d.base headerBytes) :
    validateFilter Config.engine d s = .ok (s.filterAt d, s.traced (validateEvents s d)) :=
  validateFilter_admitted fun hlen => ⟨h hlen, by have := wellFormed_space hw; omega⟩

/-! ## The checks -/

/-- ADD and TEST on a range that wraps (spec R206, R210, R246). -/
theorem exec_of_badDescriptor {i : Instr} {s : State} (hi : i ∈ [Instr.add, .test])
    (h : s.buf0.wellFormed = false ∨ s.elem.wellFormed = false) : exec i s = .next (raise .badDescriptor s) := by
  obtain rfl | rfl : i = .add ∨ i = .test := by simpa using hi
  · obtain h | h := h <;> simp [exec, execAdd, addCommand, h]
  · obtain h | h := h <;> simp [exec, execTest, testCommand, h]

/-- ADD and TEST on a range that ValidateFilter rejects (spec R206, R210). -/
theorem exec_of_filterError {i : Instr} {s : State} {c : ErrorCode} (hi : i ∈ [Instr.add, .test])
    (hb : s.buf0.wellFormed = true) (he : s.elem.wellFormed = true) (hf : s.filterAt s.buf0 = .error c)
    (hheader : headerBytes ≤ s.buf0.len → s.Admitted .read s.buf0.base headerBytes) :
    exec i s = .next (s.errorEnd c (validateEvents s s.buf0)) := by
  have hvalidate := validateFilter_eq hb hheader
  rw [hf] at hvalidate
  obtain rfl | rfl : i = .add ∨ i = .test := by simpa using hi
  · simp [exec, execAdd, addCommand, hb, he, hvalidate, raise_traced]
  · simp [exec, execTest, testCommand, hb, he, hvalidate, raise_traced]

/-- ValidateFilter reads the header where there is room for one (spec R193). -/
theorem validateEvents_of_room (s : State) {d : Descriptor} (h : headerBytes ≤ d.len) :
    validateEvents s d = s.readEvents headerBytes d.base := if_neg (Nat.not_lt.mpr h)

theorem validateEvents_of_short (s : State) {d : Descriptor} (h : d.len < headerBytes) : validateEvents s d = [] :=
  if_pos h

/-- STATUS after ValidateFilter's error (spec R193, R195, R249). -/
theorem statusOfError_filterAt {s : State} {d : Descriptor} {c : ErrorCode} (h : s.filterAt d = .error c) :
    statusOfError c = if c = .probeTableExhausted then 0x004#32 else 0x005#32 := by
  obtain rfl | rfl := filterAt_error h <;> decide

/-- Settles O31: by the wrap, the room for a header, and ValidateFilter's verdict. -/
theorem addAndTestChecks : Obligations.AddAndTestChecks := by
  intro i s hi
  refine ⟨fun hwrap => exec_of_badDescriptor hi ?_, fun hspace helem => ⟨fun hshort => ?_, fun hlen hheader c hc => ?_⟩⟩
  · exact hwrap.imp (fun h => decide_eq_false (Nat.not_le.mpr h)) fun h => decide_eq_false (Nat.not_le.mpr h)
  · rw [exec_of_filterError hi (decide_eq_true hspace) (decide_eq_true helem) (filterAt_of_short s hshort)
      fun hlen => absurd hshort (Nat.not_lt.mpr hlen), validateEvents_of_short s hshort, ← raise_eq_errorEnd]
    rfl
  · rw [exec_of_filterError hi (decide_eq_true hspace) (decide_eq_true helem) hc fun _ => hheader,
      validateEvents_of_room s hlen, State.errorEnd, statusOfError_filterAt hc]
    rfl

/-! ## The run on a valid filter -/

/-- The checks of TEST on `s` pass with the filter `f`, and all its reads are admitted (spec R77, R210). -/
structure Testable (s : State) (f : Filter) : Prop where
  buf0 : s.buf0.wellFormed = true
  elem : s.elem.wellFormed = true
  valid : s.filterAt s.buf0 = .ok f
  header : s.Admitted .read s.buf0.base headerBytes
  element : s.Admitted .read s.elem.base s.elem.len
  bits : ∀ q ∈ probeBits s.elementBytes f, s.admits .read (bitAddress (s.buf0.base + headerBytes) q) = true

/-- The writes of ADD on `s` with the filter `f` are admitted (spec R77, R206). -/
def Settable (s : State) (f : Filter) : Prop :=
  ∀ q ∈ probeBits s.elementBytes f, s.admits .write (bitAddress (s.buf0.base + headerBytes) q) = true

/-- Reads admitted in the whole buffer and the element are enough for TEST. -/
theorem Testable.of_admitted {s : State} {f : Filter} (hb : s.buf0.wellFormed = true) (he : s.elem.wellFormed = true)
    (hf : s.filterAt s.buf0 = .ok f) (hbuf : s.Admitted .read s.buf0.base s.buf0.len)
    (helem : s.Admitted .read s.elem.base s.elem.len) : Testable s f where
  buf0 := hb
  elem := he
  valid := hf
  header a hlo hhi := by
    obtain ⟨hlen, -⟩ := filterAt_ok hf
    exact hbuf a hlo (by omega)
  element := helem
  bits q hq := by
    obtain ⟨hlo, hhi⟩ := inRange_iff.mp (inRange_of_array (probeBits_inRange hf hq))
    exact hbuf _ hlo hhi

/-- TEST of the same element bytes on the same filter passes its checks in another state too. -/
theorem Testable.transfer {s t : State} {f : Filter} (h : Testable s f) (hdenied : t.denied = s.denied)
    (hbuf : t.buf0 = s.buf0) (hf : t.filterAt s.buf0 = .ok f) (hbytes : t.elementBytes = s.elementBytes)
    (he : t.elem.wellFormed = true) (helem : t.Admitted .read t.elem.base t.elem.len) : Testable t f where
  buf0 := hbuf ▸ h.buf0
  elem := he
  valid := hbuf ▸ hf
  header a hlo hhi := by
    rw [hbuf] at hlo hhi
    exact (admits_congr hdenied _ a).trans (h.header a hlo hhi)
  element := helem
  bits q hq := by
    rw [hbytes] at hq
    rw [hbuf, admits_congr hdenied]
    exact h.bits q hq

/-- An ADD or MERGE on the buffer leaves TEST's checks passed, if the element does not lie in it. -/
theorem Testable.after_exec {i : Instr} {s t : State} {f : Filter} (h : Testable s f) (hi : i ∈ [Instr.add, .merge])
    (hwf : Memory.wf s.mem = true) (hexec : exec i s = .next t) (hapart : s.elem.overlaps s.buf0 = false) :
    Testable t f := by
  obtain ⟨-, hdenied, -, -⟩ := (exec_ends hexec).frame
  have helem := exec_elem hexec
  refine h.transfer hdenied (exec_buf0 hexec) ((exec_filterAt hi hwf hexec).trans h.valid)
    (exec_elementBytes hwf hexec hapart) (helem ▸ h.elem) fun a hlo hhi => ?_
  rw [helem] at hlo hhi
  exact (admits_congr hdenied _ a).trans (h.element a hlo hhi)

/-- The state after ADD's probes, less the trace (spec R205, R206). -/
def State.added (s : State) (f : Filter) : State := storeBits s (s.buf0.base + headerBytes) (probeBits s.elementBytes f)

section
variable {s : State} {f : Filter} (h : Testable s f)
include h

theorem Testable.space {q : Nat} (hq : q ∈ probeBits s.elementBytes f) :
    bitAddress (s.buf0.base + headerBytes) q < addressSpace :=
  probeBits_space h.buf0 h.valid (filterAt_arrayLen_pos h.valid) q hq

theorem Testable.validate : validateFilter Config.engine s.buf0 s = .ok (.ok f, s.traced (validateEvents s s.buf0)) := by
  rw [validateFilter_eq h.buf0 fun _ => h.header, h.valid]

theorem Testable.read (x : List PortEvent) :
    readElement (s.traced x) = .ok (s.elementBytes, s.traced (x ++ s.readEvents s.elem.len s.elem.base)) := by
  have hread := readBytes_admitted (s := s.traced x) h.element fun _ => wellFormed_space h.elem
  rw [traced_bytesAt, traced_readEvents, traced_traced] at hread
  exact hread

/-- TEST answers the conjunction of the probed bits (spec R210). -/
theorem Testable.exec_test : exec .test s =
    .next (done ((probeBits s.elementBytes f).all (s.bitAt (s.buf0.base + headerBytes))) (s.traced
      (validateEvents s s.buf0 ++ s.readEvents s.elem.len s.elem.base ++
        testEvents Config.engine s.elementBytes f.header.seed (s.buf0.base + headerBytes) f.bitLength s
          (probeEntries Config.engine f)))) := by
  have hprobes := testProbes_admitted (P := Config.engine) (entries := probeEntries Config.engine f)
    (s := s.traced (validateEvents s s.buf0 ++ s.readEvents s.elem.len s.elem.base)) fun q hq => ⟨h.space hq, h.bits q hq⟩
  rw [traced_testEvents, traced_traced] at hprobes
  simp only [exec, execTest, testCommand, h.buf0, h.elem, h.validate, h.read, hprobes, except_bind_ok, Bool.not_true,
    Bool.false_eq_true, if_false, except_pure, finish_ok]
  rfl

/-- TEST on set bits answers 1 (spec R210). -/
theorem Testable.exec_test_of_set
    (hset : ∀ q ∈ probeBits s.elementBytes f, s.bitAt (s.buf0.base + headerBytes) q = true) :
    ∃ v, exec .test s = .next v ∧ v.status = 0x100#32 :=
  ⟨_, h.exec_test, by rw [done_status, List.all_eq_true.mpr hset]; rfl⟩

/-- ADD sets the probed bits (spec R206). -/
theorem Testable.exec_add (hw : Settable s f) : ∃ events, exec .add s = .next (done false ((s.added f).traced events)) := by
  have hprobes := addProbes_admitted (P := Config.engine) (entries := probeEntries Config.engine f)
    (s := s.traced (validateEvents s s.buf0 ++ s.readEvents s.elem.len s.elem.base))
    fun q hq => ⟨h.space hq, h.bits q hq, hw q hq⟩
  rw [traced_addEvents, traced_storeBits, traced_traced] at hprobes
  simp only [exec, execAdd, addCommand, h.buf0, h.elem, h.validate, h.read, hprobes, except_bind_ok, Bool.not_true,
    Bool.false_eq_true, if_false, except_pure, finish_ok]
  exact ⟨_, rfl⟩

end

/-- The probed bits stand after ADD (spec R205). -/
theorem added_bitAt {s : State} {f : Filter} (hwf : Memory.wf s.mem = true) (h : Testable s f) (q : Nat) :
    (s.added f).bitAt (s.buf0.base + headerBytes) q =
      (s.bitAt (s.buf0.base + headerBytes) q || decide (q ∈ probeBits s.elementBytes f)) := by
  obtain ⟨-, hbit, -⟩ := storeBits_spec s hwf (s.buf0.base + headerBytes) _ fun q hq => h.space hq
  exact hbit q

/-- What an ADD that ended OK says: its checks passed, its accesses were admitted, and the probed bits are set (spec R206). -/
theorem exec_add_ok {s t : State} (hwf : Memory.wf s.mem = true) (h : exec .add s = .next t) (hcode : t.code = 0#4) :
    ∃ f, Testable s f ∧ Settable s f ∧
      ∀ q ∈ probeBits s.elementBytes f, t.bitAt (s.buf0.base + headerBytes) q = true := by
  obtain ⟨-, rfl⟩ | ⟨c, -, -, -, rfl⟩ | ⟨f, hb, he, hf, rfl⟩ := addCommand_next (finish_eq_next h)
  · exact absurd ((code_raise _ s).symm.trans hcode) (number_ne_zero _)
  · exact absurd ((code_raise c s).symm.trans hcode) (number_ne_zero c)
  · obtain ⟨hlen, -⟩ := filterAt_ok hf
    have hadmits := admitsEvent_of_trace h (by rw [done_trace, traced_trace, storeBits_trace])
    rw [validateEvents_of_room s hlen] at hadmits
    simp only [List.forall_mem_append] at hadmits
    obtain ⟨⟨hheader, helement⟩, hprobes⟩ := hadmits
    have htest : Testable s f := ⟨hb, he, hf, admitted_of_readEvents hheader, admitted_of_readEvents helement,
      fun q hq => by
        obtain ⟨v, w, hread, -⟩ := mem_addEvents_of_bit hq
        exact hprobes _ hread⟩
    have hset : Settable s f := fun q hq => by
      obtain ⟨v, w, -, hwrite⟩ := mem_addEvents_of_bit hq
      exact hprobes _ hwrite
    refine ⟨f, htest, hset, fun q hq => (added_bitAt hwf htest q).trans ?_⟩
    rw [decide_eq_true hq, Bool.or_true]

/-- Bytes behind an array's start are equal where its bits are (spec R68). -/
theorem byteAt_eq_of_bitAt_eq {s t : State} {arr a : Nat} (ha : arr ≤ a) (h : ∀ q, t.bitAt arr q = s.bitAt arr q) :
    t.byteAt a = s.byteAt a := by
  refine BitVec.eq_of_getLsbD_eq fun j hj => ?_
  have hbit := h (8 * (a - arr) + j)
  have hplace : arr + (8 * (a - arr) + j) / 8 = a := by omega
  have hindex : (8 * (a - arr) + j) % 8 = j := by omega
  rwa [State.bitAt, State.bitAt, hplace, hindex] at hbit

/-- ADD of an element whose bits are all set leaves memory as it was (spec R205). -/
theorem added_mem_of_set {s : State} {f : Filter} (hwf : Memory.wf s.mem = true) (h : Testable s f)
    (hset : ∀ q ∈ probeBits s.elementBytes f, s.bitAt (s.buf0.base + headerBytes) q = true) :
    (s.added f).mem = s.mem := by
  obtain ⟨hwf', hbit, hother⟩ := storeBits_spec s hwf (s.buf0.base + headerBytes) _ fun q hq => h.space hq
  refine wf_ext _ _ hwf' hwf fun a => ?_
  by_cases ha : s.buf0.base + headerBytes ≤ a
  · refine byteAt_eq_of_bitAt_eq ha fun q => (hbit q).trans ?_
    by_cases hq : q ∈ probeBits s.elementBytes f
    · rw [hset q hq, Bool.true_or]
    · rw [decide_eq_false hq, Bool.or_false]
  · refine hother a fun q _ => ?_
    unfold bitAddress
    omega

end Sys2Proof.Machine
end

section
/-! The effect of ADD and TEST and their laws (spec R204 to R206, R210), in the bits the statements select. -/

namespace Sys2Proof.Machine

/-- The bit a probe folds to is the one its seed word selects (spec R113, R114, R170). -/
theorem probeBit_eq_selectedBit (e : List Byte) (seed : Word) (len : Nat) (c : Int) :
    probeBit Config.engine e seed (8 * len) c = selectedBit e len (seedWord c seed) := by
  simp [probeBit, probePos, fold, lowHalf, selectedBit, BitVec.extractLsb'_toNat]

/-- The filter BUF0 holds if it meets R193's conditions with `m` bits and `k` probes. -/
abbrev State.heldFilter (s : State) (m k : Nat) : Filter := ⟨s.headerAt s.buf0.base, m, k, s.buf0.len - headerBytes⟩

/-- The bits the statements select are those the probes fold to (spec R204, R205). -/
theorem selectedBits_eq (s : State) (m k : Nat) :
    s.selectedBits s.buf0Base.toNat s.buf0Len.toNat k = probeBits s.elementBytes (s.heldFilter m k) := by
  have hwords : s.seedWords s.buf0Base.toNat k =
      (probeEntries Config.engine (s.heldFilter m k)).map fun c => seedWord c (s.heldFilter m k).header.seed := rfl
  rw [State.selectedBits, hwords, List.map_map]
  exact List.map_congr_left fun c _ => (probeBit_eq_selectedBit _ _ _ c).symm

/-- TEST's checks pass on a filter that meets R193's conditions. -/
theorem testable_of_holds {s : State} {m k : Nat} (h : s.HoldsFilter s.buf0Base.toNat s.buf0Len.toNat m k)
    (hspace : s.buf0Base.toNat + s.buf0Len.toNat ≤ 2 ^ 64) (helem : s.elemBase.toNat + s.elemLen.toNat ≤ 2 ^ 64)
    (hread : s.Admitted .read s.buf0Base.toNat s.buf0Len.toNat)
    (hreadElem : s.Admitted .read s.elemBase.toNat s.elemLen.toNat) : Testable s (s.heldFilter m k) :=
  .of_admitted (decide_eq_true hspace) (decide_eq_true helem) (State.HoldsFilter.filterAt_eq h) hread hreadElem

/-- Settles O32: the probed bits are those selected, and ADD sets them and writes nothing outside the array. -/
theorem addEffect : Obligations.AddEffect := by
  rintro s B T m k rfl rfl hwf hspace helem hholds hread hwrite hreadElem
  have htest := testable_of_holds hholds hspace helem hread hreadElem
  have hset : Settable s (s.heldFilter m k) := fun q hq => by
    obtain ⟨hlo, hhi⟩ := inRange_iff.mp (probeBits_inRange htest.valid hq)
    exact hwrite _ hlo hhi
  obtain ⟨events, hexec⟩ := htest.exec_add hset
  refine ⟨_, hexec, rfl, sameRegs_of_exec rfl hexec, fun q _ => ?_, fun a ha => exec_byteAt_eq hwf hexec fun hstores => ?_⟩
  · rw [selectedBits_eq s m k]
    exact added_bitAt hwf htest q
  · obtain ⟨hlo, -⟩ := inRange_iff.mp (storesTo_array (by decide) hstores)
    obtain ⟨-, hhi⟩ := inRange_iff.mp (storesTo_buf0 hstores)
    exact ha.elim (Nat.not_lt.mpr hlo) (Nat.not_le.mpr hhi)

/-- The events of one probe of TEST (spec R205, R210). -/
def probeEvents (s : State) (e : List Byte) (arr len : Nat) (w : Word) : List PortEvent :=
  [.hash w, .read (arr + selectedBit e len w / 8) (s.byteAt (arr + selectedBit e len w / 8))]

/-- TEST makes the probes up to the first clear bit (spec R210). -/
theorem testEvents_eq (s : State) (e : List Byte) (seed : Word) (arr len : Nat) (entries : List Int) :
    testEvents Config.engine e seed arr (8 * len) s entries =
      ((entries.map (seedWord · seed)).take (probesMade
        ((entries.map fun c => probeBit Config.engine e seed (8 * len) c).map (s.bitAt arr)))).flatMap
          (probeEvents s e arr len) := by
  induction entries with
  | nil => rfl
  | cons c cs ih =>
    rw [testEvents, ih]
    simp only [List.map_cons]
    cases s.bitAt arr (probeBit Config.engine e seed (8 * len) c) with
    | true => simp [probesMade, probeEvents, probeBit_eq_selectedBit, bitAddress]
    | false => simp [probesMade, probeEvents, probeBit_eq_selectedBit, bitAddress]

theorem statusOfResult_all (qs : List Nat) (p : Nat → Bool) :
    statusOfResult (qs.all p) = if ∀ q ∈ qs, p q = true then 0x100#32 else 0x000#32 := by
  split
  · next h => rw [List.all_eq_true.mpr h]; rfl
  · next h => rw [Bool.eq_false_iff.mpr fun hall => h (List.all_eq_true.mp hall)]; rfl

/-- Settles O33: TEST answers the conjunction of the selected bits, and its probes end at the first clear one. -/
theorem testEffect : Obligations.TestEffect := by
  rintro s B T m k rfl rfl hspace helem hholds hread hreadElem
  have htest := testable_of_holds hholds hspace helem hread hreadElem
  obtain ⟨hlen, -⟩ := filterAt_ok htest.valid
  rw [htest.exec_test, validateEvents_of_room s hlen, selectedBits_eq s m k, ← statusOfResult_all]
  exact congrArg (fun probes => Host.Outcome.next { s with
      status := statusOfResult ((probeBits s.elementBytes (s.heldFilter m k)).all (s.bitAt (s.buf0.base + headerBytes)))
      trace := s.trace ++ (s.readEvents headerBytes s.buf0.base ++ s.readEvents s.elem.len s.elem.base ++ probes) })
    (testEvents_eq s s.elementBytes _ (s.buf0.base + headerBytes) (s.buf0.len - headerBytes) _)

/-- A TEST that answered with RESULT 1 has read its element and found all its probed bits set (spec R210). -/
theorem exec_test_true {s t : State} (h : exec .test s = .next t) (hresult : t.result = true) :
    ∃ f, s.elem.wellFormed = true ∧ s.Admitted .read s.elem.base s.elem.len ∧ s.filterAt s.buf0 = .ok f ∧
      ∀ q ∈ probeBits s.elementBytes f, s.bitAt (s.buf0.base + headerBytes) q = true := by
  obtain ⟨-, rfl⟩ | ⟨c, -, -, -, rfl⟩ | ⟨f, -, he, hf, rfl⟩ := testCommand_next (finish_eq_next h)
  · exact absurd ((result_raise _ s).symm.trans hresult) (by decide)
  · exact absurd ((result_raise c s).symm.trans hresult) (by decide)
  · have hadmits := admitsEvent_of_trace h rfl
    simp only [List.forall_mem_append] at hadmits
    obtain ⟨⟨-, helement⟩, -⟩ := hadmits
    rw [result_done] at hresult
    exact ⟨f, he, admitted_of_readEvents helement, hf, List.all_eq_true.mp hresult⟩

/-! ## TEST on an empty filter -/

theorem readCount_append (x y : List PortEvent) : readCount (x ++ y) = readCount x + readCount y := by simp [readCount]

theorem hashCount_append (x y : List PortEvent) : hashCount (x ++ y) = hashCount x + hashCount y := by simp [hashCount]

theorem readCount_readEvents (s : State) (n a : Nat) : readCount (s.readEvents n a) = n := by
  induction n generalizing a with
  | zero => rfl
  | succ n ih => exact congrArg (· + 1) (ih (a + 1))

theorem hashCount_readEvents (s : State) (n a : Nat) : hashCount (s.readEvents n a) = 0 := by
  induction n generalizing a with
  | zero => rfl
  | succ n ih => exact ih (a + 1)

/-- A valid filter has a probe, and the seed table an entry for it (spec R112, R144). -/
theorem probeEntries_cons {s : State} {d : Descriptor} {f : Filter} (h : s.filterAt d = .ok f) :
    ∃ c cs, probeEntries Config.engine f = c :: cs := by
  obtain ⟨-, -, -, hderive, -⟩ := filterAt_ok h
  obtain ⟨hbits, -⟩ := derive_bits_bounds hderive
  obtain ⟨hn, -, -, -, -, hprobes⟩ := derive_eq_some hderive
  have hpos : 1 ≤ f.probes := hprobes ▸ optimalProbes_pos hbits (Nat.one_le_iff_ne_zero.mpr hn)
  refine List.exists_cons_of_length_pos ?_
  rw [probeEntries, List.length_take, SeedTable.length_eq]
  exact lt_min hpos (by decide)

/-- Settles O48: the first probe finds a clear bit, and TEST ends there. -/
theorem emptyFilterTestsFalseAfterOneProbe : Obligations.EmptyFilterTestsFalseAfterOneProbe := by
  rintro s B T m k rfl rfl hspace helem hholds hread hreadElem hempty
  have htest := testable_of_holds hholds hspace helem hread hreadElem
  obtain ⟨hlen, -⟩ := filterAt_ok htest.valid
  obtain ⟨c, cs, hentries⟩ := probeEntries_cons htest.valid
  have hpos : 0 < (s.heldFilter m k).bitLength := Nat.mul_pos (by decide) (filterAt_arrayLen_pos htest.valid)
  have hclear : s.bitAt (s.buf0.base + headerBytes)
      (probeBit Config.engine s.elementBytes (s.heldFilter m k).header.seed (s.heldFilter m k).bitLength c) = false :=
    hempty _ (fold_lt _ hpos)
  have hall : (probeBits s.elementBytes (s.heldFilter m k)).all (s.bitAt (s.buf0.base + headerBytes)) = false := by
    rw [probeBits, hentries, List.map_cons, List.all_cons]
    exact Bool.and_eq_false_imp.mpr fun hset => absurd (hclear.symm.trans hset) (by decide)
  refine ⟨_, _, htest.exec_test, ?_, rfl, ?_, ?_⟩
  · rw [done_status, hall]
    rfl
  · rw [hashCount_append, hashCount_append, validateEvents_of_room s hlen, hashCount_readEvents, hashCount_readEvents,
      hentries, testEvents, hclear]
    rfl
  · rw [readCount_append, readCount_append, validateEvents_of_room s hlen, readCount_readEvents, readCount_readEvents,
      hentries, testEvents, hclear]
    rfl

/-! ## ADD twice -/

/-- Settles O49: the second ADD finds its checks passed, its accesses admitted and its bits set. -/
theorem addIsIdempotent : Obligations.AddIsIdempotent := by
  intro s t hwf hadd hcode hapart
  obtain ⟨f, htest, hset, hbits⟩ := exec_add_ok hwf hadd hcode
  obtain ⟨-, hdenied, -, -⟩ := (exec_ends hadd).frame
  have hbuf := exec_buf0 hadd
  have hbytes := exec_elementBytes hwf hadd hapart
  have htest' : Testable t f := htest.after_exec (by decide) hwf hadd hapart
  have hset' : Settable t f := fun q hq => by
    rw [hbytes] at hq
    rw [hbuf, admits_congr hdenied]
    exact hset q hq
  obtain ⟨events, hadd'⟩ := htest'.exec_add hset'
  refine ⟨_, hadd', code_done _ _, added_mem_of_set (exec_wf hwf hadd) htest' fun q hq => ?_⟩
  rw [hbytes] at hq
  rw [hbuf]
  exact hbits q hq

end Sys2Proof.Machine
end

section
/-! MERGE (spec R216 to R221): its checks in their order, what it does to the bytes of the destination, and its laws. -/

namespace Sys2Proof.Machine

/-! ## The checks -/

/-- The descriptor check in the words of R216. -/
theorem partlyOverlaps_iff (s : State) : s.buf0.partlyOverlaps s.buf1 = true ↔
    PartlyOverlap s.buf0Base.toNat s.buf0Len.toNat s.buf1Base.toNat s.buf1Len.toNat := by
  have hne : s.buf0 ≠ s.buf1 ↔
      ¬(s.buf0Base.toNat = s.buf1Base.toNat ∧ s.buf0Len.toNat = s.buf1Len.toNat) := by
    rw [State.buf0, State.buf1, ne_eq, Descriptor.mk.injEq]
  rw [Descriptor.partlyOverlaps, Descriptor.overlaps, Bool.and_eq_true, decide_eq_true_eq, decide_eq_true_eq, hne]
  simp only [PartlyOverlap, and_assoc]
  rfl

theorem exec_merge_badDescriptor {s : State}
    (h : s.buf0.wellFormed = false ∨ s.buf1.wellFormed = false ∨ s.buf0.partlyOverlaps s.buf1 = true) :
    exec .merge s = .next (raise .badDescriptor s) := by
  obtain h | h | h := h <;> simp [exec, execMerge, mergeCommand, h]

/-- The descriptors pass MERGE's checks, and the reads of the headers are admitted (spec R77, R216). -/
structure Mergeable (s : State) : Prop where
  buf0 : s.buf0.wellFormed = true
  buf1 : s.buf1.wellFormed = true
  apart : s.buf0.partlyOverlaps s.buf1 = false
  header0 : headerBytes ≤ s.buf0.len → s.Admitted .read s.buf0.base headerBytes
  header1 : headerBytes ≤ s.buf1.len → s.Admitted .read s.buf1.base headerBytes

section
variable {s : State} (h : Mergeable s)
include h

theorem Mergeable.validate1 (x : List PortEvent) : validateFilter Config.engine s.buf1 (s.traced x) =
    .ok (s.filterAt s.buf1, s.traced (x ++ validateEvents s s.buf1)) := by
  have hvalidate := validateFilter_eq (s := s.traced x) h.buf1 h.header1
  have hfilter : (s.traced x).filterAt s.buf1 = s.filterAt s.buf1 := filterAt_congr _ fun _ _ _ => rfl
  have hevents : validateEvents (s.traced x) s.buf1 = validateEvents s s.buf1 := by
    simp only [validateEvents, traced_readEvents]
  rw [hfilter, hevents, traced_traced] at hvalidate
  exact hvalidate

/-- The destination's verdict comes first (spec R218). -/
theorem Mergeable.exec_error0 {c : ErrorCode} (hc : s.filterAt s.buf0 = .error c) :
    exec .merge s = .next (s.errorEnd c (validateEvents s s.buf0)) := by
  simp [exec, execMerge, mergeCommand, h.buf0, h.buf1, h.apart, validateFilter_eq h.buf0 h.header0, hc, raise_traced]

theorem Mergeable.exec_error1 {f : Filter} {c : ErrorCode} (hf : s.filterAt s.buf0 = .ok f)
    (hc : s.filterAt s.buf1 = .error c) :
    exec .merge s = .next (s.errorEnd c (validateEvents s s.buf0 ++ validateEvents s s.buf1)) := by
  simp [exec, execMerge, mergeCommand, h.buf0, h.buf1, h.apart, validateFilter_eq h.buf0 h.header0, h.validate1, hf, hc,
    raise_traced]

theorem Mergeable.exec_incompatible {f g : Filter} (hf : s.filterAt s.buf0 = .ok f) (hg : s.filterAt s.buf1 = .ok g)
    (hc : f.compatible g = false) : exec .merge s =
      .next (s.errorEnd .incompatibleParameters (validateEvents s s.buf0 ++ validateEvents s s.buf1)) := by
  simp [exec, execMerge, mergeCommand, h.buf0, h.buf1, h.apart, validateFilter_eq h.buf0 h.header0, h.validate1, hf, hg, hc,
    raise_traced]

/-- With compatible filters and its accesses admitted, MERGE runs its byte loop (spec R218, R220). -/
theorem Mergeable.exec_merge {f g : Filter} (hf : s.filterAt s.buf0 = .ok f) (hg : s.filterAt s.buf1 = .ok g)
    (hc : f.compatible g = true) (hsource : s.Admitted .read s.buf1.base s.buf1.len)
    (hread : s.Admitted .read s.buf0.base s.buf0.len)
    (hwrite : s.Admitted .write (s.buf0.base + headerBytes) (s.buf0.len - headerBytes)) :
    ∃ events, exec .merge s = .next (done false
      ((storeMerge s f.arrayLen (s.buf1.base + headerBytes) (s.buf0.base + headerBytes)).traced events)) := by
  obtain ⟨hlen0, -, harray0, -⟩ := filterAt_ok hf
  obtain ⟨hlen1, -, harray1, -⟩ := filterAt_ok hg
  have harray := compatible_arrayLen hc
  have hmerge := mergeBytes_admitted (n := f.arrayLen) (src := s.buf1.base + headerBytes) (dst := s.buf0.base + headerBytes)
    (s := s.traced (validateEvents s s.buf0 ++ validateEvents s s.buf1))
    (fun a hlo hhi => hsource a (by omega) (by omega)) (fun a hlo hhi => hread a (by omega) (by omega))
    (fun a hlo hhi => hwrite a hlo (by omega)) (harray ▸ filterAt_space h.buf1 hg) (filterAt_space h.buf0 hf)
  rw [traced_storeMerge, traced_traced] at hmerge
  simp only [exec, execMerge, mergeCommand, h.buf0, h.buf1, h.apart, validateFilter_eq h.buf0 h.header0, h.validate1, hf, hg,
    hc, hmerge, except_bind_ok, except_pure, finish_ok, Bool.not_true, Bool.or_self, Bool.false_eq_true, if_false]
  exact ⟨_, rfl⟩

end

/-- Compatible filters are one filter: their sizes follow from their headers (spec R217). -/
theorem eq_of_compatible {s : State} {d d' : Descriptor} {f g : Filter} (hf : s.filterAt d = .ok f)
    (hg : s.filterAt d' = .ok g) (h : f.compatible g = true) : f = g := by
  obtain ⟨-, -, -, hderive, -⟩ := filterAt_ok hf
  obtain ⟨-, -, -, hderive', -⟩ := filterAt_ok hg
  obtain ⟨⟨seed, rate, capacity⟩, bits, probes, len⟩ := f
  obtain ⟨⟨seed', rate', capacity'⟩, bits', probes', len'⟩ := g
  simp only [Filter.compatible, Bool.and_eq_true, beq_iff_eq] at h
  obtain ⟨⟨⟨rfl, rfl⟩, rfl⟩, rfl⟩ := h
  cases hderive.symm.trans hderive'
  rfl

/-- Ranges of one filter have one length and one header. -/
theorem same_of_filterAt_eq {s : State} {d d' : Descriptor} {f : Filter} (hf : s.filterAt d = .ok f)
    (hf' : s.filterAt d' = .ok f) : d.len = d'.len ∧ s.headerAt d.base = s.headerAt d'.base := by
  obtain ⟨hlen, hheader, harray, -⟩ := filterAt_ok hf
  obtain ⟨hlen', hheader', harray', -⟩ := filterAt_ok hf'
  exact ⟨by omega, hheader.symm.trans hheader'⟩

/-- Settles O34: by the descriptors, the two verdicts and the comparison of the headers. -/
theorem mergeChecks : Obligations.MergeChecks := by
  intro s
  refine ⟨fun hbad => exec_merge_badDescriptor ?_, fun hspace0 hspace1 hapart hheader0 hheader1 => ?_⟩
  · exact hbad.imp (fun h => decide_eq_false (Nat.not_le.mpr h)) fun h =>
      h.imp (fun h => decide_eq_false (Nat.not_le.mpr h)) (partlyOverlaps_iff s).mpr
  · have h : Mergeable s := ⟨decide_eq_true hspace0, decide_eq_true hspace1,
      Bool.eq_false_iff.mpr fun ho => hapart ((partlyOverlaps_iff s).mp ho), hheader0, hheader1⟩
    refine ⟨fun c hc => h.exec_error0 hc, fun f c hf hc => ?_, fun f g hf hg hdiffer => ?_⟩
    · obtain ⟨hlen, -⟩ := filterAt_ok hf
      rw [h.exec_error1 hf hc, validateEvents_of_room s hlen]
      rfl
    · obtain ⟨hlen0, -⟩ := filterAt_ok hf
      obtain ⟨hlen1, -⟩ := filterAt_ok hg
      have hc : f.compatible g = false := Bool.eq_false_iff.mpr fun hc => by
        obtain rfl := eq_of_compatible hf hg hc
        obtain ⟨hlen, hheader⟩ := same_of_filterAt_eq hf hg
        exact hdiffer.elim (fun hne => hne (BitVec.eq_of_toNat_eq hlen)) fun hne => hne hheader
      rw [h.exec_incompatible hf hg hc, validateEvents_of_room s hlen0, validateEvents_of_room s hlen1]
      rfl

/-! ## The effect -/

/-- What MERGE leaves at address `a` (spec R218, R220). -/
def State.mergedByte (s : State) (a : Nat) : Byte :=
  if s.buf0.base + headerBytes ≤ a ∧ a < s.buf0.base + s.buf0.len then
    s.byteAt a ||| s.byteAt (s.buf1.base + (a - s.buf0.base))
  else s.byteAt a

/-- Ranges of one length that pass the descriptor check are one range or disjoint (spec R216). -/
theorem apart_of_not_partlyOverlaps {d e : Descriptor} (h : d.partlyOverlaps e = false) (hlen : d.len = e.len) :
    d.base = e.base ∨ d.base + d.len ≤ e.base ∨ e.base + e.len ≤ d.base := by
  obtain ⟨base, len⟩ := d
  obtain ⟨base', len'⟩ := e
  obtain rfl : len = len' := hlen
  simp only [Descriptor.partlyOverlaps, Descriptor.overlaps, Bool.and_eq_false_iff, decide_eq_false_iff_not, not_not,
    Descriptor.mk.injEq] at h
  dsimp only
  omega

/-- MERGE's byte loop on two ranges of one filter leaves each byte as R218 says. -/
theorem storeMerge_byteAt {s : State} {f : Filter} (hwf : Memory.wf s.mem = true) (hb : s.buf0.wellFormed = true)
    (hapart : s.buf0.partlyOverlaps s.buf1 = false) (hf : s.filterAt s.buf0 = .ok f) (hg : s.filterAt s.buf1 = .ok f)
    (a : Nat) : (storeMerge s f.arrayLen (s.buf1.base + headerBytes) (s.buf0.base + headerBytes)).byteAt a =
      s.mergedByte a := by
  obtain ⟨hlen, -⟩ := same_of_filterAt_eq hf hg
  obtain ⟨hroom, -, harray, -⟩ := filterAt_ok hf
  have hsep := apart_of_not_partlyOverlaps hapart hlen
  obtain ⟨-, hbytes⟩ := storeMerge_spec s hwf f.arrayLen (s.buf1.base + headerBytes) (s.buf0.base + headerBytes)
    (filterAt_space hb hf) (by omega)
  have hend : s.buf0.base + headerBytes + f.arrayLen = s.buf0.base + s.buf0.len := by omega
  rw [hbytes, hend]
  refine ite_congr rfl (fun hin => ?_) fun _ => rfl
  rw [show s.buf1.base + headerBytes + (a - (s.buf0.base + headerBytes)) = s.buf1.base + (a - s.buf0.base) by omega]

/-- The reads of the destination's header and of its array in the byte loop make up its range (spec R64, R218). -/
theorem destination_admitted {s : State} {f : Filter} {src : Nat} (hf : s.filterAt s.buf0 = .ok f)
    (hheader : ∀ e ∈ s.readEvents headerBytes s.buf0.base, s.admitsEvent e = true)
    (hmerge : ∀ e ∈ mergeEvents s f.arrayLen src (s.buf0.base + headerBytes), s.admitsEvent e = true) :
    s.Admitted .read s.buf0.base s.buf0.len := by
  intro a hlo hhi
  obtain ⟨-, -, harray, -⟩ := filterAt_ok hf
  by_cases ha : a < s.buf0.base + headerBytes
  · exact admitted_of_readEvents hheader a hlo ha
  · obtain ⟨v, hv⟩ := read_mem_mergeEvents s (n := f.arrayLen) (src := src) (Nat.le_of_not_lt ha) (by omega)
    exact hmerge _ hv

/-- A MERGE that ended OK: both ranges hold one filter, the destination was readable, and each byte is as R218 says. -/
theorem exec_merge_ok {s t : State} (hwf : Memory.wf s.mem = true) (h : exec .merge s = .next t) (hcode : t.code = 0#4) :
    ∃ f, s.buf0.wellFormed = true ∧ s.filterAt s.buf0 = .ok f ∧ s.filterAt s.buf1 = .ok f ∧
      s.Admitted .read s.buf0.base s.buf0.len ∧ ∀ a, t.byteAt a = s.mergedByte a := by
  obtain ⟨-, rfl⟩ | ⟨hb, -, hapart, ⟨c, -, rfl⟩ | ⟨f, hf, ⟨c, -, rfl⟩ | ⟨g, hg, ⟨-, rfl⟩ | ⟨hc, rfl⟩⟩⟩⟩ :=
    mergeCommand_next (finish_eq_next h)
  · exact absurd ((code_raise _ s).symm.trans hcode) (number_ne_zero _)
  · exact absurd ((code_raise c s).symm.trans hcode) (number_ne_zero c)
  · exact absurd ((code_raise c s).symm.trans hcode) (number_ne_zero c)
  · exact absurd ((code_raise _ s).symm.trans hcode) (number_ne_zero _)
  · obtain rfl := eq_of_compatible hf hg hc
    obtain ⟨hroom, -⟩ := filterAt_ok hf
    have hadmits := admitsEvent_of_trace h (by rw [done_trace, traced_trace, storeMerge_trace])
    rw [validateEvents_of_room s hroom] at hadmits
    simp only [List.forall_mem_append] at hadmits
    obtain ⟨⟨hheader, -⟩, hmerge⟩ := hadmits
    exact ⟨f, hb, hf, hg, destination_admitted hf hheader hmerge, storeMerge_byteAt hwf hb hapart hf hg⟩

/-- Settles O35: the filters are compatible and the accesses admitted, so the byte loop runs. -/
theorem mergeEffect : Obligations.MergeEffect := by
  rintro s B0 B1 T m k m' k' rfl rfl rfl hlen hwf hspace0 hspace1 hapart hholds hholds' hheader hread hsource hwrite
  have hlen' : s.buf0.len = s.buf1.len := congrArg BitVec.toNat hlen.symm
  have hf : s.filterAt s.buf0 = .ok ⟨s.headerAt s.buf0.base, m, k, s.buf0.len - headerBytes⟩ := hholds.filterAt_eq
  have hg : s.filterAt s.buf1 = .ok ⟨s.headerAt s.buf0.base, m', k', s.buf0.len - headerBytes⟩ := by
    have hverdict : s.filterAt s.buf1 = _ := State.HoldsFilter.filterAt_eq (by rw [← hlen']; exact hholds')
    rw [hverdict, ← hlen']
    exact congrArg _ (congrArg (Filter.mk · _ _ _) hheader.symm)
  have hmergeable : Mergeable s := {
    buf0 := decide_eq_true hspace0
    buf1 := decide_eq_true (by rw [← hlen']; exact hspace1)
    apart := Bool.eq_false_iff.mpr fun ho => by
      obtain ⟨-, -, h1, h2, h3⟩ := (partlyOverlaps_iff s).mp ho
      rw [hlen] at h1 h3
      omega
    header0 := fun hroom a hlo hhi => hread a hlo (hhi.trans_le (Nat.add_le_add_left hroom _))
    header1 := fun hroom a hlo hhi => hsource a hlo (hhi.trans_le (Nat.add_le_add_left (hroom.trans_eq hlen'.symm) _)) }
  obtain ⟨events, hmerge⟩ := hmergeable.exec_merge hf hg (by simp [Filter.compatible])
    (by rw [← hlen']; exact hsource) hread hwrite
  obtain ⟨-, -, -, -, -, hbyte⟩ := exec_merge_ok hwf hmerge (code_done _ _)
  exact ⟨_, hmerge, rfl, sameRegs_of_exec rfl hmerge, hbyte⟩

/-! ## Laws -/

/-- The state with MERGE's two descriptors exchanged. -/
def State.swapped (s : State) : State :=
  { s with buf0Base := s.buf1Base, buf0Len := s.buf1Len, buf1Base := s.buf0Base, buf1Len := s.buf0Len }

/-- Behind the header, MERGE leaves the OR of the two bytes (spec R218). -/
theorem mergedByte_array (s : State) {j : Nat} (hlo : headerBytes ≤ j) (hhi : j < s.buf0.len) :
    s.mergedByte (s.buf0.base + j) = s.byteAt (s.buf0.base + j) ||| s.byteAt (s.buf1.base + j) := by
  rw [State.mergedByte, if_pos (by omega), Nat.add_sub_cancel_left]

/-- Settles O51: OR is commutative and idempotent. -/
theorem mergeIsCommutativeAndIdempotent : Obligations.MergeIsCommutativeAndIdempotent := by
  refine ⟨fun s t u hwf hmerge hcode hswapped hcode' j hlo hhi => ?_, fun s t hwf hmerge hcode hsame => ?_⟩
  · obtain ⟨f, -, hf, hg, -, hbyte⟩ := exec_merge_ok hwf hmerge hcode
    obtain ⟨-, -, -, -, -, hbyte'⟩ := exec_merge_ok (s := s.swapped) hwf hswapped hcode'
    obtain ⟨hlen, -⟩ := same_of_filterAt_eq hf hg
    calc t.byteAt (s.buf0.base + j) = s.byteAt (s.buf0.base + j) ||| s.byteAt (s.buf1.base + j) :=
          (hbyte _).trans (mergedByte_array s hlo hhi)
      _ = s.byteAt (s.buf1.base + j) ||| s.byteAt (s.buf0.base + j) := BitVec.or_comm _ _
      _ = u.byteAt (s.buf1.base + j) := ((hbyte' _).trans (mergedByte_array s.swapped hlo (hlen ▸ hhi))).symm
  · obtain ⟨-, -, -, -, -, hbyte⟩ := exec_merge_ok hwf hmerge hcode
    refine wf_ext _ _ (exec_wf hwf hmerge) hwf fun a => (hbyte a).trans ?_
    unfold State.mergedByte
    split
    · next hin => rw [← hsame, Nat.add_sub_cancel' (by omega), BitVec.or_self]; rfl
    · rfl

/-- A bit set in one of the two arrays is set in the destination's after MERGE (spec R218). -/
theorem bitAt_of_merge {s t : State} {f : Filter} {e : List Byte} {q : Nat} (hf : s.filterAt s.buf0 = .ok f)
    (hbyte : ∀ a, t.byteAt a = s.mergedByte a) (hq : q ∈ probeBits e f)
    (hset : s.bitAt (s.buf0.base + headerBytes) q = true ∨ s.bitAt (s.buf1.base + headerBytes) q = true) :
    t.bitAt (s.buf0.base + headerBytes) q = true := by
  obtain ⟨-, hhi⟩ := inRange_iff.mp (inRange_of_array (probeBits_inRange hf hq))
  unfold bitAddress at hhi
  have hbyte : t.byteAt (s.buf0.base + headerBytes + q / 8) =
      s.byteAt (s.buf0.base + headerBytes + q / 8) ||| s.byteAt (s.buf1.base + headerBytes + q / 8) := by
    simp only [Nat.add_assoc] at hhi ⊢
    exact (hbyte _).trans (mergedByte_array s (Nat.le_add_right _ _) (by omega))
  rw [State.bitAt, hbyte, BitVec.getLsbD_or, Bool.or_eq_true]
  exact hset

/-- Settles O52: MERGE keeps the destination's bits and adds the source's, at equal places. -/
theorem mergeKeepsTheMembersOfBoth : Obligations.MergeKeepsTheMembersOfBoth := by
  intro s t u hwf hmerge hcode hapart htest hresult
  obtain ⟨f, hb, hf, hg, hread, hbyte⟩ := exec_merge_ok hwf hmerge hcode
  obtain ⟨he, helement, hset⟩ : s.elem.wellFormed = true ∧ s.Admitted .read s.elem.base s.elem.len ∧
      ∀ q ∈ probeBits s.elementBytes f,
        s.bitAt (s.buf0.base + headerBytes) q = true ∨ s.bitAt (s.buf1.base + headerBytes) q = true := by
    obtain htest | htest := htest
    · obtain ⟨f', he, helement, hf', hset⟩ := exec_test_true htest hresult
      obtain rfl : f = f' := Except.ok.inj (hf.symm.trans hf')
      exact ⟨he, helement, fun q hq => .inl (hset q hq)⟩
    · obtain ⟨f', he, helement, hg', hset⟩ := exec_test_true htest hresult
      obtain rfl : f = f' := Except.ok.inj (hg.symm.trans hg')
      have hbytes : State.elementBytes { s with buf0Base := s.buf1Base, buf0Len := s.buf1Len } = s.elementBytes :=
        bytesAt_congr _ _ fun _ _ _ => rfl
      exact ⟨he, helement, fun q hq => .inr (hset q (hbytes ▸ hq))⟩
  have htestable : Testable s f := .of_admitted hb he hf hread helement
  have htestable' : Testable t f := htestable.after_exec (by decide) hwf hmerge hapart
  refine htestable'.exec_test_of_set ?_
  rw [exec_elementBytes hwf hmerge hapart, exec_buf0 hmerge]
  exact fun q hq => bitAt_of_merge hf hbyte hq (hset q hq)

end Sys2Proof.Machine
end

section
/-! No false negatives (spec R230): each step that leaves the filter to ADD and MERGE keeps its header and its set bits. -/

namespace Sys2Proof.Machine

/-- From `s` to `t` the filter at `base` keeps its header and its set bits, and the platform admits what it did. -/
structure KeepsFilter (base len : Nat) (s t : State) : Prop where
  wf : Memory.wf t.mem = true
  denied : t.denied = s.denied
  header : ∀ a, inRange base headerBytes a = true → t.byteAt a = s.byteAt a
  grows : ∀ a j, inRange base len a = true → (s.byteAt a).getLsbD j = true → (t.byteAt a).getLsbD j = true

theorem KeepsFilter.of_byteAt_eq {base len : Nat} {s t : State} (hlen : headerBytes ≤ len) (hwf : Memory.wf t.mem = true)
    (hdenied : t.denied = s.denied) (h : ∀ a, inRange base len a = true → t.byteAt a = s.byteAt a) :
    KeepsFilter base len s t where
  wf := hwf
  denied := hdenied
  header a ha := h a (by rw [inRange_iff] at ha ⊢; omega)
  grows a _ ha hj := by rwa [h a ha]

theorem KeepsFilter.of_mem_eq {base len : Nat} {s t : State} (hwf : Memory.wf s.mem = true) (hmem : t.mem = s.mem)
    (hdenied : t.denied = s.denied) : KeepsFilter base len s t where
  wf := hmem ▸ hwf
  denied := hdenied
  header a _ := congrArg (Memory.read · a) hmem
  grows a _ _ hj := by rwa [State.byteAt, hmem]

theorem KeepsFilter.trans {base len : Nat} {s t u : State} (h : KeepsFilter base len s t) (h' : KeepsFilter base len t u) :
    KeepsFilter base len s u where
  wf := h'.wf
  denied := h'.denied.trans h.denied
  header a ha := (h'.header a ha).trans (h.header a ha)
  grows a j ha hj := h'.grows a j ha (h.grows a j ha hj)

/-- A command that leaves the filter at `base` to ADD and MERGE (spec R230); what `State.Benign` asks of a write of CMD. -/
def LeavesFilter (i : Instr) (s : State) (base len : Nat) : Prop :=
  match i with
  | .add | .merge => s.buf0 = ⟨base, len⟩ ∨ s.buf0.overlaps ⟨base, len⟩ = false
  | .init | .setbit => s.buf0.overlaps ⟨base, len⟩ = false
  | _ => True

/-- Such a command writes nothing of the filter, or is ADD or MERGE on it. -/
theorem LeavesFilter.cases {i : Instr} {s : State} {base len : Nat} (h : LeavesFilter i s base len) :
    (∀ a, inRange base len a = true → ¬StoresTo i s a) ∨ (i ∈ [Instr.add, .merge] ∧ s.buf0 = ⟨base, len⟩) := by
  have apart (ho : s.buf0.overlaps ⟨base, len⟩ = false) : ∀ a, inRange base len a = true → ¬StoresTo i s a :=
    fun a ha hstores => overlaps_eq_false ho (storesTo_buf0 hstores) ha
  cases i with
  | add | merge => exact h.elim (fun hb => .inr ⟨by decide, hb⟩) fun ho => .inl (apart ho)
  | init | setbit => exact .inl (apart h)
  | nop | optbits | optprobes | derive | probe | testbit | test => exact .inl fun a _ hstores => hstores

theorem exec_keepsFilter {i : Instr} {s t : State} {base len : Nat} (hlen : headerBytes ≤ len)
    (hwf : Memory.wf s.mem = true) (hi : LeavesFilter i s base len) (h : exec i s = .next t) :
    KeepsFilter base len s t := by
  obtain ⟨-, hdenied, -, -⟩ := (exec_ends h).frame
  obtain hnone | ⟨hi, hb⟩ := hi.cases
  · exact .of_byteAt_eq hlen (exec_wf hwf h) hdenied fun a ha => exec_byteAt_eq hwf h (hnone a ha)
  · have hheader : ∀ a, inRange base headerBytes a = true → ¬StoresTo i s a := by
      intro a ha hstores
      have harray : inRange (base + headerBytes) (len - headerBytes) a = true := by
        simpa only [hb] using storesTo_array hi hstores
      rw [inRange_iff] at ha harray
      omega
    have hsets : i ∈ [Instr.add, .setbit, .merge] := by
      obtain rfl | rfl : i = .add ∨ i = .merge := by simpa using hi
      all_goals decide
    exact ⟨exec_wf hwf h, hdenied, fun a ha => exec_byteAt_eq hwf h (hheader a ha),
      fun a j _ hj => exec_onlySetsBits hsets hwf h hj⟩

/-! ## What steps keep -/

theorem State.Benign.leavesFilter {s : State} {base len : Nat} {v : Word} {rest : List HostAction} {i : Instr}
    (h : s.Benign base len) (hq : s.hostQueue = .writeSlot 0 v :: rest) (hi : decode (v.setWidth 32) = .ok i) :
    LeavesFilter i s base len := by
  unfold State.Benign at h
  rw [hq] at h
  have hcommand := h rfl
  rw [hi] at hcommand
  cases i with
  | add | merge | init | setbit => exact hcommand
  | nop | optbits | optprobes | derive | probe | testbit | test => exact trivial

theorem step_keepsFilter {s t : State} {base len : Nat} (hlen : headerBytes ≤ len) (hwf : Memory.wf s.mem = true)
    (hb : s.Benign base len) (h : step s = .next t) : KeepsFilter base len s t := by
  cases hq : s.hostQueue with
  | nil =>
    rw [step_idle hq] at h
    cases h
    exact .of_mem_eq hwf rfl rfl
  | cons action rest =>
    have hact := h
    rw [step_action hq] at hact
    cases action with
    | writeSlot slot v =>
      rw [hostAct] at hact
      split at hact
      · next h0 =>
        subst h0
        cases hi : decode (v.setWidth 32) with
        | error e =>
          rw [issue_illegal hi] at hact
          cases hact
          exact .of_mem_eq hwf rfl rfl
        | ok i =>
          rw [issue_ok hi] at hact
          have hleaves := hb.leavesFilter hq hi
          obtain ⟨hwf', hdenied, hheader, hgrows⟩ :=
            exec_keepsFilter (s := startCommand { s with hostQueue := rest } (v.setWidth 32)) hlen hwf hleaves hact
          exact ⟨hwf', hdenied, hheader, hgrows⟩
      · next h0 =>
        obtain ⟨-, hmem, hdenied, -⟩ := writeSlot_frame { s with hostQueue := rest } h0 v
        cases hact
        exact .of_mem_eq hwf hmem hdenied
    | writeByte a v =>
      cases hact
      unfold State.Benign at hb
      rw [hq] at hb
      refine .of_byteAt_eq hlen (write_wf _ hwf _ _ a.isLt) rfl fun b hin => ?_
      refine read_write_other _ hwf _ _ _ ?_
      rintro rfl
      exact absurd (hb.symm.trans hin) (by decide)
    | resetDuring v cut =>
      unfold State.Benign at hb
      rw [hq] at hb
      exact hb.elim
    | readSlot slot | readByte a | reset =>
      cases hact
      exact .of_mem_eq hwf rfl rfl

theorem run_keepsFilter {s t : State} {base len : Nat} (hlen : headerBytes ≤ len) (hwf : Memory.wf s.mem = true)
    (h : FilterRun base len s t) : KeepsFilter base len s t := by
  induction h with
  | refl => exact .of_mem_eq hwf rfl rfl
  | tail u v _ hb hstep ih => exact ih.trans (step_keepsFilter hlen ih.wf hb hstep)

/-- A filter whose header stands is the same filter (spec R193). -/
theorem KeepsFilter.filterAt_eq {d : Descriptor} {s t : State} (h : KeepsFilter d.base d.len s t) :
    t.filterAt d = s.filterAt d := filterAt_congr d fun a hlo hhi => h.header a (inRange_iff.mpr ⟨hlo, hhi⟩)

/-- A probed bit that is set stays set (spec R230). -/
theorem KeepsFilter.bitAt {d : Descriptor} {s t : State} {e : List Byte} {f : Filter} {q : Nat}
    (h : KeepsFilter d.base d.len s t) (hf : s.filterAt d = .ok f) (hq : q ∈ probeBits e f)
    (hset : s.bitAt (d.base + headerBytes) q = true) : t.bitAt (d.base + headerBytes) q = true :=
  h.grows _ _ (inRange_of_array (probeBits_inRange hf hq)) hset

/-- Settles O50: ADD sets the probed bits, and every step of the run keeps them and the header, so TEST finds them. -/
theorem noFalseNegatives : Obligations.NoFalseNegatives := by
  intro s t u hwf hadd hcode hrun hbuf hbytes helem hread
  obtain ⟨f, htest, -, hbits⟩ := exec_add_ok hwf hadd hcode
  obtain ⟨hlen, -⟩ := filterAt_ok htest.valid
  have hleaves : LeavesFilter .add s s.buf0.base s.buf0.len := Or.inl rfl
  have hadded : KeepsFilter s.buf0.base s.buf0.len s t := exec_keepsFilter hlen hwf hleaves hadd
  have hkept : KeepsFilter s.buf0.base s.buf0.len t u := run_keepsFilter hlen hadded.wf hrun
  have hfilter : t.filterAt s.buf0 = .ok f := hadded.filterAt_eq.trans htest.valid
  have htest' : Testable u f := htest.transfer (hkept.denied.trans hadded.denied) hbuf (hkept.filterAt_eq.trans hfilter)
    hbytes helem hread
  refine htest'.exec_test_of_set ?_
  rw [hbytes, hbuf]
  exact fun q hq => hkept.bitAt hfilter hq (hbits q hq)

end Sys2Proof.Machine
end

section
/-! Error endings (spec R240, R248, R250): a word that is no command, and what a command has done when it raises an error. -/

namespace Sys2Proof.Machine

/-! ## The endings by an error -/

/-- A trace of byte reads: no write and no evaluation of the hash primitive. -/
def OnlyReads (events : List PortEvent) : Prop := ∀ e ∈ events, ∃ a v, e = .read a v

theorem onlyReads_nil : OnlyReads [] := nofun

theorem OnlyReads.append {x y : List PortEvent} (hx : OnlyReads x) (hy : OnlyReads y) : OnlyReads (x ++ y) :=
  List.forall_mem_append.mpr ⟨hx, hy⟩

theorem onlyReads_validateEvents (s : State) (d : Descriptor) : OnlyReads (validateEvents s d) := fun _ he =>
  have ⟨a, _, hread⟩ := mem_validateEvents he
  ⟨a, s.byteAt a, hread⟩

theorem OnlyReads.writeCount_eq_zero {events : List PortEvent} (h : OnlyReads events) : writeCount events = 0 := by
  refine List.length_eq_zero_iff.mpr (List.filter_eq_nil_iff.mpr fun e he => ?_)
  obtain ⟨a, v, rfl⟩ := h e he
  exact Bool.false_ne_true

theorem OnlyReads.hashCount_eq_zero {events : List PortEvent} (h : OnlyReads events) : hashCount events = 0 := by
  refine List.length_eq_zero_iff.mpr (List.filter_eq_nil_iff.mpr fun e he => ?_)
  obtain ⟨a, v, rfl⟩ := h e he
  exact Bool.false_ne_true

/-- If `t` is an ending by an error, it is `s` but for STATUS and the reads made for the checks (spec R250). -/
def OnlyReadsBeforeError (s t : State) : Prop :=
  t.code ≠ 0#4 → ∃ c events, t = s.errorEnd c events ∧ OnlyReads events

theorem OnlyReadsBeforeError.of_done (s : State) (r : Bool) (u : State) : OnlyReadsBeforeError s (done r u) :=
  fun hcode => absurd (code_done r u) hcode

theorem OnlyReadsBeforeError.of_errorEnd {s : State} {c : ErrorCode} {events : List PortEvent} (h : OnlyReads events) :
    OnlyReadsBeforeError s (s.errorEnd c events) := fun _ => ⟨c, events, rfl, h⟩

theorem OnlyReadsBeforeError.of_raise (s : State) (c : ErrorCode) : OnlyReadsBeforeError s (raise c s) :=
  fun _ => ⟨c, [], raise_eq_errorEnd s c, onlyReads_nil⟩

/-- A command that makes no access raises its error in the state before it. -/
theorem OnlyReadsBeforeError.of_trace_eq {i : Instr} {s t : State} (h : Ends i s t) (htrace : t.trace = s.trace) :
    OnlyReadsBeforeError s t := by
  cases h with
  | @error c events _ _ =>
    obtain rfl : events = [] := List.append_right_eq_self.mp htrace
    exact .of_errorEnd onlyReads_nil
  | ok _ _ _ => exact .of_done s _ _

/-- Every error of a command is raised by a check that stands before the first write and the first hash evaluation. -/
theorem exec_onlyReadsBeforeError {i : Instr} {s t : State} (h : exec i s = .next t) : OnlyReadsBeforeError s t := by
  have hends := exec_ends h
  have hread0 := onlyReads_validateEvents s s.buf0
  cases i with
  | nop => cases h; exact .of_done s _ _
  | optbits =>
    obtain ⟨-, htrace, -⟩ := optbitsCommand_fields Config.engine s
    cases h
    exact .of_trace_eq hends htrace
  | optprobes =>
    obtain ⟨-, htrace, -⟩ := optprobesCommand_fields Config.engine s
    cases h
    exact .of_trace_eq hends htrace
  | derive =>
    obtain ⟨-, htrace, -⟩ := deriveCommand_fields Config.engine s
    cases h
    exact .of_trace_eq hends htrace
  | probe =>
    obtain ⟨-, rfl⟩ | ⟨-, -, rfl⟩ | ⟨-, -, rfl⟩ := probeCommand_next (finish_eq_next h)
    · exact .of_raise s _
    · exact .of_raise s _
    · exact .of_done s _ _
  | setbit =>
    obtain ⟨c, -, rfl⟩ | ⟨-, rfl⟩ := setbitCommand_next (finish_eq_next h)
    · exact .of_raise s c
    · exact .of_done s _ _
  | testbit =>
    obtain ⟨c, -, rfl⟩ | ⟨-, rfl⟩ := testbitCommand_next (finish_eq_next h)
    · exact .of_raise s c
    · exact .of_done s _ _
  | init =>
    obtain ⟨c, -, rfl⟩ | ⟨n, -, rfl⟩ := initCommand_next (finish_eq_next h)
    · exact .of_raise s c
    · exact .of_done s _ _
  | add =>
    obtain ⟨-, rfl⟩ | ⟨c, -, -, -, rfl⟩ | ⟨f, -, -, -, rfl⟩ := addCommand_next (finish_eq_next h)
    · exact .of_raise s _
    · exact .of_errorEnd hread0
    · exact .of_done s _ _
  | test =>
    obtain ⟨-, rfl⟩ | ⟨c, -, -, -, rfl⟩ | ⟨f, -, -, -, rfl⟩ := testCommand_next (finish_eq_next h)
    · exact .of_raise s _
    · exact .of_errorEnd hread0
    · exact .of_done s _ _
  | merge =>
    have hreads := hread0.append (onlyReads_validateEvents s s.buf1)
    obtain ⟨-, rfl⟩ | ⟨-, -, -, ⟨c, -, rfl⟩ | ⟨f0, -, ⟨c, -, rfl⟩ | ⟨f1, -, ⟨-, rfl⟩ | ⟨-, rfl⟩⟩⟩⟩ :=
      mergeCommand_next (finish_eq_next h)
    · exact .of_raise s _
    · exact .of_errorEnd hread0
    · exact .of_errorEnd hreads
    · exact .of_errorEnd hreads
    · exact .of_done s _ _

/-- Settles O12: a command that raises an error has only read, and STATUS is the number of the error. -/
theorem errorEndingWritesStatusOnly : Obligations.ErrorEndingWritesStatusOnly := by
  intro i s t h hcode
  obtain ⟨c, events, rfl, hreads⟩ := exec_onlyReadsBeforeError h hcode
  rw [← raise_traced]
  refine ⟨?_, result_raise c _, events, rfl, hreads.writeCount_eq_zero, hreads.hashCount_eq_zero⟩
  rw [code_raise]
  rfl

/-! ## Illegal words -/

/-- OPC of an illegal word by its five values and by its range (spec R92, R94). -/
theorem opcode_reserved_of_mem (opc : BitVec 4) :
    opc ∈ [0x7#4, 0xC#4, 0xD#4, 0xE#4, 0xF#4] → opc.toNat = 0x7 ∨ 0xC ≤ opc.toNat := by
  revert opc
  decide

/-- A word with a reserved bit set or a reserved opcode is no command (spec R91, R94). -/
theorem decode_eq_error_of_fields {w : Half}
    (h : (fieldsOf w).rsv ≠ 0#28 ∨ (fieldsOf w).opc ∈ [0x7#4, 0xC#4, 0xD#4, 0xE#4, 0xF#4]) :
    ∃ e, decode w = .error e := by
  rcases lt_or_ge w.toNat 16 with hlt | hge
  · have hzero : (fieldsOf w).rsv = 0#28 := beq_iff_eq.mp ((reservedZero_fieldsOf w).mpr hlt)
    have hopc := h.resolve_left fun hne => hne hzero
    rw [decode_of_lt hlt]
    exact ⟨.reservedOpcode, (decodeOpcode_eq_error _ _).mpr ⟨rfl, opcode_reserved_of_mem _ hopc⟩⟩
  · exact ⟨.reservedBits, decode_of_ge hge⟩

/-- Settles O5: the word does not decode, so the write of slot 0 raises IllegalCommand. -/
theorem illegalWordRaisesIllegalCommand : Obligations.IllegalWordRaisesIllegalCommand := by
  intro s rest v hq hfields
  obtain ⟨e, he⟩ := decode_eq_error_of_fields (w := v.setWidth 32) hfields
  calc step s = issue { s with hostQueue := rest } (v.setWidth 32) := step_action hq
    _ = .next (raise .illegalCommand (startCommand { s with hostQueue := rest } (v.setWidth 32))) := issue_illegal he

end Sys2Proof.Machine
end

section
/-! A filter is its bytes (spec R289): what TEST answers is a function of the bytes of the filter and of the element, not of
the addresses at which they stand. -/

namespace Sys2Proof.Machine

/-- Equal byte strings hold the same byte at the same place. -/
theorem byteAt_eq_of_bytesAt_eq {s s' : State} {n a a' i : Nat} (h : s.bytesAt n a = s'.bytesAt n a') (hi : i < n) :
    s.byteAt (a + i) = s'.byteAt (a' + i) := by
  induction n generalizing a a' i with
  | zero => exact absurd hi (Nat.not_lt_zero i)
  | succ n ih =>
    obtain ⟨hfirst, hrest⟩ := List.cons.inj h
    cases i with
    | zero => exact hfirst
    | succ i =>
      rw [Nat.add_comm i 1, ← Nat.add_assoc, ← Nat.add_assoc]
      exact ih hrest (by omega)

section
variable {s s' : State} {d d' : Descriptor} (hlen : d.len = d'.len)
  (hbytes : s.bytesAt d.len d.base = s'.bytesAt d'.len d'.base)
include hlen hbytes

theorem headerAt_eq_of_bytesAt_eq (hroom : headerBytes ≤ d.len) : s.headerAt d.base = s'.headerAt d'.base := by
  obtain ⟨rest, hrest⟩ := Nat.exists_eq_add_of_le hroom
  rw [← hlen, hrest, bytesAt_add, bytesAt_add] at hbytes
  exact congrArg headerOf (List.append_inj_left hbytes (by rw [bytesAt_length, bytesAt_length]))

/-- ValidateFilter judges the bytes of a range (spec R193, R289). -/
theorem filterAt_eq_of_bytesAt_eq : s.filterAt d = s'.filterAt d' := by
  unfold State.filterAt
  rw [← hlen]
  refine ite_congr rfl (fun _ => rfl) fun hroom => ?_
  rw [headerAt_eq_of_bytesAt_eq hlen hbytes (Nat.le_of_not_lt hroom)]

/-- The probed bits of a valid filter stand in its bytes (spec R68, R204). -/
theorem bitAt_eq_of_bytesAt_eq {f : Filter} {e : List Byte} {q : Nat} (hf : s.filterAt d = .ok f) (hq : q ∈ probeBits e f) :
    s.bitAt (d.base + headerBytes) q = s'.bitAt (d'.base + headerBytes) q := by
  have hin : inRange d.base d.len (d.base + headerBytes + q / 8) = true := inRange_of_array (probeBits_inRange hf hq)
  rw [← hlen] at hbytes
  have hbyte := byteAt_eq_of_bytesAt_eq (i := headerBytes + q / 8) hbytes (by rw [inRange_iff] at hin; omega)
  rw [← Nat.add_assoc, ← Nat.add_assoc] at hbyte
  rw [State.bitAt, State.bitAt, hbyte]

end

/-- STATUS after TEST where both ranges lie in the address space: ValidateFilter's error, or the conjunction of the probed
bits (spec R210). -/
def State.testStatus (s : State) : Half :=
  match s.filterAt s.buf0 with
  | .error c => statusOfError c
  | .ok f => statusOfResult ((probeBits s.elementBytes f).all (s.bitAt (s.buf0.base + headerBytes)))

theorem exec_test_status {s t : State} (hb : s.buf0.wellFormed = true) (he : s.elem.wellFormed = true)
    (h : exec .test s = .next t) : t.status = s.testStatus := by
  obtain ⟨hw | hw, -⟩ | ⟨c, -, -, hf, rfl⟩ | ⟨f, -, -, hf, rfl⟩ := testCommand_next (finish_eq_next h)
  · exact absurd (hw.symm.trans hb) Bool.false_ne_true
  · exact absurd (hw.symm.trans he) Bool.false_ne_true
  · rw [State.testStatus, hf]
    rfl
  · rw [State.testStatus, hf]
    rfl

/-- The answer of TEST depends on bytes only (spec R289). -/
theorem testStatus_eq_of_bytesAt_eq {s s' : State} (hlen : s.buf0.len = s'.buf0.len)
    (hbytes : s.bytesAt s.buf0.len s.buf0.base = s'.bytesAt s'.buf0.len s'.buf0.base)
    (helement : s.elementBytes = s'.elementBytes) : s.testStatus = s'.testStatus := by
  unfold State.testStatus
  rw [← filterAt_eq_of_bytesAt_eq hlen hbytes, ← helement]
  cases hf : s.filterAt s.buf0 with
  | error c => rfl
  | ok f =>
    refine congrArg statusOfResult (Bool.eq_iff_iff.mpr ?_)
    rw [List.all_eq_true, List.all_eq_true]
    exact forall₂_congr fun q hq => by rw [bitAt_eq_of_bytesAt_eq hlen hbytes hf hq]

/-- Settles O53: both STATUS words are the one function of the same bytes. -/
theorem equalBytesAreEqualFilters : Obligations.EqualBytesAreEqualFilters := by
  intro s s' t t' hlen hbytes helement hb hb' he he' h h'
  calc t.status = s.testStatus := exec_test_status hb he h
    _ = s'.testStatus := testStatus_eq_of_bytesAt_eq hlen hbytes helement
    _ = t'.status := (exec_test_status hb' he' h').symm

end Sys2Proof.Machine
end

section
/-! The numbers of accesses and hash evaluations of an OK ending (spec R300): counts add up over a trace, each operation has
its count, and each command is a sequence of operations. -/

namespace Sys2Proof.Machine

/-- A trace of this many byte reads, byte writes and hash evaluations. -/
def Counts (events : List PortEvent) (reads writes hashes : Nat) : Prop :=
  readCount events = reads ∧ writeCount events = writes ∧ hashCount events = hashes

section
variable {x y : List PortEvent} {reads writes hashes reads' writes' hashes' : Nat}

theorem counts_nil : Counts [] 0 0 0 := ⟨rfl, rfl, rfl⟩

theorem Counts.read (a : Nat) (v : Byte) : Counts x reads writes hashes → Counts (.read a v :: x) (reads + 1) writes hashes
  | ⟨hreads, hwrites, hhashes⟩ => ⟨congrArg (· + 1) hreads, hwrites, hhashes⟩

theorem Counts.write (a : Nat) (v : Byte) : Counts x reads writes hashes → Counts (.write a v :: x) reads (writes + 1) hashes
  | ⟨hreads, hwrites, hhashes⟩ => ⟨hreads, congrArg (· + 1) hwrites, hhashes⟩

theorem Counts.hash (word : Word) : Counts x reads writes hashes → Counts (.hash word :: x) reads writes (hashes + 1)
  | ⟨hreads, hwrites, hhashes⟩ => ⟨hreads, hwrites, congrArg (· + 1) hhashes⟩

theorem writeCount_append (x y : List PortEvent) : writeCount (x ++ y) = writeCount x + writeCount y := by simp [writeCount]

theorem Counts.append : Counts x reads writes hashes → Counts y reads' writes' hashes' →
    Counts (x ++ y) (reads + reads') (writes + writes') (hashes + hashes')
  | ⟨hreads, hwrites, hhashes⟩, ⟨hreads', hwrites', hhashes'⟩ =>
    ⟨(readCount_append x y).trans (congrArg₂ _ hreads hreads'), (writeCount_append x y).trans (congrArg₂ _ hwrites hwrites'),
      (hashCount_append x y).trans (congrArg₂ _ hhashes hhashes')⟩

end

/-! ## The counts of each operation -/

theorem counts_readEvents (s : State) (n a : Nat) : Counts (s.readEvents n a) n 0 0 := by
  induction n generalizing a with
  | zero => exact counts_nil
  | succ n ih => exact (ih (a + 1)).read a _

theorem counts_validateEvents {s : State} {d : Descriptor} {f : Filter} (hf : s.filterAt d = .ok f) :
    Counts (validateEvents s d) 20 0 0 := by
  obtain ⟨hroom, -⟩ := filterAt_ok hf
  rw [validateEvents_of_room s hroom]
  exact counts_readEvents s headerBytes d.base

theorem counts_writeEvents (bs : List Byte) (a : Nat) : Counts (writeEvents bs a) 0 bs.length 0 := by
  induction bs generalizing a with
  | nil => exact counts_nil
  | cons b bs ih => exact (ih (a + 1)).write a b

theorem counts_setBitEvents (s : State) (arr q : Nat) : Counts (setBitEvents s arr q) 1 1 0 :=
  (counts_nil.write _ _).read _ _

/-- Each probe of ADD is a hash evaluation, a read and a write (spec R172, R205). -/
theorem counts_addEvents (P : Params) (e : List Byte) (seed : Word) (arr bitLength : Nat) (entries : List Int) (s : State) :
    Counts (addEvents P e seed arr bitLength entries s) entries.length entries.length entries.length := by
  induction entries generalizing s with
  | nil => exact counts_nil
  | cons c cs ih => exact (((ih _).write _ _).read _ _).hash _

/-- Each probe TEST makes is a hash evaluation and a read (spec R175, R205, R210). -/
theorem counts_testEvents (P : Params) (e : List Byte) (seed : Word) (arr bitLength : Nat) (s : State) (entries : List Int) :
    Counts (testEvents P e seed arr bitLength s entries)
      (probesMade ((entries.map (probeBit P e seed bitLength)).map (s.bitAt arr))) 0
      (probesMade ((entries.map (probeBit P e seed bitLength)).map (s.bitAt arr))) := by
  induction entries with
  | nil => exact counts_nil
  | cons c cs ih =>
    rw [testEvents, List.map_cons, List.map_cons]
    cases s.bitAt arr (probeBit P e seed bitLength c) with
    | true => exact (ih.read _ _).hash _
    | false => exact (counts_nil.read _ _).hash _

/-- Each byte of MERGE's loop is two reads and a write (spec R218, R220). -/
theorem counts_mergeEvents (s : State) (n src dst : Nat) : Counts (mergeEvents s n src dst) (2 * n) n 0 := by
  induction n generalizing s src dst with
  | zero => exact counts_nil
  | succ n ih => exact (((ih _ _ _).write _ _).read _ _).read _ _

/-! ## The number of probes -/

theorem probesMade_le (bits : List Bool) : probesMade bits ≤ bits.length := by
  induction bits with
  | nil => exact Nat.le_refl 0
  | cons b bits ih =>
    cases b with
    | true => exact Nat.succ_le_succ ih
    | false => exact Nat.succ_le_succ (Nat.zero_le _)

theorem probesMade_pos {bits : List Bool} (h : 0 < bits.length) : 1 ≤ probesMade bits := by
  cases bits with
  | nil => exact absurd h (Nat.lt_irrefl 0)
  | cons b bits => cases b <;> exact Nat.succ_le_succ (Nat.zero_le _)

/-- Only a clear bit ends TEST's probes early (spec R210). -/
theorem probesMade_of_all {bits : List Bool} (h : ∀ b ∈ bits, b = true) : probesMade bits = bits.length := by
  induction bits with
  | nil => rfl
  | cons b bits ih =>
    obtain ⟨rfl, hrest⟩ := List.forall_mem_cons.mp h
    exact congrArg (· + 1) (ih hrest)

/-- The seed table has an entry for every probe of a valid filter (spec R112, R195). -/
theorem probeEntries_length {s : State} {d : Descriptor} {f : Filter} (hf : s.filterAt d = .ok f) :
    (probeEntries Config.engine f).length = f.probes := by
  obtain ⟨-, -, -, -, -, hk⟩ := filterAt_ok hf
  rw [probeEntries, List.length_take, SeedTable.length_eq, Nat.min_eq_left hk]

/-- A range that ValidateFilter accepts meets R193's conditions. -/
theorem holdsFilter_of_filterAt {s : State} {d : Descriptor} {f : Filter} (hf : s.filterAt d = .ok f) :
    s.HoldsFilter d.base d.len f.bits f.probes := by
  obtain ⟨hroom, hheader, harray, hderive, hsize, hk⟩ := filterAt_ok hf
  rw [hheader] at hderive
  obtain ⟨hn, hlo, hhi, hm, hmax, hprobes⟩ := derive_eq_some hderive
  exact ⟨hroom, hn, hlo, hhi, hm, hmax, harray.symm.trans hsize, hprobes, hk⟩

/-! ## The counts of each command -/

theorem code_raise_ne_zero (c : ErrorCode) (s : State) : (raise c s).code ≠ 0#4 :=
  fun h => number_ne_zero c ((code_raise c s).symm.trans h)

section
variable {s t : State}

/-- A command that leaves the trace as it was has made no access (spec R300). -/
theorem counts_of_trace_eq (h : t.trace = s.trace) : ∃ events, t.trace = s.trace ++ events ∧ Counts events 0 0 0 :=
  ⟨[], by rw [h, List.append_nil], counts_nil⟩

variable (hcode : t.code = 0#4)
include hcode

theorem exec_probe_counts (h : exec .probe s = .next t) :
    ∃ events, t.trace = s.trace ++ events ∧ Counts events s.elemLen.toNat 0 1 := by
  obtain ⟨-, rfl⟩ | ⟨-, -, rfl⟩ | ⟨-, -, rfl⟩ := probeCommand_next (finish_eq_next h)
  · exact absurd hcode (code_raise_ne_zero _ s)
  · exact absurd hcode (code_raise_ne_zero _ s)
  · exact ⟨_, rfl, (counts_readEvents s _ _).append (counts_nil.hash _)⟩

theorem exec_setbit_counts (h : exec .setbit s = .next t) :
    ∃ events, t.trace = s.trace ++ events ∧ Counts events 1 1 0 := by
  obtain ⟨c, -, rfl⟩ | ⟨-, rfl⟩ := setbitCommand_next (finish_eq_next h)
  · exact absurd hcode (code_raise_ne_zero c s)
  · exact ⟨_, rfl, counts_setBitEvents s _ _⟩

theorem exec_testbit_counts (h : exec .testbit s = .next t) :
    ∃ events, t.trace = s.trace ++ events ∧ Counts events 1 0 0 := by
  obtain ⟨c, -, rfl⟩ | ⟨-, rfl⟩ := testbitCommand_next (finish_eq_next h)
  · exact absurd hcode (code_raise_ne_zero c s)
  · exact ⟨_, rfl, counts_nil.read _ _⟩

theorem exec_init_counts (h : exec .init s = .next t) :
    ∃ events, t.trace = s.trace ++ events ∧ Counts events 0 s.buf0Len.toNat 0 := by
  obtain ⟨c, -, rfl⟩ | ⟨n, hn, rfl⟩ := initCommand_next (finish_eq_next h)
  · exact absurd hcode (code_raise_ne_zero c s)
  · have hlength : (s.newFilterBytes n).length = s.buf0Len.toNat :=
      (newFilterBytes_length s n).trans (initCheck_len hn).symm
    have hcounts := counts_writeEvents (s.newFilterBytes n) s.buf0.base
    rw [hlength] at hcounts
    exact ⟨_, by rw [done_trace, traced_trace, traced_storeBytes_trace]; rfl, hcounts⟩

theorem exec_add_counts (h : exec .add s = .next t) :
    ∃ events, t.trace = s.trace ++ events ∧ ∃ m k, s.HoldsFilter s.buf0Base.toNat s.buf0Len.toNat m k ∧
      Counts events (20 + s.elemLen.toNat + k) k k := by
  obtain ⟨-, rfl⟩ | ⟨c, -, -, -, rfl⟩ | ⟨f, -, -, hf, rfl⟩ := addCommand_next (finish_eq_next h)
  · exact absurd hcode (code_raise_ne_zero _ s)
  · exact absurd hcode (code_raise_ne_zero c s)
  · have hcounts := ((counts_validateEvents hf).append (counts_readEvents s s.elem.len s.elem.base)).append
      (counts_addEvents Config.engine s.elementBytes f.header.seed (s.buf0.base + headerBytes) f.bitLength
        (probeEntries Config.engine f) s)
    simp only [probeEntries_length hf, Nat.zero_add] at hcounts
    exact ⟨_, by rw [done_trace, traced_trace, storeBits_trace], f.bits, f.probes, holdsFilter_of_filterAt hf, hcounts⟩

theorem exec_test_counts (h : exec .test s = .next t) :
    ∃ events, t.trace = s.trace ++ events ∧ ∃ m k j, s.HoldsFilter s.buf0Base.toNat s.buf0Len.toNat m k ∧ 1 ≤ j ∧ j ≤ k ∧
      (t.result = true → j = k) ∧ Counts events (20 + s.elemLen.toNat + j) 0 j := by
  obtain ⟨-, rfl⟩ | ⟨c, -, -, -, rfl⟩ | ⟨f, -, -, hf, rfl⟩ := testCommand_next (finish_eq_next h)
  · exact absurd hcode (code_raise_ne_zero _ s)
  · exact absurd hcode (code_raise_ne_zero c s)
  · have hlength : ((probeBits s.elementBytes f).map (s.bitAt (s.buf0.base + headerBytes))).length = f.probes := by
      rw [List.length_map, probeBits, List.length_map, probeEntries_length hf]
    have hpos : 0 < f.probes := by
      obtain ⟨c, cs, hentries⟩ := probeEntries_cons hf
      rw [← probeEntries_length hf, hentries]
      exact Nat.succ_pos _
    have hcounts := ((counts_validateEvents hf).append (counts_readEvents s s.elem.len s.elem.base)).append
      (counts_testEvents Config.engine s.elementBytes f.header.seed (s.buf0.base + headerBytes) f.bitLength s
        (probeEntries Config.engine f))
    simp only [Nat.zero_add] at hcounts
    refine ⟨_, rfl, f.bits, f.probes, _, holdsFilter_of_filterAt hf, probesMade_pos (hlength ▸ hpos),
      (probesMade_le _).trans_eq hlength, fun hresult => (probesMade_of_all ?_).trans hlength, hcounts⟩
    rw [result_done] at hresult
    exact List.forall_mem_map.mpr (List.all_eq_true.mp hresult)

theorem exec_merge_counts (h : exec .merge s = .next t) :
    ∃ events, t.trace = s.trace ++ events ∧
      Counts events (40 + 2 * (s.buf0Len.toNat - 20)) (s.buf0Len.toNat - 20) 0 := by
  obtain ⟨-, rfl⟩ | ⟨-, -, -, ⟨c, -, rfl⟩ | ⟨f, hf, ⟨c, -, rfl⟩ | ⟨g, hg, ⟨-, rfl⟩ | ⟨-, rfl⟩⟩⟩⟩ :=
    mergeCommand_next (finish_eq_next h)
  · exact absurd hcode (code_raise_ne_zero _ s)
  · exact absurd hcode (code_raise_ne_zero c s)
  · exact absurd hcode (code_raise_ne_zero c s)
  · exact absurd hcode (code_raise_ne_zero _ s)
  · obtain ⟨-, -, harray, -⟩ := filterAt_ok hf
    have harray' : s.buf0Len.toNat - 20 = f.arrayLen := harray.symm
    have hcounts := ((counts_validateEvents hf).append (counts_validateEvents hg)).append
      (counts_mergeEvents s f.arrayLen (s.buf1.base + headerBytes) (s.buf0.base + headerBytes))
    rw [Nat.zero_add] at hcounts
    exact ⟨_, by rw [done_trace, traced_trace, storeMerge_trace], by rw [harray']; exact hcounts⟩

end

/-- Settles O54: by the ways each command ends and the counts of its operations. -/
theorem operationCountsOfOkEndings : Obligations.OperationCountsOfOkEndings := by
  intro i s t h hcode
  cases i with
  | nop => cases h; exact counts_of_trace_eq rfl
  | optbits =>
    obtain ⟨-, htrace, -⟩ := optbitsCommand_fields Config.engine s
    cases h
    exact counts_of_trace_eq htrace
  | optprobes =>
    obtain ⟨-, htrace, -⟩ := optprobesCommand_fields Config.engine s
    cases h
    exact counts_of_trace_eq htrace
  | derive =>
    obtain ⟨-, htrace, -⟩ := deriveCommand_fields Config.engine s
    cases h
    exact counts_of_trace_eq htrace
  | probe => exact exec_probe_counts hcode h
  | setbit => exact exec_setbit_counts hcode h
  | testbit => exact exec_testbit_counts hcode h
  | init => exact exec_init_counts hcode h
  | add => exact exec_add_counts hcode h
  | test => exact exec_test_counts hcode h
  | merge => exact exec_merge_counts hcode h

end Sys2Proof.Machine
end

section
/-! The first command after reset (spec R283). -/

namespace Sys2Proof.Machine

/-- With CAPACITY and BITLEN 0 and an empty range in BUF0, these commands answer InvalidArgument (spec R140 to R142, R173,
R200, R283). -/
theorem exec_reset_invalidArgument {i : Instr} (hi : i ∈ [Instr.optbits, .optprobes, .derive, .setbit, .testbit, .init]) :
    exec i State.reset = .next (raise .invalidArgument State.reset) := by
  cases i with
  | optbits | optprobes | derive => rfl
  | setbit | testbit => exact exec_of_bareArrayError (by decide) rfl
  | init => exact exec_init_of_error rfl
  | nop | probe | add | test | merge => exact absurd hi (by decide)

/-- An empty range has no room for a header (spec R193, R283). -/
theorem filterAt_reset : State.reset.filterAt State.reset.buf0 = .error .corruptBuffer :=
  filterAt_of_short State.reset (by decide)

theorem exec_reset_corruptBuffer {i : Instr} (hi : i ∈ [Instr.add, .test, .merge]) :
    exec i State.reset = .next (State.reset.errorEnd .corruptBuffer []) := by
  cases i with
  | add | test => exact exec_of_filterError (by decide) rfl rfl filterAt_reset fun hroom => absurd hroom (by decide)
  | merge =>
    have hmergeable : Mergeable State.reset :=
      ⟨rfl, rfl, rfl, fun hroom => absurd hroom (by decide), fun hroom => absurd hroom (by decide)⟩
    exact hmergeable.exec_error0 filterAt_reset
  | nop | optbits | optprobes | derive | probe | setbit | testbit | init => exact absurd hi (by decide)

/-- With SEED 0 a seed word is the table's entry (spec R113). -/
theorem seedWord_zero (c : Int) : seedWord c 0#64 = BitVec.ofInt 64 c := by simp [seedWord]

/-- PROBE hashes the empty element under the table's first entry (spec R116, R283). -/
theorem exec_reset_probe : exec .probe State.reset = .next { State.reset with
    hashLo := lowHalf (Config.engine.h128 [] (BitVec.ofInt 64 (seedEntry Config.engine 0)))
    hashHi := highHalf (Config.engine.h128 [] (BitVec.ofInt 64 (seedEntry Config.engine 0)))
    trace := [.hash (BitVec.ofInt 64 (seedEntry Config.engine 0))] } := by
  rw [← seedWord_zero]
  rfl

/-- Settles O10: by the value 0 of every register. -/
theorem firstCommandAfterReset : Obligations.FirstCommandAfterReset :=
  ⟨fun _ => exec_reset_invalidArgument, fun _ => exec_reset_corruptBuffer, rfl,
    seedEntry Config.engine 0, seedEntry_eq Config.engine (by decide), exec_reset_probe⟩

end Sys2Proof.Machine
end
